-- ==== Sys2Proof/Word.lean ====
section
/-! DEFINITION. The words of the EFU: what the spec treats as bit vectors (spec/00_scope.md R10). -/

namespace Sys2Proof

/-- One byte of the operand image (spec/10_state.md R25). -/
abbrev Byte := BitVec 8

/-- One transaction's data at the register port (spec/20_memory.md R70). -/
abbrev Word := BitVec 32

/-- A byte offset in the 256-byte register space (spec/20_memory.md R70). -/
abbrev Offset := BitVec 8

end Sys2Proof
end

