-- ==== Sys2Proof/Syntax.lean ====
section
/-! DEFINITION. The twelve commands of the EFU (spec/30_encoding.md R102) and their operand fields. -/

namespace Sys2Proof

/-- The four `FMT` codes (spec/30_encoding.md R103). `reserved` is code 3: well-formed as a field, but it
names no supported format (R108). -/
inductive Fmt where
  | single
  | double
  | extended
  | reserved
  deriving DecidableEq, Repr

/-- The `BE` bit: byte order of the operand image (spec/30_encoding.md R104). -/
inductive ByteOrder where
  | little
  | big
  deriving DecidableEq, Repr

/-- One constructor per row of spec/opcode_table.json. -/
inductive Instr where
  /-- Bit Extractor (spec/41_bit_extractor.md R120). -/
  | xtr (f : Fmt) (o : ByteOrder)
  /-- Field split (spec/42_classifier.md R130). -/
  | spl (f : Fmt)
  /-- Kind decision (spec/42_classifier.md R132). -/
  | knd (f : Fmt)
  /-- `classify` (spec/42_classifier.md R137). -/
  | cls (f : Fmt)
  /-- `classifyNative` (spec/42_classifier.md R138). -/
  | cln (f : Fmt) (o : ByteOrder)
  /-- Load the converter from the classification (spec/44_exact_converter.md R181). -/
  | ldc (f : Fmt)
  /-- Phase 1, Minimize (spec/44_exact_converter.md R184). -/
  | min
  /-- Phase 2, Remove fraction (spec/44_exact_converter.md R185). -/
  | rfr
  /-- Phase 3, Reduce remaining exponent (spec/44_exact_converter.md R186). -/
  | rre
  /-- One step of digit generation (spec/44_exact_converter.md R188). -/
  | dgt
  /-- The whole Exact Converter (spec/44_exact_converter.md R191). -/
  | cvt (f : Fmt)
  /-- Clear the error state (spec/45_system.md R220). -/
  | cle
  deriving DecidableEq, Repr

end Sys2Proof
end

