-- ==== Sys2Proof/Machine/Descriptor.lean ====
section
/-! DEFINITION. The format descriptor table, constant state of the EFU (spec/10_state.md R20 to R23). -/

namespace Sys2Proof.Machine

/-- One format descriptor (spec/10_state.md R20). -/
structure Descriptor where
  totalBits : Nat
  mantissaBits : Nat
  exponentBits : Nat
  exponentBias : Nat
  impliedOne : Bool
  hasIndefinite : Bool
  deriving DecidableEq, Repr

/-- IEEE-754 binary32 (spec/10_state.md R20, R21). -/
def descSingle : Descriptor := ⟨32, 23, 8, 127, true, false⟩

/-- IEEE-754 binary64 (spec/10_state.md R20, R21). -/
def descDouble : Descriptor := ⟨64, 52, 11, 1023, true, false⟩

/-- x87 double-extended (spec/10_state.md R20, R21). -/
def descExtended : Descriptor := ⟨80, 64, 15, 16383, false, true⟩

/-- `Desc(f)`; code 3 selects none (spec/10_state.md R20, R23). -/
def descOf : Fmt → Option Descriptor
  | .single => some descSingle
  | .double => some descDouble
  | .extended => some descExtended
  | .reserved => none

/-- The number of image bytes of a format, 4, 8 or 10 (spec/41_bit_extractor.md R120). -/
def Descriptor.imageBytes (d : Descriptor) : Nat := d.totalBits / 8

end Sys2Proof.Machine
end

