-- ==== Sys2Proof/Machine/State.lean ====
section
/-! DEFINITION. All state the spec gives the EFU, as plain data, and the state after reset. -/

namespace Sys2Proof.Machine

/-- The seven kinds (spec/10_state.md R56, in the order of their codes); code 7 is never produced. -/
inductive Kind where
  | zero
  | denormal
  | normal
  | infinity
  | quietNaN
  | signalingNaN
  | indefinite
  deriving DecidableEq, Repr

/-- `STATUS.PHASE` (spec/10_state.md R41, in the order of the codes). -/
inductive Phase where
  | idle
  | loaded
  | minimized
  | defracted
  | reduced
  | digits
  | finished
  | bypass
  deriving DecidableEq, Repr

/-- `STATUS.ERR` (spec/10_state.md R42, in the order of the codes); codes 6 to 15 are never produced. -/
inductive ErrCode where
  /-- 0 NONE. -/
  | noError
  /-- 1 CMD (spec/60_exceptions.md R261). -/
  | cmd
  /-- 2 FORMAT (spec/60_exceptions.md R262). -/
  | format
  /-- 3 RANGE (spec/60_exceptions.md R263). -/
  | range
  /-- 4 PRECOND (spec/60_exceptions.md R264). -/
  | precond
  /-- 5 SEQ (spec/60_exceptions.md R265). -/
  | seq
  deriving DecidableEq, Repr

/-- `USTEP`, the next sub-step of a CVT in progress (spec/10_state.md R53). -/
inductive UStep where
  | sLdc
  | sMin
  | sRfr
  | sRre
  | sDgt
  deriving DecidableEq, Repr

/-- The four requests to the external engine (spec/43_bigint_engine.md R163 to R166). -/
inductive EngineRequest where
  | load (v : BitVec 64)
  | mulp5 (n : BitVec 16)
  | shl (n : BitVec 16)
  | divmod10
  deriving DecidableEq, Repr

/-- One beat of the digit stream (spec/20_memory.md R88). -/
structure Beat where
  /-- `dg_digit`. -/
  digit : BitVec 4
  /-- `dg_frac`. -/
  frac : Bool
  /-- `dg_last`. -/
  last : Bool
  deriving DecidableEq, Repr

/-- The port's answer to one transaction (spec/20_memory.md R70). -/
structure Response where
  /-- `rsp_rdata`. -/
  data : Word
  /-- `rsp_err`: 1 is a `BusError` (R75). -/
  err : Bool
  deriving DecidableEq, Repr

/-- What can happen at the EFU's boundary, each one atomic event (spec/20_memory.md R71). -/
inductive Event where
  /-- The host reads 32 bits at an offset. -/
  | read (addr : Offset)
  /-- The host writes 32 bits at an offset. -/
  | write (addr : Offset) (data : Word)
  /-- `rst` is 1 at a clock edge (spec/70_reset_and_hazards.md R290). -/
  | reset
  /-- No transaction comes now: the EFU performs one step of its own if `BUSY = 1` (R71). -/
  | efu
  /-- From now on the engine answers (`true`) or does not (`false`) (R89). -/
  | engine (answers : Bool)
  /-- From now on the sink takes beats (`true`) or does not (`false`) (R89). -/
  | sink (takes : Bool)
  deriving DecidableEq, Repr

/-- Why the machine stops. -/
inductive Fault where
  /-- Raised by `efuStep` alone: `BUSY = 1` while `CW` holds no command word. The spec gives such a state no
  meaning (spec/10_state.md R53) and no run reaches it. Safe: the model stops where it might go on. -/
  | noCommandLatched
  deriving DecidableEq, Repr

/-- Why an instruction is refused. -/
inductive Refusal where
  /-- Raised by an arm of `exec` whose instruction has no meaning yet; no arm of this model does. Safe. -/
  | notModelled (mnemonic : String)
  deriving DecidableEq, Repr

/-- The state of the EFU, of its engine, and of what lies in flight between the agents. -/
structure State where
  /-- `OPB`: byte `a` is bits `[8a+7 : 8a]` (spec/10_state.md R25). -/
  opb : BitVec 128
  /-- `BITS` (R26). -/
  bits : BitVec 80
  /-- `MANF` (R27). -/
  manf : BitVec 64
  /-- `SEXP`: `EXPF` is bits [14:0], `NEG` bit 15 (R28). -/
  sexp : BitVec 16
  /-- `KIND` (R29). -/
  kind : Kind
  /-- `CMANT` (R30). -/
  cmant : BitVec 64
  /-- `BINEXP`, two's complement (R31). -/
  binexp : BitVec 16
  /-- `CNEG` (R32). -/
  cneg : Bool
  /-- `DECEXP`, two's complement (R33). -/
  decexp : BitVec 16
  /-- `ADJ` (R34). -/
  adj : BitVec 6
  /-- `P5N` (R35). -/
  p5n : BitVec 16
  /-- `LSHN` (R36). -/
  lshn : BitVec 15
  /-- `DIGIT`: `D` [3:0], `FRAC` [4], `LAST` [5], `DV` [6] (R37). -/
  digit : BitVec 7
  /-- `NDIG` (R38). -/
  ndig : BitVec 16
  /-- `STATUS.BUSY` (R40). -/
  busy : Bool
  /-- `STATUS.PHASE` (R41). -/
  phase : Phase
  /-- `STATUS.ERR` (R42). -/
  err : ErrCode
  /-- `STATUS.ACCNZ` (R44). -/
  accnz : Bool
  /-- `STATUS.LASTOP` (R51). -/
  lastop : BitVec 4
  /-- `ACC`, held by the engine (R43). -/
  acc : Nat
  /-- `CW`, the latched command word (R53). -/
  cw : BitVec 7
  /-- `USTEP` (R53). -/
  ustep : UStep
  /-- The engine transaction in flight: a request the engine has not answered (R53). -/
  engReq : Option EngineRequest
  /-- The beat waiting for its sink (R53). -/
  beat : Option Beat
  /-- `DSTREAM`: the beats the sink has taken, oldest first (spec/20_memory.md R88). -/
  dstream : List Beat
  /-- The port's answer to the latest transaction (spec/20_memory.md R70). -/
  rsp : Option Response
  /-- The model's own: what the other agents will do, and when the EFU has its turn, in order (log 2). -/
  agenda : List Event
  /-- The model's own: the engine answers now (log 5). -/
  engineReady : Bool
  /-- The model's own: the sink takes a beat now (log 5). -/
  sinkReady : Bool
  deriving DecidableEq, Repr

/-- The state right after reset (spec/10_state.md R55, spec/70_reset_and_hazards.md R291). `cw` and `ustep`
are "no command in progress": their content is the model's choice (log 7). The last three fields are the
model's own (log 2, log 5). -/
def State.reset : State where
  opb := 0
  bits := 0
  manf := 0
  sexp := 0
  kind := .zero
  cmant := 0
  binexp := 0
  cneg := false
  decexp := 0
  adj := 0
  p5n := 0
  lshn := 0
  digit := 0
  ndig := 0
  busy := false
  phase := .idle
  err := .noError
  accnz := false
  lastop := 0
  acc := 0
  cw := 0
  ustep := .sLdc
  engReq := none
  beat := none
  dstream := []
  rsp := none
  agenda := []
  engineReady := true
  sinkReady := true

end Sys2Proof.Machine
end

