-- ==== Sys2Proof/Machine/Operands.lean ====
section
/-! DEFINITION. How commands read their operands: image bytes, the extracted record, the split fields, the
converter input, and the fields of SEXP. -/

namespace Sys2Proof.Machine

/-- `OPB[a]`, byte `a` of the operand buffer (spec/10_state.md R25). -/
def opbByte (opb : BitVec 128) (a : Nat) : Byte := opb.extractLsb' (8 * a) 8

/-- The place in the image of byte `j` of the record of `n` bytes, counted from the least significant
(spec/41_bit_extractor.md R120). -/
def imageIndex (n : Nat) (o : ByteOrder) (j : Nat) : Nat :=
  match o with
  | .little => j
  | .big => n - 1 - j

/-- A record from its bytes, least significant first, zero above them (spec/41_bit_extractor.md R120). -/
def recordOfBytes : List Byte → BitVec 80
  | [] => 0
  | b :: bs => (recordOfBytes bs <<< 8) ||| b.setWidth 80

/-- The Bit Extractor (spec/41_bit_extractor.md R120). -/
def extractRecord (d : Descriptor) (o : ByteOrder) (opb : BitVec 128) : BitVec 80 :=
  recordOfBytes ((List.range d.imageBytes).map fun j => opbByte opb (imageIndex d.imageBytes o j))

/-- The sign of a record, its top bit (spec/42_classifier.md R130). -/
def signOf (d : Descriptor) (bits : BitVec 80) : Bool := bits.getLsbD (d.totalBits - 1)

/-- The exponent field of a record, zero-extended (spec/42_classifier.md R130). -/
def exponentOf (d : Descriptor) (bits : BitVec 80) : BitVec 15 :=
  (bits.extractLsb' d.mantissaBits d.exponentBits).setWidth 15

/-- The mantissa field of a record, zero-extended (spec/42_classifier.md R130). -/
def mantissaOf (d : Descriptor) (bits : BitVec 80) : BitVec 64 :=
  (bits.extractLsb' 0 d.mantissaBits).setWidth 64

/-- `SEXP` from `NEG` and `EXPF` (spec/10_state.md R28). -/
def packSexp (neg : Bool) (expf : BitVec 15) : BitVec 16 := BitVec.ofBool neg ++ expf

/-- `SEXP.EXPF` (spec/10_state.md R28). -/
def State.expf (s : State) : BitVec 15 := s.sexp.extractLsb' 0 15

/-- `SEXP.NEG` (spec/10_state.md R28). -/
def State.neg (s : State) : Bool := s.sexp.getLsbD 15

/-- `b = sext_16(BINEXP)` (spec/10_state.md R31). -/
def State.binExp (s : State) : Int := s.binexp.toInt

/-- `d = sext_16(DECEXP)` (spec/10_state.md R33). -/
def State.decExp (s : State) : Int := s.decexp.toInt

/-- `ConverterInput(f, k, e, m)`: the pair `(mantissa, binExp)` (spec/44_exact_converter.md R182). The spec
defines it for the kinds Normal and Denormal; with implied one, every other kind reads as Denormal here. -/
def converterInput (d : Descriptor) (k : Kind) (e : BitVec 15) (m : BitVec 64) : Nat × Int :=
  if d.impliedOne then
    if k = .normal then (2 ^ d.mantissaBits + m.toNat, (e.toNat : Int) - d.exponentBias - d.mantissaBits)
    else (m.toNat, 1 - (d.exponentBias : Int) - d.mantissaBits)
  else (m.toNat, max (e.toNat : Int) 1 - d.exponentBias - 63)

/-- `lowestSetBitIndex(a)` for `a > 0` (spec/00_scope.md R11). The guard `a ≠ 0` is the caller's
(spec/43_bigint_engine.md R160, R167): MIN never evaluates it at 0. -/
def lowestSetBitIndex (a : BitVec 64) : Nat := ((List.range 64).find? fun i => a.getLsbD i).getD 0

/-- The phase-1 right-shift amount, clamped at 0 (spec/44_exact_converter.md R184). -/
def minimizeAmount (m : BitVec 64) (b : Int) : Nat :=
  if b < 0 then min (lowestSetBitIndex m) (-b).toNat else 0

end Sys2Proof.Machine
end

