-- ==== Sys2Proof/Machine/Flags.lean ====
section
/-! DEFINITION. Everything the EFU decides or reports by code: the kind function, the range check, the codes of
kinds, phases and errors, and the assembly of STATUS and DIGIT. -/

namespace Sys2Proof.Machine

/-- `ones`, the all-ones exponent (spec/42_classifier.md R133). -/
def Descriptor.allOnes (d : Descriptor) : Nat := 2 ^ d.exponentBits - 1

/-- `Kind` for a format with an implied one, exponent field not 0 (spec/42_classifier.md R133, R134). -/
def kindImplied (d : Descriptor) (e : BitVec 15) (m : BitVec 64) : Kind :=
  if e.toNat = d.allOnes then
    if m = 0 then .infinity
    else if m.getLsbD (d.mantissaBits - 1) then .quietNaN
    else .signalingNaN
  else .normal

/-- `Kind` for the extended format, exponent field not 0 (spec/42_classifier.md R133, R135, R140). -/
def kindExplicit (d : Descriptor) (e : BitVec 15) (m : BitVec 64) : Kind :=
  let top := m.getLsbD (d.mantissaBits - 1)
  let next := m.getLsbD (d.mantissaBits - 2)
  let low := m.extractLsb' 0 (d.mantissaBits - 2)
  if e.toNat = d.allOnes then
    if top = false then .signalingNaN
    else if next = false then (if low = 0 then .infinity else .signalingNaN)
    else (if low = 0 then .indefinite else .quietNaN)
  else if top = false then .denormal
  else .normal

/-- `Kind(f, e, m)` (spec/42_classifier.md R133, R141). -/
def kindOf (d : Descriptor) (e : BitVec 15) (m : BitVec 64) : Kind :=
  if e = 0 then (if m = 0 then .zero else .denormal)
  else if d.impliedOne then kindImplied d e m
  else kindExplicit d e m

/-- The range check of KND, LDC and CVT (spec/42_classifier.md R139). -/
def fieldsInRange (d : Descriptor) (e : BitVec 15) (m : BitVec 64) : Bool :=
  decide (m.toNat < 2 ^ d.mantissaBits) && decide (e.toNat < 2 ^ d.exponentBits)

/-- The kinds that go through the converter (spec/44_exact_converter.md R181, R183). -/
def Kind.converts : Kind → Bool
  | .zero => false
  | .denormal => true
  | .normal => true
  | .infinity => false
  | .quietNaN => false
  | .signalingNaN => false
  | .indefinite => false

/-- Kind codes (spec/10_state.md R56). -/
def Kind.code : Kind → BitVec 3
  | .zero => 0
  | .denormal => 1
  | .normal => 2
  | .infinity => 3
  | .quietNaN => 4
  | .signalingNaN => 5
  | .indefinite => 6

/-- Phase codes (spec/10_state.md R41). -/
def Phase.code : Phase → BitVec 3
  | .idle => 0
  | .loaded => 1
  | .minimized => 2
  | .defracted => 3
  | .reduced => 4
  | .digits => 5
  | .finished => 6
  | .bypass => 7

/-- Error codes (spec/10_state.md R42). -/
def ErrCode.code : ErrCode → BitVec 4
  | .noError => 0
  | .cmd => 1
  | .format => 2
  | .range => 3
  | .precond => 4
  | .seq => 5

/-- `STATUS` as the host reads it (spec/10_state.md R40). -/
def statusWord (s : State) : Word :=
  (0 : BitVec 12) ++ s.lastop ++ (0 : BitVec 7) ++ BitVec.ofBool s.accnz ++ s.err.code ++ s.phase.code
    ++ BitVec.ofBool s.busy

/-- `DIGIT` after a digit step (spec/10_state.md R37, spec/44_exact_converter.md R188): `DV = 1` and the three
values of the beat. -/
def digitRegister (b : Beat) : BitVec 7 :=
  (1 : BitVec 1) ++ BitVec.ofBool b.last ++ BitVec.ofBool b.frac ++ b.digit

end Sys2Proof.Machine
end

