-- ==== Sys2Proof/Machine/Ops.lean ====
section
/-! DEFINITION. The named operations on State: raising an error and leaving it, the register writes of the
commands, the engine requests, the digit stream, and how a command's step ends. -/

namespace Sys2Proof.Machine

/-- `raise Err(code)`: the one way an error is taken (spec/60_exceptions.md R266). Nothing is saved and nothing
else is written. -/
def State.raise (s : State) (e : ErrCode) : State := { s with err := e, busy := false }

/-- The one way out of the faulted state but reset: `STATUS.ERR <- 0` (spec/60_exceptions.md R268,
spec/45_system.md R220). -/
def State.clearErr (s : State) : State := { s with err := .noError }

/-- The last step of a command is done (spec/30_encoding.md R112 step 8). -/
def State.finish (s : State) : State := { s with busy := false }

/-- A CVT goes on with sub-step `u` (spec/44_exact_converter.md R191). -/
def State.advance (s : State) (u : UStep) : State := { s with ustep := u }

/-- The writes of XTR (spec/41_bit_extractor.md R120). -/
def State.writeBits (s : State) (r : BitVec 80) : State := { s with bits := r }

/-- The writes of SPL (spec/42_classifier.md R130). -/
def State.writeFields (s : State) (sexp : BitVec 16) (m : BitVec 64) : State := { s with sexp := sexp, manf := m }

/-- The write of KND (spec/42_classifier.md R132). -/
def State.writeKind (s : State) (k : Kind) : State := { s with kind := k }

/-- `PHASE <- p`. -/
def State.setPhase (s : State) (p : Phase) : State := { s with phase := p }

/-- `CMANT`, `BINEXP`, `CNEG` as LDC loads them (spec/44_exact_converter.md R181). -/
def State.writeInput (s : State) (m : BitVec 64) (b : BitVec 16) (n : Bool) : State :=
  { s with cmant := m, binexp := b, cneg := n }

/-- `ADJ`, `CMANT`, `BINEXP` as MIN leaves them (spec/44_exact_converter.md R184). -/
def State.writeMinimized (s : State) (a : BitVec 6) (m : BitVec 64) (b : BitVec 16) : State :=
  { s with adj := a, cmant := m, binexp := b }

/-- `P5N`, `DECEXP`, `BINEXP` as RFR leaves them, `DIGIT` and `NDIG` cleared (spec/44_exact_converter.md R185). -/
def State.writeDefracted (s : State) (n d b : BitVec 16) : State :=
  { s with p5n := n, decexp := d, binexp := b, digit := 0, ndig := 0 }

/-- `LSHN`, `BINEXP` as RRE leaves them (spec/44_exact_converter.md R186). -/
def State.writeReduced (s : State) (l : BitVec 15) (b : BitVec 16) : State := { s with lshn := l, binexp := b }

/-- `DECEXP`, `DIGIT`, `NDIG` as DGT leaves them (spec/44_exact_converter.md R188). -/
def State.writeDigit (s : State) (w : BitVec 16) (g : BitVec 7) (n : BitVec 16) : State :=
  { s with decexp := w, digit := g, ndig := n }

/-- What the engine answers (spec/20_memory.md R87), with the accumulator it is left with. -/
structure EngineAnswer where
  acc : Nat
  /-- `eng_rem`. -/
  rem : BitVec 4
  /-- `eng_nz`. -/
  nz : Bool
  deriving DecidableEq, Repr

/-- The answer that leaves `a` in the accumulator and gives remainder `r`; `nz = (ACC != 0)` after the operation. -/
def engineAnswer (a : Nat) (r : BitVec 4) : EngineAnswer := ⟨a, r, decide (a ≠ 0)⟩

/-- The engine (spec/43_bigint_engine.md R163 LOAD, R164 MULP5, R165 SHL, R166 DIVMOD10). The rules define MULP5 for
`n <= 32768` and SHL for `n <= 32767`; the product and the shift for greater counts are the model's choice, and no step
sends one (DESIGN CHOICE, log 19). -/
def EngineRequest.run (acc : Nat) : EngineRequest → EngineAnswer
  | .load v => engineAnswer v.toNat 0
  | .mulp5 n => engineAnswer (acc * 5 ^ n.toNat) 0
  | .shl n => engineAnswer (acc * 2 ^ n.toNat) 0
  | .divmod10 => engineAnswer (acc / 10) (BitVec.ofNat 4 (acc % 10))

/-- `eng_op` (spec/20_memory.md R87). -/
def EngineRequest.opCode : EngineRequest → BitVec 2
  | .load _ => 0
  | .mulp5 _ => 1
  | .shl _ => 2
  | .divmod10 => 3

/-- `eng_arg` (spec/20_memory.md R87). The spec fixes bits [15:0] for MULP5 and SHL and none for DIVMOD10; the zeros in
the bits it leaves open are the model's choice (DESIGN CHOICE, log 19). -/
def EngineRequest.arg : EngineRequest → BitVec 64
  | .load v => v
  | .mulp5 n => n.setWidth 64
  | .shl n => n.setWidth 64
  | .divmod10 => 0

/-- The engine answers a request: `ACC` changes, the EFU latches the zero flag, nothing is in flight any more
(spec/20_memory.md R87). -/
def State.engineStep (s : State) (r : EngineRequest) : State :=
  { s with acc := (r.run s.acc).acc, accnz := (r.run s.acc).nz, engReq := none }

/-- A request is in flight and the engine has not answered (spec/20_memory.md R89). -/
def State.awaitEngine (s : State) (r : EngineRequest) : State := { s with engReq := some r }

/-- The engine has answered and the sink has not taken the beat (spec/20_memory.md R89). -/
def State.awaitSink (s : State) (b : Beat) : State := { s with engReq := none, beat := some b }

/-- `emit`: the sink takes the beat (spec/20_memory.md R88). -/
def State.emit (s : State) (b : Beat) : State := { s with dstream := s.dstream ++ [b], beat := none }

/-- What one step of a command comes to. -/
inductive SubStep where
  /-- The step is complete and leaves this state. -/
  | done (s : State)
  /-- The step ends with `raise Err(e)` (spec/60_exceptions.md R266). -/
  | raised (e : ErrCode)
  /-- The engine or the sink has not answered; the step is not complete (spec/20_memory.md R89). -/
  | waiting (s : State)

/-- The outcome of a step begun in `s` whose completion is followed by `k`. -/
def settle (s : State) (k : State → State) : SubStep → Host.Outcome State Fault Refusal
  | .done t => .next (k t)
  | .raised e => .next (s.raise e)
  | .waiting t => .next t

/-- A command that is one step: it ends when the step is complete (spec/30_encoding.md R112 steps 7, 8). -/
def runSingle (s : State) (r : SubStep) : Host.Outcome State Fault Refusal := settle s State.finish r

/-- A step that needs a format: code 3 names none and raises `Err(FORMAT)` (spec/60_exceptions.md R262). At the
port the word is stopped before it is accepted (spec/30_encoding.md R112 step 5, log 12). -/
def withFormat (f : Fmt) (body : Descriptor → SubStep) : SubStep :=
  match descOf f with
  | none => .raised .format
  | some d => body d

end Sys2Proof.Machine
end

