-- ==== Sys2Proof/Machine/Extractor.lean ====
section
/-! DEFINITION. The Bit Extractor: XTR (spec/41_bit_extractor.md). -/

namespace Sys2Proof.Machine

/-- The extraction, shared with CLN (spec/41_bit_extractor.md R120). -/
def xtrState (d : Descriptor) (o : ByteOrder) (s : State) : State := s.writeBits (extractRecord d o s.opb)

/-- XTR (spec/41_bit_extractor.md R120). -/
def execXtr (f : Fmt) (o : ByteOrder) (s : State) : Host.Outcome State Fault Refusal :=
  runSingle s (withFormat f fun d => .done (xtrState d o s))

end Sys2Proof.Machine
end

