-- ==== Sys2Proof/Machine/Classifier.lean ====
section
/-! DEFINITION. The Classifier: SPL, KND, CLS, CLN (spec/42_classifier.md). -/

namespace Sys2Proof.Machine

/-- The field split, shared by SPL, CLS, CLN (spec/42_classifier.md R130). -/
def splState (d : Descriptor) (s : State) : State :=
  s.writeFields (packSexp (signOf d s.bits) (exponentOf d s.bits)) (mantissaOf d s.bits)

/-- `KIND <- Kind(FMT, EXPF, MANF)`, shared by KND, CLS, CLN (spec/42_classifier.md R132, R137). -/
def kndState (d : Descriptor) (s : State) : State := s.writeKind (kindOf d s.expf s.manf)

/-- SPL then KND, with no range check (spec/42_classifier.md R137). -/
def clsState (d : Descriptor) (s : State) : State := kndState d (splState d s)

/-- SPL (spec/42_classifier.md R130). -/
def execSpl (f : Fmt) (s : State) : Host.Outcome State Fault Refusal :=
  runSingle s (withFormat f fun d => .done (splState d s))

/-- KND (spec/42_classifier.md R132): the range check of R139 comes before everything else. -/
def execKnd (f : Fmt) (s : State) : Host.Outcome State Fault Refusal :=
  runSingle s (withFormat f fun d =>
    if fieldsInRange d s.expf s.manf then .done (kndState d s) else .raised .range)

/-- CLS (spec/42_classifier.md R137). -/
def execCls (f : Fmt) (s : State) : Host.Outcome State Fault Refusal :=
  runSingle s (withFormat f fun d => .done (clsState d s))

/-- CLN (spec/42_classifier.md R138): XTR, then CLS on the new BITS, in one step. -/
def execCln (f : Fmt) (o : ByteOrder) (s : State) : Host.Outcome State Fault Refusal :=
  runSingle s (withFormat f fun d => .done (clsState d (xtrState d o s)))

end Sys2Proof.Machine
end

