-- ==== Sys2Proof/Machine/Converter.lean ====
section
/-! DEFINITION. The Exact Converter: LDC, MIN, RFR, RRE, DGT, CVT (spec/44_exact_converter.md). -/

namespace Sys2Proof.Machine

/-- What LDC writes for the kind `k` it has computed (spec/44_exact_converter.md R181, R183). -/
def ldcState (d : Descriptor) (k : Kind) (s : State) : State :=
  if k.converts then
    let input := converterInput d k s.expf s.manf
    ((s.writeKind k).writeInput (BitVec.ofNat 64 input.1) (BitVec.ofInt 16 input.2) s.neg).setPhase .loaded
  else (s.writeKind k).setPhase .bypass

/-- The body of LDC, also CVT's first sub-step (spec/44_exact_converter.md R181): the range check, then the kind
computed afresh. -/
def ldcBody (d : Descriptor) (s : State) : SubStep :=
  if fieldsInRange d s.expf s.manf then .done (ldcState d (kindOf d s.expf s.manf) s) else .raised .range

/-- What MIN writes (spec/44_exact_converter.md R184). -/
def minState (s : State) : State :=
  let a := minimizeAmount s.cmant s.binExp
  (s.writeMinimized (BitVec.ofNat 6 a) (s.cmant >>> a) (BitVec.ofInt 16 (s.binExp + a))).setPhase .minimized

/-- The body of MIN (spec/44_exact_converter.md R184): SEQ before PRECOND (spec/60_exceptions.md R269). -/
def minBody (s : State) : SubStep :=
  if s.phase ≠ .loaded then .raised .seq
  else if s.cmant = 0 then .raised .precond
  else .done (minState s)

/-- What RFR writes once the engine has answered (spec/44_exact_converter.md R185). -/
def rfrState (s : State) : State :=
  let loaded := s.engineStep (.load s.cmant)
  if s.binExp < 0 then
    let n := BitVec.ofNat 16 (-s.binExp).toNat
    ((loaded.engineStep (.mulp5 n)).writeDefracted n s.binexp 0).setPhase .defracted
  else (loaded.writeDefracted 0 0 s.binexp).setPhase .defracted

/-- The body of RFR (spec/44_exact_converter.md R185). Its requests are folded into the one step; while the
engine does not answer, LOAD is in flight (log 6). -/
def rfrBody (s : State) : SubStep :=
  if s.phase ≠ .minimized then .raised .seq
  else if s.engineReady = false then .waiting (s.awaitEngine (.load s.cmant))
  else .done (rfrState s)

/-- The phase-3 left-shift amount as RRE sends it (spec/44_exact_converter.md R186). -/
def shiftAmount (s : State) : BitVec 16 := BitVec.ofNat 16 s.binExp.toNat

/-- What RRE writes once the engine has answered (spec/44_exact_converter.md R186). -/
def rreState (s : State) : State :=
  if 0 < s.binExp then
    ((s.engineStep (.shl (shiftAmount s))).writeReduced (BitVec.ofNat 15 s.binExp.toNat) 0).setPhase .reduced
  else (s.writeReduced 0 s.binexp).setPhase .reduced

/-- The body of RRE (spec/44_exact_converter.md R186): the engine is asked only when `BINEXP > 0`. -/
def rreBody (s : State) : SubStep :=
  if s.phase ≠ .defracted then .raised .seq
  else if 0 < s.binExp ∧ s.engineReady = false then .waiting (s.awaitEngine (.shl (shiftAmount s)))
  else .done (rreState s)

/-- XFS's loop condition after a digit step begun at `DECEXP = w` that leaves `acc` in the accumulator
(spec/44_exact_converter.md R188). -/
def moreDigits (w : Int) (acc : Nat) : Bool := decide (w + 1 ≤ 0) || decide (acc ≠ 0)

/-- The beat of a digit step (spec/44_exact_converter.md R188, R189). -/
def nextBeat (s : State) : Beat where
  digit := (EngineRequest.divmod10.run s.acc).rem
  frac := decide (s.decExp < 0)
  last := !moreDigits s.decExp (EngineRequest.divmod10.run s.acc).acc

/-- What DGT writes once engine and sink have answered (spec/44_exact_converter.md R188). -/
def dgtState (s : State) : State :=
  let b := nextBeat s
  let after := (s.engineStep .divmod10).writeDigit (BitVec.ofInt 16 (s.decExp + 1)) (digitRegister b) (s.ndig + 1)
  (after.emit b).setPhase (if b.last then .finished else .digits)

/-- The body of DGT (spec/44_exact_converter.md R188). The step is complete only when the sink has taken the
beat; a beat that waits for its sink needs no second answer of the engine (spec/20_memory.md R89). -/
def dgtBody (s : State) : SubStep :=
  if s.phase ≠ .reduced ∧ s.phase ≠ .digits then .raised .seq
  else if s.beat = none ∧ s.engineReady = false then .waiting (s.awaitEngine .divmod10)
  else if s.sinkReady = false then .waiting (s.awaitSink (nextBeat s))
  else .done (dgtState s)

/-- LDC (spec/44_exact_converter.md R181). -/
def execLdc (f : Fmt) (s : State) : Host.Outcome State Fault Refusal :=
  runSingle s (withFormat f fun d => ldcBody d s)

/-- MIN (spec/44_exact_converter.md R184). -/
def execMin (s : State) : Host.Outcome State Fault Refusal := runSingle s (minBody s)

/-- RFR (spec/44_exact_converter.md R185). -/
def execRfr (s : State) : Host.Outcome State Fault Refusal := runSingle s (rfrBody s)

/-- RRE (spec/44_exact_converter.md R186). -/
def execRre (s : State) : Host.Outcome State Fault Refusal := runSingle s (rreBody s)

/-- DGT (spec/44_exact_converter.md R188). -/
def execDgt (s : State) : Host.Outcome State Fault Refusal := runSingle s (dgtBody s)

/-- After CVT's LDC sub-step: a bypassed kind ends the command (spec/44_exact_converter.md R191, R192). -/
def afterLdc (t : State) : State := if t.phase = .bypass then t.finish else t.advance .sMin

/-- After CVT's DGT sub-step: repeat while `PHASE = DIGITS` (spec/44_exact_converter.md R191). -/
def afterDgt (t : State) : State := if t.phase = .digits then t.advance .sDgt else t.finish

/-- CVT (spec/44_exact_converter.md R191): the sub-step that `USTEP` names, exactly the body of the named
command's rule with its error checks. -/
def execCvt (f : Fmt) (s : State) : Host.Outcome State Fault Refusal :=
  match s.ustep with
  | .sLdc => settle s afterLdc (withFormat f fun d => ldcBody d s)
  | .sMin => settle s (State.advance · .sRfr) (minBody s)
  | .sRfr => settle s (State.advance · .sRre) (rfrBody s)
  | .sRre => settle s (State.advance · .sDgt) (rreBody s)
  | .sDgt => settle s afterDgt (dgtBody s)

end Sys2Proof.Machine
end

