-- ==== Sys2Proof/Machine/System.lean ====
section
/-! DEFINITION. The system command CLE (spec/45_system.md). -/

namespace Sys2Proof.Machine

/-- CLE (spec/45_system.md R220). -/
def execCle (s : State) : Host.Outcome State Fault Refusal := runSingle s (.done s.clearErr)

end Sys2Proof.Machine
end

