-- ==== Sys2Proof/Machine/Dispatch.lean ====
section
/-! DEFINITION. One step of the command in progress, one arm per command (spec/30_encoding.md R112 step 7). -/

namespace Sys2Proof.Machine

def exec (i : Instr) (s : State) : Host.Outcome State Fault Refusal :=
  match i with
  | .xtr f o => Sys2Proof.Machine.execXtr f o s
  | .spl f => Sys2Proof.Machine.execSpl f s
  | .knd f => Sys2Proof.Machine.execKnd f s
  | .cls f => Sys2Proof.Machine.execCls f s
  | .cln f o => Sys2Proof.Machine.execCln f o s
  | .ldc f => Sys2Proof.Machine.execLdc f s
  | .min => Sys2Proof.Machine.execMin s
  | .rfr => Sys2Proof.Machine.execRfr s
  | .rre => Sys2Proof.Machine.execRre s
  | .dgt => Sys2Proof.Machine.execDgt s
  | .cvt f => Sys2Proof.Machine.execCvt f s
  | .cle => Sys2Proof.Machine.execCle s

end Sys2Proof.Machine
end

