-- ==== Sys2Proof/WellFormed.lean ====
section
/-! DEFINITION. Which commands are well formed: those whose format code names a supported format. -/

namespace Sys2Proof

/-- Codes 0, 1, 2 name a supported format, code 3 does not (spec/30_encoding.md R103, R108). -/
def Fmt.supported : Fmt → Bool
  | .single => true
  | .double => true
  | .extended => true
  | .reserved => false

/-- A command is well formed when the format it carries, if it carries one (spec/30_encoding.md R105), is
supported (R108). -/
def Instr.wellFormed : Instr → Bool
  | .xtr f _ => f.supported
  | .spl f => f.supported
  | .knd f => f.supported
  | .cls f => f.supported
  | .cln f _ => f.supported
  | .ldc f => f.supported
  | .min => true
  | .rfr => true
  | .rre => true
  | .dgt => true
  | .cvt f => f.supported
  | .cle => true

end Sys2Proof
end

