-- ==== Sys2Proof/Decode.lean ====
section
/-! DEFINITION. The decoder, total on all 2^32 words (spec/30_encoding.md R109), and after it the encoder. -/

namespace Sys2Proof

/-- Why a word is illegal (spec/30_encoding.md R107, one name per cause). -/
inductive IllegalWord where
  /-- Bits [31:7] are not all 0. -/
  | highBits
  /-- `OP` is 0x0, 0xC, 0xD or 0xE. -/
  | opcode
  /-- Bits [5:4] are not 0 and the command takes no `FMT`. -/
  | formatNotTaken
  /-- Bit [6] is not 0 and the command takes no `BE`. -/
  | orderNotTaken
  deriving DecidableEq, Repr

/-- The three classes of words (spec/30_encoding.md R109). -/
inductive Decoded where
  /-- Illegal (R107): raises `Err(CMD)`. -/
  | illegal (why : IllegalWord)
  /-- A command that carries the reserved format code (R108): raises `Err(FORMAT)`. -/
  | badFormat (i : Instr)
  /-- One of the twelve commands with its fields. -/
  | command (i : Instr)
  deriving DecidableEq, Repr

/-- `FMT` codes (spec/30_encoding.md R103). -/
def fmtOfCode (c : BitVec 2) : Fmt :=
  match c.toNat with
  | 0 => .single
  | 1 => .double
  | 2 => .extended
  | _ => .reserved

/-- `BE` codes (spec/30_encoding.md R104). -/
def orderOfCode (c : BitVec 1) : ByteOrder :=
  match c.toNat with
  | 0 => .little
  | _ => .big

/-- Puts a read command into its class: bad format or command (spec/30_encoding.md R108, R109). -/
def classifyInstr (i : Instr) : Decoded :=
  if i.wellFormed then .command i else .badFormat i

/-- A command that takes `FMT` only: `BE` must be 0 (spec/30_encoding.md R105, R107). -/
def formatOnly (be : BitVec 1) (i : Instr) : Decoded :=
  if be = 0 then classifyInstr i else .illegal .orderNotTaken

/-- A command that takes neither field: `FMT` and `BE` must be 0 (spec/30_encoding.md R105, R107). -/
def noFields (fmt : BitVec 2) (be : BitVec 1) (i : Instr) : Decoded :=
  if fmt = 0 then (if be = 0 then classifyInstr i else .illegal .orderNotTaken) else .illegal .formatNotTaken

/-- The operation codes (spec/30_encoding.md R102), with the fields each command takes (R105). -/
def decodeFields (op : BitVec 4) (fmt : BitVec 2) (be : BitVec 1) : Decoded :=
  match op.toNat with
  | 0x1 => classifyInstr (.xtr (fmtOfCode fmt) (orderOfCode be))
  | 0x2 => formatOnly be (.spl (fmtOfCode fmt))
  | 0x3 => formatOnly be (.knd (fmtOfCode fmt))
  | 0x4 => formatOnly be (.cls (fmtOfCode fmt))
  | 0x5 => classifyInstr (.cln (fmtOfCode fmt) (orderOfCode be))
  | 0x6 => formatOnly be (.ldc (fmtOfCode fmt))
  | 0x7 => noFields fmt be .min
  | 0x8 => noFields fmt be .rfr
  | 0x9 => noFields fmt be .rre
  | 0xA => noFields fmt be .dgt
  | 0xB => formatOnly be (.cvt (fmtOfCode fmt))
  | 0xF => noFields fmt be .cle
  | _ => .illegal .opcode

/-- The decoder of command words (spec/30_encoding.md R101: `OP` [3:0], `FMT` [5:4], `BE` [6], [31:7] zero). -/
def decode (w : Word) : Decoded :=
  if w.extractLsb' 7 25 = 0 then
    decodeFields (w.extractLsb' 0 4) (w.extractLsb' 4 2) (w.extractLsb' 6 1)
  else .illegal .highBits

/-- The command a word names, legal format or not; none for an illegal word. -/
def Decoded.instr? : Decoded → Option Instr
  | .illegal _ => none
  | .badFormat i => some i
  | .command i => some i

/-- What the decoder reads from an instruction of `nbits` bits with value `w`. A command is one 32-bit number
handed over at the port (spec/30_encoding.md R100, spec/20_memory.md R80): there is no byte order to undo. -/
def decodeTableWord (_nbits w : Nat) : Option Instr :=
  (decode (BitVec.ofNat 32 w)).instr?

/-- `FMT` codes, written (spec/30_encoding.md R103). -/
def Fmt.code : Fmt → BitVec 2
  | .single => 0
  | .double => 1
  | .extended => 2
  | .reserved => 3

/-- `BE` codes, written (spec/30_encoding.md R104). -/
def ByteOrder.code : ByteOrder → BitVec 1
  | .little => 0
  | .big => 1

/-- A command word from its fields (spec/30_encoding.md R101). -/
def commandWord (op : BitVec 4) (fmt : BitVec 2) (be : BitVec 1) : Word :=
  (0 : BitVec 25) ++ be ++ fmt ++ op

/-- The encoder (spec/30_encoding.md R102, R105). -/
def encode : Instr → Word
  | .xtr f o => commandWord 0x1 f.code o.code
  | .spl f => commandWord 0x2 f.code 0
  | .knd f => commandWord 0x3 f.code 0
  | .cls f => commandWord 0x4 f.code 0
  | .cln f o => commandWord 0x5 f.code o.code
  | .ldc f => commandWord 0x6 f.code 0
  | .min => commandWord 0x7 0 0
  | .rfr => commandWord 0x8 0 0
  | .rre => commandWord 0x9 0 0
  | .dgt => commandWord 0xA 0 0
  | .cvt f => commandWord 0xB f.code 0
  | .cle => commandWord 0xF 0 0

end Sys2Proof
end

