-- ==== Sys2Proof/Machine/Port.lean ====
section
/-! DEFINITION. The register port: the register map, reads, writes, the bus errors, and what a write to CMD does
(spec/20_memory.md, spec/10_state.md R24, spec/30_encoding.md R112). -/

namespace Sys2Proof.Machine

/-- The registers of the map (spec/10_state.md R24). -/
inductive Reg where
  | opb0
  | opb1
  | opb2
  | opb3
  | cmd
  | status
  | bits0
  | bits1
  | bits2
  | manf0
  | manf1
  | sexp
  | kind
  | cmant0
  | cmant1
  | binexp
  | cneg
  | decexp
  | adj
  | p5n
  | lshn
  | digit
  | ndig
  deriving DecidableEq, Repr

/-- Access rights (spec/10_state.md R24). -/
inductive Access where
  /-- The host may read and write. -/
  | readWrite
  /-- The host may read. -/
  | readOnly
  /-- The host may write. -/
  | writeOnly
  deriving DecidableEq, Repr

/-- The causes of a `BusError` (spec/20_memory.md R75, in the order they are checked). -/
inductive BusErrorCause where
  | misaligned
  | unmapped
  | accessRight
  | busy
  | faulted
  deriving DecidableEq, Repr

/-- The registers in the order of their offsets (spec/10_state.md R24). -/
def registerMap : List Reg :=
  [.opb0, .opb1, .opb2, .opb3, .cmd, .status, .bits0, .bits1, .bits2, .manf0, .manf1, .sexp, .kind, .cmant0, .cmant1,
   .binexp, .cneg, .decexp, .adj, .p5n, .lshn, .digit, .ndig]

/-- Alignment and offset decode (spec/20_memory.md R72, R73): word `k` of the space is at offset `4k`. -/
def locate (addr : Offset) : Except BusErrorCause Reg :=
  if addr.toNat % 4 ≠ 0 then .error .misaligned
  else match registerMap[addr.toNat / 4]? with
    | none => .error .unmapped
    | some r => .ok r

/-- Access rights (spec/10_state.md R24, spec/20_memory.md R74). -/
def Reg.access : Reg → Access
  | .opb0 => .readWrite
  | .opb1 => .readWrite
  | .opb2 => .readWrite
  | .opb3 => .readWrite
  | .cmd => .writeOnly
  | .status => .readOnly
  | .bits0 => .readWrite
  | .bits1 => .readWrite
  | .bits2 => .readWrite
  | .manf0 => .readWrite
  | .manf1 => .readWrite
  | .sexp => .readWrite
  | .kind => .readOnly
  | .cmant0 => .readWrite
  | .cmant1 => .readWrite
  | .binexp => .readWrite
  | .cneg => .readWrite
  | .decexp => .readOnly
  | .adj => .readOnly
  | .p5n => .readOnly
  | .lshn => .readOnly
  | .digit => .readOnly
  | .ndig => .readOnly

/-- 32-bit word `k` of a wide register, least significant word first, zeros above (spec/20_memory.md R80). -/
def wordOf {n : Nat} (x : BitVec n) (k : Nat) : Word := x.extractLsb' (32 * k) 32

/-- A wide register with its word `k` replaced; bits beyond its width are ignored (spec/20_memory.md R80,
spec/10_state.md R45). -/
def replaceWord {n : Nat} (x : BitVec n) (k : Nat) (v : Word) : BitVec n :=
  (x &&& ~~~((BitVec.allOnes 32).setWidth n <<< (32 * k))) ||| (v.setWidth n <<< (32 * k))

/-- What a read of a register returns; bits that are not named read as 0 (spec/10_state.md R45), BINEXP and DECEXP
read sign-extended (R31, R33). CMD holds nothing (R39). -/
def readReg (s : State) : Reg → Word
  | .opb0 => wordOf s.opb 0
  | .opb1 => wordOf s.opb 1
  | .opb2 => wordOf s.opb 2
  | .opb3 => wordOf s.opb 3
  | .cmd => 0
  | .status => statusWord s
  | .bits0 => wordOf s.bits 0
  | .bits1 => wordOf s.bits 1
  | .bits2 => wordOf s.bits 2
  | .manf0 => wordOf s.manf 0
  | .manf1 => wordOf s.manf 1
  | .sexp => s.sexp.setWidth 32
  | .kind => s.kind.code.setWidth 32
  | .cmant0 => wordOf s.cmant 0
  | .cmant1 => wordOf s.cmant 1
  | .binexp => s.binexp.signExtend 32
  | .cneg => (BitVec.ofBool s.cneg).setWidth 32
  | .decexp => s.decexp.signExtend 32
  | .adj => s.adj.setWidth 32
  | .p5n => s.p5n.setWidth 32
  | .lshn => s.lshn.setWidth 32
  | .digit => s.digit.setWidth 32
  | .ndig => s.ndig.setWidth 32

/-- The port's answer to a transaction (spec/20_memory.md R70). -/
def State.respond (s : State) (r : Response) : State := { s with rsp := some r }

/-- `BusError`: the answer, and nothing else (spec/20_memory.md R75). -/
def State.busError (s : State) : State := s.respond ⟨0, true⟩

/-- `CMANT` and `PHASE` as a host write leaves them (spec/10_state.md R46). -/
def State.hostCmant (s : State) (m : BitVec 64) : State := { s with cmant := m, phase := .loaded }

/-- `BINEXP` and `PHASE` as a host write leaves them (spec/10_state.md R46). -/
def State.hostBinexp (s : State) (b : BitVec 16) : State := { s with binexp := b, phase := .loaded }

/-- `OPB` as a host write leaves it. -/
def State.hostOpb (s : State) (v : BitVec 128) : State := { s with opb := v }

/-- `BITS` as a host write leaves it. -/
def State.hostBits (s : State) (v : BitVec 80) : State := { s with bits := v }

/-- `MANF` as a host write leaves it. -/
def State.hostManf (s : State) (v : BitVec 64) : State := { s with manf := v }

/-- `SEXP` as a host write leaves it. -/
def State.hostSexp (s : State) (v : BitVec 16) : State := { s with sexp := v }

/-- `CNEG` as a host write leaves it. -/
def State.hostCneg (s : State) (v : Bool) : State := { s with cneg := v }

/-- A write to a RW data register (spec/10_state.md R24, R45, R46). CMD and the RO registers store nothing here. -/
def writeReg (s : State) (v : Word) : Reg → State
  | .opb0 => s.hostOpb (replaceWord s.opb 0 v)
  | .opb1 => s.hostOpb (replaceWord s.opb 1 v)
  | .opb2 => s.hostOpb (replaceWord s.opb 2 v)
  | .opb3 => s.hostOpb (replaceWord s.opb 3 v)
  | .cmd => s
  | .status => s
  | .bits0 => s.hostBits (replaceWord s.bits 0 v)
  | .bits1 => s.hostBits (replaceWord s.bits 1 v)
  | .bits2 => s.hostBits (replaceWord s.bits 2 v)
  | .manf0 => s.hostManf (replaceWord s.manf 0 v)
  | .manf1 => s.hostManf (replaceWord s.manf 1 v)
  | .sexp => s.hostSexp (v.setWidth 16)
  | .kind => s
  | .cmant0 => s.hostCmant (replaceWord s.cmant 0 v)
  | .cmant1 => s.hostCmant (replaceWord s.cmant 1 v)
  | .binexp => s.hostBinexp (v.setWidth 16)
  | .cneg => s.hostCneg (v.getLsbD 0)
  | .decexp => s
  | .adj => s
  | .p5n => s
  | .lshn => s
  | .digit => s
  | .ndig => s

/-- The register a read reaches, or why it is a `BusError` (spec/20_memory.md R75, R77). -/
def readTarget (addr : Offset) : Except BusErrorCause Reg :=
  match locate addr with
  | .error c => .error c
  | .ok r => if r.access = .writeOnly then .error .accessRight else .ok r

/-- The one command word taken in the faulted state, CLE (spec/60_exceptions.md R267). -/
def cleWord : Word := 0x0000000F

/-- The register a write reaches, or why it is a `BusError`: the first cause in the order of
spec/20_memory.md R75. -/
def writeTarget (s : State) (addr : Offset) (v : Word) : Except BusErrorCause Reg :=
  match locate addr with
  | .error c => .error c
  | .ok r =>
    if r.access = .readOnly then .error .accessRight
    else if s.busy then .error .busy
    else if r = .cmd ∧ s.err ≠ .noError ∧ v ≠ cleWord then .error .faulted
    else .ok r

/-- The word is taken: `LASTOP` (spec/30_encoding.md R112 step 3, spec/10_state.md R51). -/
def State.take (s : State) (w : Word) : State := { s with lastop := w.extractLsb' 0 4 }

/-- The command is accepted: `CW`, `BUSY` (spec/30_encoding.md R112 step 6), and `USTEP <- S_LDC` for a CVT
(spec/44_exact_converter.md R191). -/
def State.accept (s : State) (w : Word) : State :=
  { s with
    cw := w.setWidth 7
    busy := true
    ustep := if w.extractLsb' 0 4 = 0xB#4 then .sLdc else s.ustep }

/-- Steps 3 to 6 for a word written to CMD (spec/30_encoding.md R112). -/
def takeCommand (s : State) (w : Word) : State :=
  match decode w with
  | .illegal _ => (s.take w).raise .cmd
  | .badFormat _ => (s.take w).raise .format
  | .command _ => (s.take w).accept w

/-- What an accepted write does (spec/20_memory.md R79, spec/30_encoding.md R112). -/
def performWrite (s : State) (v : Word) (r : Reg) : State :=
  if r = .cmd then takeCommand s v else writeReg s v r

/-- A host read, `MemRead(addr, 4)` (spec/20_memory.md R71, R75, R78). -/
def portRead (s : State) (addr : Offset) : State :=
  match readTarget addr with
  | .error _ => s.busError
  | .ok r => s.respond ⟨readReg s r, false⟩

/-- A host write, `MemWrite(addr, 4, v)` (spec/20_memory.md R71, R75). -/
def portWrite (s : State) (addr : Offset) (v : Word) : State :=
  match writeTarget s addr v with
  | .error _ => s.busError
  | .ok r => (performWrite s v r).respond ⟨0, false⟩

/-- `rst = 1` at a clock edge (spec/70_reset_and_hazards.md R291, R292): the reset state, with what the sink has
taken kept; the agents outside the EFU go on as they were. -/
def State.resetEvent (s : State) : State :=
  { State.reset with
    dstream := s.dstream, agenda := s.agenda, engineReady := s.engineReady, sinkReady := s.sinkReady }

end Sys2Proof.Machine
end

