-- ==== Sys2Proof/Machine/Control.lean ====
section
/-! DEFINITION. Who moves next: the EFU's own step, and the events of the other agents. -/

namespace Sys2Proof.Machine

/-- The command in progress, read from `CW` (spec/10_state.md R53). -/
def State.command? (s : State) : Option Instr := (decode (s.cw.setWidth 32)).instr?

/-- One step of the EFU's own: the next step of the command in progress if `BUSY = 1`, and nothing if `BUSY = 0`
(spec/20_memory.md R71, spec/60_exceptions.md R279). -/
def efuStep (s : State) : Host.Outcome State Fault Refusal :=
  if s.busy then
    match s.command? with
    | some i => exec i s
    | none => .fault .noCommandLatched
  else .next s

/-- The rest of the agenda. -/
def State.withAgenda (s : State) (es : List Event) : State := { s with agenda := es }

/-- The engine's readiness (spec/20_memory.md R89). -/
def State.setEngine (s : State) (b : Bool) : State := { s with engineReady := b }

/-- The sink's readiness (spec/20_memory.md R89). -/
def State.setSink (s : State) (b : Bool) : State := { s with sinkReady := b }

/-- A host write as one event: what the port does with it, and for an accepted CLE its one step within the same event
(spec/30_encoding.md R112, last paragraph), so that `BUSY = 0` whenever `ERR != 0` (spec/60_exceptions.md R267, log 4). -/
def writeEvent (s : State) (a : Offset) (v : Word) : Host.Outcome State Fault Refusal :=
  if s.busy = false ∧ a = 0x10 ∧ v = cleWord then exec .cle (portWrite s a v) else .next (portWrite s a v)

/-- One event, in a state whose agenda no longer lists it. -/
def perform (s : State) : Event → Host.Outcome State Fault Refusal
  | .read a => .next (portRead s a)
  | .write a v => writeEvent s a v
  | .reset => .next s.resetEvent
  | .efu => efuStep s
  | .engine b => .next (s.setEngine b)
  | .sink b => .next (s.setSink b)

/-- The machine's step: the first event of the agenda; with nothing left there, the EFU has its turn
(spec/20_memory.md R71, log 2). -/
def nextStep (s : State) : Host.Outcome State Fault Refusal :=
  match s.agenda with
  | [] => efuStep s
  | e :: es => perform (s.withAgenda es) e

/-- `s` with the command word `w` handed over, so that the very next step runs it (log 3). A legal command but CLE
is latched in `CW` as an accepted CMD write leaves it, with no error recorded, and the EFU's turn comes next. CLE,
whose step is part of its CMD write (log 4), waits at the port as the next event of an EFU that is not busy. Any
other word cannot be latched: it waits at the port of an EFU that is neither busy nor faulted. -/
def State.presentCommand (s : State) (w : Word) : State :=
  match decode w with
  | .command .cle => s.finish.withAgenda (.write 0x10 w :: s.agenda)
  | .command _ => ((s.clearErr.take w).accept w).withAgenda (.efu :: s.agenda)
  | .badFormat _ => (s.clearErr.finish).withAgenda (.write 0x10 w :: s.agenda)
  | .illegal _ => (s.clearErr.finish).withAgenda (.write 0x10 w :: s.agenda)

end Sys2Proof.Machine
end

