-- ==== Sys2Proof/Machine/Step.lean ====
section
/-! DEFINITION. The step of the machine, and how a command is placed for the next step. -/

namespace Sys2Proof.Machine

/-- One step: the next event of the agenda, or the EFU's own step (spec/20_memory.md R71). -/
def step (s : State) : Host.Outcome State Fault Refusal := nextStep s

/-- `s` with the command whose bits are `w` where the next step runs it (log 3). -/
def State.withFetchWord (s : State) (_nbits w : Nat) : State := s.presentCommand (BitVec.ofNat 32 w)

end Sys2Proof.Machine
end

