-- ==== Sys2Proof/Config.lean ====
section
/-! DEFINITION. What an implementation of the EFU fixes, and the open parameters of the host formatter. -/

namespace Sys2Proof.Config

/-- Size of the register space in bytes (spec/00_scope.md R9). -/
def registerSpaceBytes : Nat := 256

/-- Size of the operand buffer in bytes (spec/00_scope.md R9). -/
def operandBufferBytes : Nat := 16

/-- The least accumulator width of a hardware engine (spec/43_bigint_engine.md R171).
The model's accumulator is unbounded, so no definition of the machine reads this number. -/
def accumulatorWidthAtLeast : Nat := 76149

/-- The open parameters of the host formatter (spec/92_eei_decisions.md, "Open parameters"): the spec gives
no value for any of them, so the formatter takes them as an argument. -/
structure FormatterParams where
  /-- `GROUP_STOP`: the `groupSizes` entry that stops grouping (spec/46_host_formatter.md R233). -/
  groupStop : Nat
  /-- The text before the payload of a QuietNaN; XFS's example shows `QNaN` (spec/46_host_formatter.md R240). -/
  quietTag : List Char
  /-- The text before the payload of a SignalingNaN; XFS's example shows `SNaN` (spec/46_host_formatter.md R240). -/
  signalingTag : List Char
  /-- `NAN_RADIX`: how the payload is written (spec/46_host_formatter.md R240). -/
  nanPayload : BitVec 64 → List Char
  /-- `INTERNAL_NOSIGN`: `Internal` alignment with no sign, given the padding and the text
  (spec/46_host_formatter.md R237). -/
  internalNoSign : List Char → List Char → List Char

end Sys2Proof.Config
end

