-- ==== Sys2Proof/Machine/Formatter.lean ====
section
/-! DEFINITION. The host formatter: software outside the block (spec/00_scope.md R5), as pure functions over what
the host reads from the EFU (spec/46_host_formatter.md). No step of the machine calls them. -/

namespace Sys2Proof.Machine

open Sys2Proof.Config (FormatterParams)

/-- Alignment (spec/46_host_formatter.md R231). -/
inductive Alignment where
  | left
  | right
  | internal
  deriving DecidableEq, Repr

/-- `FormattingConfig` (spec/46_host_formatter.md R231). -/
structure FormattingConfig where
  showSign : Bool
  showDecimalPointAlways : Bool
  groupSizes : List Nat
  groupSeparator : Char
  decimalPoint : Char
  minWidth : Nat
  fillChar : Char
  alignment : Alignment
  deriving DecidableEq, Repr

/-- The character of a decimal digit. -/
def digitChar (d : BitVec 4) : Char := Char.ofNat (48 + d.toNat)

/-- The integer digits, least significant first (spec/46_host_formatter.md R232). -/
def integerDigits (bs : List Beat) : List Char := (bs.filter fun b => !b.frac).map fun b => digitChar b.digit

/-- The fraction digits, least significant first (spec/46_host_formatter.md R232). -/
def fractionDigits (bs : List Beat) : List Char := (bs.filter fun b => b.frac).map fun b => digitChar b.digit

/-- Grouping, over digits least significant first; `used` digits of the current group are done
(spec/46_host_formatter.md R233). The last size repeats; the sentinel `stop`, a size 0 and an empty list leave
the rest as one group (log 15). -/
def groupDigits (stop : Nat) (sep : Char) : List Nat → Nat → List Char → List Char
  | _, _, [] => []
  | [], _, d :: ds => d :: ds
  | g :: gs, used, d :: ds =>
    if g = stop ∨ g = 0 then d :: ds
    else if used < g then d :: groupDigits stop sep (g :: gs) (used + 1) ds
    else
      let rest := if gs = [] then [g] else gs
      sep :: d :: groupDigits stop sep rest 1 ds

/-- The sign text (spec/46_host_formatter.md R236). -/
def signText (cfg : FormattingConfig) (negative : Bool) : List Char :=
  if negative then ['-'] else if cfg.showSign then ['+'] else []

/-- Sign, padding and body put together (spec/46_host_formatter.md R235, R237). R237 puts `Internal` padding between the
sign and the first digit; for a signed Infinity, which has no digit, the spec is silent, and the padding stands between
the sign and the word (DESIGN CHOICE, log 15). -/
def padText (p : FormatterParams) (cfg : FormattingConfig) (sign body : List Char) : List Char :=
  let pad := List.replicate (cfg.minWidth - (sign.length + body.length)) cfg.fillChar
  if pad = [] then sign ++ body
  else match cfg.alignment with
    | .right => pad ++ sign ++ body
    | .left => sign ++ body ++ pad
    | .internal => if sign = [] then p.internalNoSign pad body else sign ++ pad ++ body

/-- The decimal point and the fraction part (spec/46_host_formatter.md R234). -/
def fractionText (cfg : FormattingConfig) (fraction : List Char) : List Char :=
  if fraction = [] ∧ cfg.showDecimalPointAlways = false then [] else cfg.decimalPoint :: fraction.reverse

/-- The text of a finite non-zero value from one conversion's beats and its sign (spec/46_host_formatter.md R232 to
R237). -/
def formatFinite (p : FormatterParams) (cfg : FormattingConfig) (negative : Bool) (bs : List Beat) : List Char :=
  padText p cfg (signText cfg negative)
    ((groupDigits p.groupStop cfg.groupSeparator cfg.groupSizes 0 (integerDigits bs)).reverse
      ++ fractionText cfg (fractionDigits bs))

/-- The text of Zero without its sign (spec/46_host_formatter.md R238). -/
def zeroText (cfg : FormattingConfig) : List Char :=
  if cfg.showDecimalPointAlways then ['0', cfg.decimalPoint, '0'] else ['0']

/-- A NaN text: a tag and the payload (spec/46_host_formatter.md R240). -/
def nanText (p : FormatterParams) (tag : List Char) (m : BitVec 64) : List Char :=
  tag ++ ['('] ++ p.nanPayload m ++ [')']

/-- `renderExact`, host part: the text for a kind, with sign, mantissa field and beats
(spec/46_host_formatter.md R241). -/
def formatValue (p : FormatterParams) (cfg : FormattingConfig) (k : Kind) (negative : Bool) (m : BitVec 64)
    (bs : List Beat) : List Char :=
  match k with
  | .zero => padText p cfg (signText cfg negative) (zeroText cfg)
  | .denormal => formatFinite p cfg negative bs
  | .normal => formatFinite p cfg negative bs
  | .infinity => padText p cfg (signText cfg negative) "Infinity".toList
  | .quietNaN => nanText p p.quietTag m
  | .signalingNaN => nanText p p.signalingTag m
  | .indefinite => padText p cfg [] "Indefinite".toList

/-- The beats of the latest conversion: those after the last earlier beat with `last = 1`
(spec/20_memory.md R88, spec/46_host_formatter.md R230). The framing is by `last` alone, which the spec leaves to the
host (spec/70_reset_and_hazards.md R301): the beats of a conversion abandoned before FINISHED are joined to those of
the next one, and an unfinished latest conversion gives the beats it has sent (DESIGN CHOICE, log 20). -/
def latestConversion (stream : List Beat) : List Beat :=
  match stream.reverse with
  | [] => []
  | b :: bs => (b :: bs.takeWhile fun c => !c.last).reverse

/-- The sign the formatter takes: `CNEG` for Normal and Denormal, `SEXP.NEG` for the other kinds
(spec/46_host_formatter.md R230). -/
def formatterSign (s : State) : Bool := if s.kind.converts then s.cneg else s.neg

/-- The formatter on what the host has from the EFU: `KIND`, the sign, `MANF`, and the beats of the latest conversion
(spec/46_host_formatter.md R230). Meaningful after a CVT that ended without an error (R246), when these registers belong
together. In any other state the text is the model's choice (DESIGN CHOICE, log 20): after a CVT that raised PRECOND,
whose value has no rendering (spec/44_exact_converter.md R198), it is made from the beats the stream has, an earlier
conversion's or none. -/
def formatState (p : FormatterParams) (cfg : FormattingConfig) (s : State) : List Char :=
  formatValue p cfg s.kind (formatterSign s) s.manf (latestConversion s.dstream)

end Sys2Proof.Machine
end

