-- ==== Sys2Proof/Safety.lean ====
section
/-! DEFINITION. What holds along every run, what the converter's registers mean, and the terms the statements use. -/

namespace Sys2Proof.Machine

/-- The value of a finite encoding, from the formats' own formulas (spec/44_exact_converter.md R182, second
paragraph): `(1 + m/2^M) x 2^(e-B)` and `(m/2^M) x 2^(1-B)` with an implied one, `(m/2^63) x 2^(max(e,1)-B)`
without. The sign takes no part (R194). -/
def encodedValue (d : Descriptor) (e : BitVec 15) (m : BitVec 64) : ℚ :=
  if d.impliedOne then
    if e = 0 then (m.toNat : ℚ) / 2 ^ d.mantissaBits * 2 ^ (1 - (d.exponentBias : ℤ))
    else (1 + (m.toNat : ℚ) / 2 ^ d.mantissaBits) * 2 ^ ((e.toNat : ℤ) - d.exponentBias)
  else (m.toNat : ℚ) / 2 ^ 63 * 2 ^ (max (e.toNat : ℤ) 1 - d.exponentBias)

/-- `CMANT x 2^b`: the value while PHASE is LOADED or MINIMIZED (spec/44_exact_converter.md R180). -/
def State.inputValue (s : State) : ℚ := (s.cmant.toNat : ℚ) * 2 ^ s.binExp

/-- `ACC x 2^b x 10^d`: the value from DEFRACTED to REDUCED, less the digits produced later
(spec/44_exact_converter.md R180). -/
def State.accValue (s : State) : ℚ := (s.acc : ℚ) * 2 ^ s.binExp * 10 ^ s.decExp

/-- The digits of some beats as a number, least significant digit first (spec/44_exact_converter.md R195). -/
def digitsNumber (bs : List Beat) : Nat := bs.foldr (fun b n => b.digit.toNat + 10 * n) 0

/-- The number of fraction digits among some beats (spec/44_exact_converter.md R189). -/
def fractionCount (bs : List Beat) : Nat := (bs.filter fun b => b.frac).length

/-- The number of decimal digits of `a` (spec/44_exact_converter.md R190). -/
def len10 (a : Nat) : Nat := (Nat.digits 10 a).length

/-- A room for the digits of the accumulator that no conversion exceeds: `ACC` before digit `NDIG` is below
`10^(P5N + 10944 - NDIG)` (it covers the figures of spec/43_bigint_engine.md R171 and
spec/44_exact_converter.md R199: `2^64 x 2^32767 < 10^10944` and `2^64 x 5^n < 10^(n + 10944)`). -/
def digitRoom : Nat := 10944

/-- What the converter's registers satisfy in each phase (spec/44_exact_converter.md R180, R187, R190, the ranges of
R199, and `DIGIT` of spec/10_state.md R37). -/
def State.phaseHolds (s : State) : Prop :=
  match s.phase with
  | .idle => True
  | .loaded => True
  | .bypass => True
  | .minimized => s.cmant ≠ 0 ∧ (0 ≤ s.binExp ∨ s.cmant.toNat % 2 = 1)
  | .defracted =>
    0 ≤ s.binExp ∧ s.decExp = -(s.p5n.toNat : ℤ) ∧ (s.binExp = 0 ∨ s.p5n = 0) ∧ s.acc ≠ 0
      ∧ s.acc * 2 ^ s.binExp.toNat < 10 ^ (s.p5n.toNat + digitRoom) ∧ (s.p5n ≠ 0 → s.acc % 10 = 5)
      ∧ s.ndig = 0 ∧ s.digit = 0
  | .reduced =>
    s.binExp = 0 ∧ s.decExp = -(s.p5n.toNat : ℤ) ∧ s.acc ≠ 0 ∧ s.acc < 10 ^ (s.p5n.toNat + digitRoom)
      ∧ (s.p5n ≠ 0 → s.acc % 10 = 5) ∧ s.ndig = 0 ∧ s.digit = 0 ∧ (s.p5n = 0 ∨ s.lshn = 0)
  | .digits =>
    s.binExp = 0 ∧ s.decExp = (s.ndig.toNat : ℤ) - s.p5n.toNat ∧ s.ndig ≠ 0 ∧ (s.decExp ≤ 0 ∨ s.acc ≠ 0)
      ∧ s.acc < 10 ^ (s.p5n.toNat + digitRoom - s.ndig.toNat) ∧ s.p5n.toNat ≤ 32768
      ∧ s.digit.getLsbD 6 = true ∧ s.digit.getLsbD 5 = false ∧ (s.p5n = 0 ∨ s.lshn = 0)
  | .finished =>
    s.binExp = 0 ∧ s.decExp = (s.ndig.toNat : ℤ) - s.p5n.toNat ∧ 1 ≤ s.decExp ∧ s.acc = 0
      ∧ s.digit.getLsbD 6 = true ∧ s.digit.getLsbD 5 = true ∧ (s.p5n = 0 ∨ s.lshn = 0)

/-- The converter's invariant: what its registers mean in each phase, the zero flag agrees with the accumulator
(spec/10_state.md R44), and only decimal digits leave the block (spec/20_memory.md R88). -/
def State.converterInv (s : State) : Prop :=
  s.phaseHolds ∧ s.accnz = decide (s.acc ≠ 0) ∧ ∀ b ∈ s.dstream, b.digit.toNat < 10

/-- `CW` holds the command `i`, and `i` is well formed (spec/10_state.md R53). -/
def State.runs (s : State) (i : Instr) : Prop := i.wellFormed = true ∧ s.cw = (encode i).setWidth 7

/-- The phase in which CVT's next sub-step stands (spec/10_state.md R53: `USTEP` is a function of `PHASE` once the
first sub-step is done). -/
def State.ustepAgrees (s : State) : Prop :=
  match s.ustep with
  | .sLdc => True
  | .sMin => s.phase = .loaded
  | .sRfr => s.phase = .minimized
  | .sRre => s.phase = .defracted
  | .sDgt => s.phase = .reduced ∨ s.phase = .digits

/-- The control invariant: `CW` holds one of the twelve commands while one is in progress, `BUSY = 0` while `ERR != 0`
(spec/60_exceptions.md R267), and a CVT's sub-step fits its phase. -/
def State.controlInv (s : State) : Prop :=
  s.busy = true → (∃ i, s.runs i) ∧ s.err = .noError ∧ ((∃ f, s.runs (.cvt f)) → s.ustepAgrees)

/-- Two states that agree in everything but the record of which command ran (spec/44_exact_converter.md R196). -/
def State.sameButCommand (s t : State) : Prop := s = { t with lastop := s.lastop, cw := s.cw, ustep := s.ustep }

/-- What a read of an offset returns, none where it is a `BusError` (spec/20_memory.md R75, R77). -/
def State.wordAt (s : State) (a : Offset) : Option Word :=
  match readTarget a with
  | .error _ => none
  | .ok r => some (readReg s r)

/-- The command a CVT's sub-step stands for (spec/44_exact_converter.md R191). -/
def subCommand (f : Fmt) : UStep → Instr
  | .sLdc => .ldc f
  | .sMin => .min
  | .sRfr => .rfr
  | .sRre => .rre
  | .sDgt => .dgt

/-- The command whose body the EFU's next step runs (spec/44_exact_converter.md R191). -/
def State.currentCommand? (s : State) : Option Instr :=
  match s.command? with
  | some (.cvt f) => some (subCommand f s.ustep)
  | other => other

/-- A request that may be in flight: the one the current command's step waits for. MULP5 never is, since RFR's two
requests are one step (log 6). -/
def State.mayAwait (s : State) : EngineRequest → Prop
  | .load v => s.currentCommand? = some .rfr ∧ s.phase = .minimized ∧ v = s.cmant
  | .mulp5 _ => False
  | .shl n => s.currentCommand? = some .rre ∧ s.phase = .defracted ∧ 0 < s.binExp ∧ n = shiftAmount s
  | .divmod10 => s.currentCommand? = some .dgt ∧ (s.phase = .reduced ∨ s.phase = .digits) ∧ s.beat = none

/-- What may be in flight (spec/10_state.md R53, spec/20_memory.md R87, R89): nothing while `BUSY = 0`; a request of
the current step; a beat with the values of the current digit. -/
def State.inFlightInv (s : State) : Prop :=
  (∀ r, s.engReq = some r → s.busy = true ∧ s.mayAwait r) ∧
  (∀ b, s.beat = some b → s.busy = true ∧ s.currentCommand? = some .dgt
    ∧ (s.phase = .reduced ∨ s.phase = .digits) ∧ b = nextBeat s ∧ s.engReq = none)

/-- The EFU is at the body of the step command `i`: the command itself, or a CVT at the sub-step `u` that stands for it
(spec/44_exact_converter.md R191). -/
def State.runsStep (s : State) (i : Instr) (u : UStep) : Prop := s.runs i ∨ ((∃ f, s.runs (.cvt f)) ∧ s.ustep = u)

/-- The events of a command issued and given one EFU step. -/
def issue (i : Instr) : List Event := [.write 0x10 (encode i), .efu]

end Sys2Proof.Machine
end

