-- ==== Sys2Proof/Certificates/Slice0/Obligations.lean ====
section
/-! DEFINITION. The statements for the provers: what the spec says of the EFU's commands, port, errors, invariants
and conversions. -/

open Sys2Proof Sys2Proof.Machine

/-! ## Encoding -/

/-- All 32 words of the table in spec/30_encoding.md section 6 decode to the commands it gives them. -/
def Obligations.ListedWordsDecodeToTheirCommands : Prop :=
  decode 0x01 = .command (.xtr .single .little) ∧ decode 0x11 = .command (.xtr .double .little) ∧
  decode 0x21 = .command (.xtr .extended .little) ∧ decode 0x41 = .command (.xtr .single .big) ∧
  decode 0x51 = .command (.xtr .double .big) ∧ decode 0x61 = .command (.xtr .extended .big) ∧
  decode 0x02 = .command (.spl .single) ∧ decode 0x12 = .command (.spl .double) ∧
  decode 0x22 = .command (.spl .extended) ∧ decode 0x03 = .command (.knd .single) ∧
  decode 0x13 = .command (.knd .double) ∧ decode 0x23 = .command (.knd .extended) ∧
  decode 0x04 = .command (.cls .single) ∧ decode 0x14 = .command (.cls .double) ∧
  decode 0x24 = .command (.cls .extended) ∧ decode 0x05 = .command (.cln .single .little) ∧
  decode 0x15 = .command (.cln .double .little) ∧ decode 0x25 = .command (.cln .extended .little) ∧
  decode 0x45 = .command (.cln .single .big) ∧ decode 0x55 = .command (.cln .double .big) ∧
  decode 0x65 = .command (.cln .extended .big) ∧ decode 0x06 = .command (.ldc .single) ∧
  decode 0x16 = .command (.ldc .double) ∧ decode 0x26 = .command (.ldc .extended) ∧
  decode 0x0B = .command (.cvt .single) ∧ decode 0x1B = .command (.cvt .double) ∧
  decode 0x2B = .command (.cvt .extended) ∧ decode 0x07 = .command .min ∧ decode 0x08 = .command .rfr ∧
  decode 0x09 = .command .rre ∧ decode 0x0A = .command .dgt ∧ decode 0x0F = .command .cle

/-- The legal command words are the 32 of the table in spec/30_encoding.md section 6, and no other. -/
def Obligations.LegalWordsAreTheListedThirtyTwo : Prop :=
  ∀ w : Word, (∃ i, decode w = .command i) ↔
    w ∈ [0x01, 0x11, 0x21, 0x41, 0x51, 0x61, 0x02, 0x12, 0x22, 0x03, 0x13, 0x23, 0x04, 0x14, 0x24, 0x05, 0x15, 0x25,
      0x45, 0x55, 0x65, 0x06, 0x16, 0x26, 0x0B, 0x1B, 0x2B, 0x07, 0x08, 0x09, 0x0A, 0x0F]

/-- Over all 2^32 words and all commands, decoding and encoding agree in both directions. -/
def Obligations.DecodeAndEncodeAgree : Prop :=
  ∀ (w : Word) (i : Instr), decode w = .command i ↔ i.wellFormed = true ∧ w = encode i

/-- Every word is exactly one of illegal, bad format and command with its fields, tested in that order
(spec/30_encoding.md R109, with the causes of R107 and R108 written out). -/
def Obligations.EveryWordHasExactlyOneClass : Prop :=
  ∀ w : Word,
    let op := w.extractLsb' 0 4
    let fmt := w.extractLsb' 4 2
    let be := w.extractLsb' 6 1
    let takesFmt := op ∈ [0x1#4, 0x2#4, 0x3#4, 0x4#4, 0x5#4, 0x6#4, 0xB#4]
    let takesBe := op ∈ [0x1#4, 0x5#4]
    let illegal := w.extractLsb' 7 25 ≠ 0 ∨ op ∈ [0x0#4, 0xC#4, 0xD#4, 0xE#4] ∨ (¬ takesFmt ∧ fmt ≠ 0)
      ∨ (¬ takesBe ∧ be ≠ 0)
    ((∃ r, decode w = .illegal r) ↔ illegal) ∧
    ((∃ i, decode w = .badFormat i) ↔ ¬ illegal ∧ takesFmt ∧ fmt = 3) ∧
    ((∃ i, decode w = .command i ∧ i.wellFormed = true ∧ encode i = w) ↔ ¬ illegal ∧ ¬ (takesFmt ∧ fmt = 3)) ∧
    ((∃ i, decode w = .command i) ↔ ¬ illegal ∧ ¬ (takesFmt ∧ fmt = 3))

/-! ## Steps and the hand-over of a command -/

/-- The machine's step is the first event of the agenda; with none left, and at an EFU's turn, the EFU's own step,
which is nothing while `BUSY = 0`. An accepted CMD write of CLE is one event with CLE's step, which is `exec` of CLE in
the state the port leaves (log 4). The agenda is the model's choice (log 2). -/
def Obligations.StepPerformsTheNextEvent : Prop :=
  ∀ (s : State) (es : List Event),
    (∀ a, step { s with agenda := .read a :: es } = .next (portRead { s with agenda := es } a)) ∧
    (∀ a v, s.busy = true ∨ a ≠ 0x10 ∨ v ≠ 0x0000000F →
      step { s with agenda := .write a v :: es } = .next (portWrite { s with agenda := es } a v)) ∧
    (s.busy = false → step { s with agenda := .write 0x10 0x0000000F :: es } =
      exec .cle (portWrite { s with agenda := es } 0x10 0x0000000F)) ∧
    step { s with agenda := .reset :: es } = .next (State.resetEvent { s with agenda := es }) ∧
    (∀ b, step { s with agenda := .engine b :: es } = .next { s with agenda := es, engineReady := b }) ∧
    (∀ b, step { s with agenda := .sink b :: es } = .next { s with agenda := es, sinkReady := b }) ∧
    (s.busy = false → step { s with agenda := .efu :: es } = .next { s with agenda := es }) ∧
    (s.busy = false → step { s with agenda := [] } = .next { s with agenda := [] })

/-- When `BUSY = 1` and `CW` holds the word of a well-formed command, the EFU's own step is `exec` of that command. -/
def Obligations.StepRunsTheLatchedCommand : Prop :=
  ∀ (s : State) (i : Instr) (es : List Event), i.wellFormed = true → s.busy = true → s.cw = (encode i).setWidth 7 →
    step { s with agenda := [] } = exec i { s with agenda := [] } ∧
    step { s with agenda := .efu :: es } = exec i { s with agenda := es }

/-- The command that `withFetchWord` places is the one the very next step runs, from any state: any command but CLE from
`CW` with no error recorded, CLE as its CMD write. The placing is the model's choice (log 3, log 4). -/
def Obligations.PlacedCommandRunsNext : Prop :=
  ∀ (s : State) (n : Nat),
    (∀ i : Instr, i.wellFormed = true → i ≠ .cle →
      step (s.withFetchWord n (encode i).toNat) =
        exec i { s with
          err := .noError, lastop := (encode i).extractLsb' 0 4, cw := (encode i).setWidth 7, busy := true,
          ustep := if (encode i).extractLsb' 0 4 = 0xB#4 then .sLdc else s.ustep }) ∧
    step (s.withFetchWord n (encode .cle).toNat) =
      exec .cle { s with
        lastop := (encode .cle).extractLsb' 0 4, cw := (encode .cle).setWidth 7, busy := true,
        rsp := some ⟨0, false⟩ }

/-- What the port does with a write of a word to CMD, in the order of spec/30_encoding.md R112, steps 1 to 6. For CLE
steps 7 and 8 follow within the same event (log 4), see `FaultedStateAdmitsOnlyCle`. -/
def Obligations.CommandWriteIsHandledInOrder : Prop :=
  ∀ (s : State) (w : Word),
    (s.busy = true → portWrite s 0x10 w = { s with rsp := some ⟨0, true⟩ }) ∧
    (s.busy = false → s.err ≠ .noError → w ≠ 0x0000000F → portWrite s 0x10 w = { s with rsp := some ⟨0, true⟩ }) ∧
    (s.busy = false → (s.err = .noError ∨ w = 0x0000000F) →
      (∀ r, decode w = .illegal r →
        portWrite s 0x10 w = { s with lastop := w.extractLsb' 0 4, err := .cmd, rsp := some ⟨0, false⟩ }) ∧
      (∀ i, decode w = .badFormat i →
        portWrite s 0x10 w = { s with lastop := w.extractLsb' 0 4, err := .format, rsp := some ⟨0, false⟩ }) ∧
      (∀ i, decode w = .command i →
        portWrite s 0x10 w = { s with
          lastop := w.extractLsb' 0 4, cw := w.setWidth 7, busy := true,
          ustep := if w.extractLsb' 0 4 = 0xB#4 then .sLdc else s.ustep, rsp := some ⟨0, false⟩ }))

/-! ## Extractor and classifier -/

/-- XTR completes, writes the record byte by byte in the named order with zeros above it, and changes nothing else
(spec/41_bit_extractor.md R120). -/
def Obligations.XtrWritesTheRecord : Prop :=
  ∀ (f : Fmt) (n : Nat) (o : ByteOrder) (s : State), (f, n) ∈ [(Fmt.single, 4), (.double, 8), (.extended, 10)] →
    ∃ r : BitVec 80, exec (.xtr f o) s = .next { s with bits := r, busy := false } ∧
      (∀ j, j < n → r.extractLsb' (8 * j) 8
        = s.opb.extractLsb' (8 * (match o with | .little => j | .big => n - 1 - j)) 8) ∧
      r.toNat < 2 ^ (8 * n)

/-- XTR of an image in little-endian order and of the reversed image in big-endian order write the same record
(spec/41_bit_extractor.md R122). -/
def Obligations.XtrIsIndependentOfByteOrder : Prop :=
  ∀ (f : Fmt) (n : Nat) (s s' : State), (f, n) ∈ [(Fmt.single, 4), (.double, 8), (.extended, 10)] →
    (∀ j, j < n → opbByte s'.opb (n - 1 - j) = opbByte s.opb j) →
    ∃ r : BitVec 80, exec (.xtr f .little) s = .next { s with bits := r, busy := false } ∧
      exec (.xtr f .big) s' = .next { s' with bits := r, busy := false }

/-- SPL completes, the three fields put together again give the low `totalBits` bits of the record, each field keeps
its width, and nothing else changes (spec/42_classifier.md R130, R131). -/
def Obligations.SplSplitsTheRecord : Prop :=
  ∀ (f : Fmt) (T M E : Nat) (s : State),
    (f, T, M, E) ∈ [(Fmt.single, 32, 23, 8), (.double, 64, 52, 11), (.extended, 80, 64, 15)] →
    ∃ t, exec (.spl f) s = .next t ∧ t = { s with sexp := t.sexp, manf := t.manf, busy := false } ∧
      s.bits.toNat % 2 ^ T
        = (if t.sexp.getLsbD 15 then 1 else 0) * 2 ^ (T - 1) + t.sexp.toNat % 2 ^ 15 * 2 ^ M + t.manf.toNat ∧
      t.sexp.toNat % 2 ^ 15 < 2 ^ E ∧ t.manf.toNat < 2 ^ M

/-- KND completes on fields within their widths and writes the kind of the decision tables: the four rows for single
and double, the ranges of field values for extended (spec/42_classifier.md R133 to R135). Nothing else changes. -/
def Obligations.KndDecidesByTheTables : Prop :=
  (∀ (f : Fmt) (M E : Nat) (s : State), (f, M, E) ∈ [(Fmt.single, 23, 8), (.double, 52, 11)] →
    s.manf.toNat < 2 ^ M → s.expf.toNat < 2 ^ E →
    exec (.knd f) s = .next { s with
      busy := false,
      kind :=
        if s.expf = 0 then (if s.manf = 0 then .zero else .denormal)
        else if s.expf.toNat = 2 ^ E - 1 then
          (if s.manf = 0 then .infinity else if 2 ^ (M - 1) ≤ s.manf.toNat then .quietNaN else .signalingNaN)
        else .normal }) ∧
  (∀ s : State, exec (.knd .extended) s = .next { s with
    busy := false,
    kind :=
      if s.expf = 0 then (if s.manf = 0 then .zero else .denormal)
      else if s.expf.toNat = 0x7FFF then
        (if s.manf.toNat < 0x8000000000000000 then .signalingNaN
        else if s.manf.toNat = 0x8000000000000000 then .infinity
        else if s.manf.toNat < 0xC000000000000000 then .signalingNaN
        else if s.manf.toNat = 0xC000000000000000 then .indefinite
        else .quietNaN)
      else if s.manf.toNat < 0x8000000000000000 then .denormal
      else .normal })

/-- CLS completes for every format and record and leaves what SPL and then KND leave; the range check cannot fail in
between (spec/42_classifier.md R137). -/
def Obligations.ClsIsSplThenKnd : Prop :=
  ∀ (f : Fmt) (s : State), f ≠ .reserved →
    ∃ u t, exec (.spl f) s = .next u ∧ exec (.knd f) u = .next t ∧ exec (.cls f) s = .next t ∧
      t = { s with sexp := t.sexp, manf := t.manf, kind := t.kind, busy := false }

/-- CLN completes for every format, order and image and leaves what XTR, SPL and KND leave one after the other
(spec/42_classifier.md R138). -/
def Obligations.ClnIsXtrThenSplThenKnd : Prop :=
  ∀ (f : Fmt) (o : ByteOrder) (s : State), f ≠ .reserved →
    ∃ u v t, exec (.xtr f o) s = .next u ∧ exec (.spl f) u = .next v ∧ exec (.knd f) v = .next t ∧
      exec (.cln f o) s = .next t ∧
      t = { s with bits := t.bits, sexp := t.sexp, manf := t.manf, kind := t.kind, busy := false }

/-- A classification command changes only its own registers as the host sees them: every offset but those of STATUS
and of the registers named in the command's rule reads as before (spec/70_reset_and_hazards.md R303). -/
def Obligations.ClassificationCommandsLeaveOtherOffsets : Prop :=
  ∀ (f : Fmt) (o : ByteOrder) (s t : State) (a : Offset),
    (exec (.xtr f o) s = .next t → a ∉ [0x14, 0x18, 0x1C, 0x20] → t.wordAt a = s.wordAt a) ∧
    (exec (.spl f) s = .next t → a ∉ [0x14, 0x24, 0x28, 0x2C] → t.wordAt a = s.wordAt a) ∧
    (exec (.knd f) s = .next t → a ∉ [0x14, 0x30] → t.wordAt a = s.wordAt a) ∧
    (exec (.cls f) s = .next t → a ∉ [0x14, 0x24, 0x28, 0x2C, 0x30] → t.wordAt a = s.wordAt a) ∧
    (exec (.cln f o) s = .next t → a ∉ [0x14, 0x18, 0x1C, 0x20, 0x24, 0x28, 0x2C, 0x30] → t.wordAt a = s.wordAt a)

/-- The kinds that KND can write: all seven under the extended format, all but Indefinite under single and double
(spec/42_classifier.md R136). -/
def Obligations.IndefiniteArisesForExtendedOnly : Prop :=
  ∀ (f : Fmt) (k : Kind), f ≠ .reserved →
    ((∃ s t, exec (.knd f) s = .next t ∧ t.err = .noError ∧ t.kind = k) ↔ (k = .indefinite → f = .extended))

/-! ## Errors -/

/-- KND, LDC and CVT's first sub-step on fields that exceed their widths raise `Err(RANGE)` and write nothing else;
for the extended format no field can (spec/42_classifier.md R139). -/
def Obligations.RangeCheckComesFirst : Prop :=
  ∀ (f : Fmt) (M E : Nat) (s : State),
    (f, M, E) ∈ [(Fmt.single, 23, 8), (.double, 52, 11), (.extended, 64, 15)] →
    (2 ^ M ≤ s.manf.toNat ∨ 2 ^ E ≤ s.expf.toNat) →
    f ≠ .extended ∧
    exec (.knd f) s = .next { s with err := .range, busy := false } ∧
    exec (.ldc f) s = .next { s with err := .range, busy := false } ∧
    (s.ustep = .sLdc → exec (.cvt f) s = .next { s with err := .range, busy := false })

/-- A command that carries the reserved format code raises `Err(FORMAT)` and writes nothing else
(spec/60_exceptions.md R262). That `exec` answers so too for a word the port never accepts is the model's choice
(log 12). -/
def Obligations.ReservedFormatRaisesFormat : Prop :=
  ∀ (o : ByteOrder) (s : State),
    exec (.xtr .reserved o) s = .next { s with err := .format, busy := false } ∧
    exec (.spl .reserved) s = .next { s with err := .format, busy := false } ∧
    exec (.knd .reserved) s = .next { s with err := .format, busy := false } ∧
    exec (.cls .reserved) s = .next { s with err := .format, busy := false } ∧
    exec (.cln .reserved o) s = .next { s with err := .format, busy := false } ∧
    exec (.ldc .reserved) s = .next { s with err := .format, busy := false } ∧
    (s.ustep = .sLdc → exec (.cvt .reserved) s = .next { s with err := .format, busy := false })

/-- A step command in a phase not listed for it raises `Err(SEQ)` and changes nothing else, whatever the mantissa is
(spec/44_exact_converter.md R193, spec/60_exceptions.md R265, R269). -/
def Obligations.WrongPhaseRaisesSeq : Prop :=
  ∀ s : State,
    (s.phase ≠ .loaded → exec .min s = .next { s with err := .seq, busy := false }) ∧
    (s.phase ≠ .minimized → exec .rfr s = .next { s with err := .seq, busy := false }) ∧
    (s.phase ≠ .defracted → exec .rre s = .next { s with err := .seq, busy := false }) ∧
    (s.phase ≠ .reduced → s.phase ≠ .digits → exec .dgt s = .next { s with err := .seq, busy := false })

/-- MIN, and CVT's MIN sub-step, on a zero mantissa in the right phase raise `Err(PRECOND)` and write nothing else
(spec/60_exceptions.md R264, spec/44_exact_converter.md R198). -/
def Obligations.ZeroMantissaRaisesPrecond : Prop :=
  ∀ (f : Fmt) (s : State), s.phase = .loaded → s.cmant = 0 →
    exec .min s = .next { s with err := .precond, busy := false } ∧
    (s.ustep = .sMin → exec (.cvt f) s = .next { s with err := .precond, busy := false })

/-- The step that raises an error, of any command, writes `ERR` and `BUSY` and nothing else
(spec/60_exceptions.md R266). -/
def Obligations.RaisingStepWritesNothingElse : Prop :=
  ∀ (i : Instr) (s t : State), exec i s = .next t → t.err ≠ .noError → t.err ≠ s.err →
    t = { s with err := t.err, busy := false }

/-- A CVT in progress, from any state of the control invariant, raises no error but RANGE in its first sub-step and
PRECOND in its second; in particular never SEQ (spec/44_exact_converter.md R191, spec/60_exceptions.md R265, R269). -/
def Obligations.CvtRaisesRangeOrPrecondOnly : Prop :=
  ∀ (f : Fmt) (s t : State), s.controlInv → s.busy = true → s.runs (.cvt f) → exec (.cvt f) s = .next t →
    t.err = .noError ∨ (t.err = .range ∧ s.ustep = .sLdc) ∨ (t.err = .precond ∧ s.ustep = .sMin)

/-- No command reads `KIND` or `LASTOP`: with other values there, every command does the same, and leaves in `KIND`
what it writes there, or what stood there (spec/10_state.md R29, R51). -/
def Obligations.NoCommandReadsKindOrLastop : Prop :=
  ∀ (i : Instr) (s t : State) (k : Kind) (x : BitVec 4), exec i s = .next t →
    ∃ t' : State, exec i { s with kind := k, lastop := x } = .next t' ∧
      t' = { t with kind := t'.kind, lastop := x } ∧ (t'.kind = t.kind ∨ (t'.kind = k ∧ t.kind = s.kind))

/-- CLE completes in every state and writes `ERR` alone (spec/45_system.md R220). -/
def Obligations.CleClearsTheErrorAlone : Prop :=
  ∀ s : State, exec .cle s = .next { s with err := .noError, busy := false }

/-- In the faulted state with `BUSY = 0`: a read is answered as in the same state without the error (STATUS apart, which
shows the error) and keeps the code; a write to another offset does what it does without the error and keeps the code;
every word but CLE written to CMD is refused with no change; CLE is taken, and its event leaves `ERR = 0` and `BUSY = 0`
(spec/60_exceptions.md R267, R268). That CLE completes in the event of its write is the model's choice (log 4). -/
def Obligations.FaultedStateAdmitsOnlyCle : Prop :=
  ∀ (s : State) (a : Offset) (v : Word) (es : List Event), s.busy = false → s.err ≠ .noError →
    (portRead s a).err = s.err ∧
    (a ≠ 0x14 → (portRead s a).rsp = (portRead { s with err := .noError } a).rsp) ∧
    (a ≠ 0x10 → (portWrite s a v).err = s.err ∧
      { portWrite s a v with err := .noError } = portWrite { s with err := .noError } a v) ∧
    (v ≠ 0x0000000F → portWrite s 0x10 v = { s with rsp := some ⟨0, true⟩ }) ∧
    step { s with agenda := .write 0x10 0x0000000F :: es } = .next { s with
      agenda := es, lastop := 0xF, cw := 0x0F, err := .noError, rsp := some ⟨0, false⟩ } ∧
    (∀ e t, step { s with agenda := e :: es } = .next t → t.busy = false ∧
      (t.err = s.err ∨ e = .write 0x10 0x0000000F ∨ e = .reset))

/-! ## Converter -/

/-- LDC completes on Normal and Denormal fields and loads the mantissa and exponent of the table
(spec/44_exact_converter.md R181, R182, in numbers), without loss in its registers; nothing else changes. -/
def Obligations.LdcLoadsTheConverterInput : Prop :=
  (∀ (f : Fmt) (M E c : Nat) (s : State), (f, M, E, c) ∈ [(Fmt.single, 23, 8, 150), (.double, 52, 11, 1075)] →
    s.manf.toNat < 2 ^ M →
    (0 < s.expf.toNat → s.expf.toNat < 2 ^ E - 1 →
      ∃ t, exec (.ldc f) s = .next t ∧
        t = { s with
              kind := .normal, cmant := t.cmant, binexp := t.binexp, cneg := s.sexp.getLsbD 15,
              phase := .loaded, busy := false } ∧
        t.cmant.toNat = 2 ^ M + s.manf.toNat ∧ t.binExp = (s.expf.toNat : ℤ) - c) ∧
    (s.expf = 0 → s.manf ≠ 0 →
      ∃ t, exec (.ldc f) s = .next t ∧
        t = { s with
              kind := .denormal, cmant := s.manf, binexp := t.binexp, cneg := s.sexp.getLsbD 15,
              phase := .loaded, busy := false } ∧
        t.binExp = 1 - (c : ℤ))) ∧
  (∀ s : State, s.expf.toNat ≠ 0x7FFF → (s.expf ≠ 0 ∨ s.manf ≠ 0) →
    ∃ t, exec (.ldc .extended) s = .next t ∧
      t = { s with
            kind := if s.expf ≠ 0 ∧ 2 ^ 63 ≤ s.manf.toNat then .normal else .denormal,
            cmant := s.manf, binexp := t.binexp, cneg := s.sexp.getLsbD 15, phase := .loaded, busy := false } ∧
      t.binExp = max (s.expf.toNat : ℤ) 1 - 16446)

/-- LDC, and CVT's first sub-step, on the other five kinds record BYPASS and the kind, end the command, and change
nothing else: no beat is sent, NDIG and DIGIT stay, and ERR stays as it was, 0 in a CVT in progress
(spec/44_exact_converter.md R181, R183, R192). -/
def Obligations.OtherKindsBypassTheConverter : Prop :=
  ∀ (f : Fmt) (M E : Nat) (s u : State),
    (f, M, E) ∈ [(Fmt.single, 23, 8), (.double, 52, 11), (.extended, 64, 15)] →
    s.manf.toNat < 2 ^ M → s.expf.toNat < 2 ^ E → exec (.knd f) s = .next u →
    u.kind ∈ [Kind.zero, .infinity, .quietNaN, .signalingNaN, .indefinite] →
    exec (.ldc f) s = .next { s with kind := u.kind, phase := .bypass, busy := false } ∧
    (s.ustep = .sLdc →
      exec (.cvt f) s = .next { s with kind := u.kind, phase := .bypass, busy := false })

/-- MIN completes in LOADED on a non-zero mantissa: the shift amount is the largest that leaves `BINEXP` at most 0 and
removes only zero bits, none when `BINEXP` is not negative; nothing else changes (spec/44_exact_converter.md R184). -/
def Obligations.MinRemovesTheCommonTwos : Prop :=
  ∀ s : State, s.phase = .loaded → s.cmant ≠ 0 →
    ∃ t, exec .min s = .next t ∧
      t = { s with adj := t.adj, cmant := t.cmant, binexp := t.binexp, phase := .minimized, busy := false } ∧
      s.cmant.toNat = t.cmant.toNat * 2 ^ t.adj.toNat ∧ t.binExp = s.binExp + t.adj.toNat ∧
      (0 ≤ s.binExp → t.adj = 0) ∧
      (s.binExp < 0 → t.binExp ≤ 0 ∧ (t.binExp = 0 ∨ t.cmant.toNat % 2 = 1))

/-- RFR completes in MINIMIZED when the engine answers: it multiplies by the power of five when `BINEXP` is negative,
else it only loads the accumulator; nothing else changes (spec/44_exact_converter.md R185). -/
def Obligations.RfrRemovesTheFraction : Prop :=
  ∀ s : State, s.phase = .minimized → s.engineReady = true →
    (s.binExp < 0 →
      exec .rfr s = .next { s with
        acc := s.cmant.toNat * 5 ^ (-s.binExp).toNat, accnz := decide (s.cmant ≠ 0),
        p5n := BitVec.ofNat 16 (-s.binExp).toNat, decexp := s.binexp, binexp := 0, digit := 0, ndig := 0,
        phase := .defracted, engReq := none, busy := false }) ∧
    (0 ≤ s.binExp →
      exec .rfr s = .next { s with
        acc := s.cmant.toNat, accnz := decide (s.cmant ≠ 0), p5n := 0, decexp := 0, digit := 0, ndig := 0,
        phase := .defracted, engReq := none, busy := false })

/-- RRE completes in DEFRACTED: with `BINEXP > 0` and an engine that answers it shifts left and clears `BINEXP`, with
`BINEXP <= 0` it asks the engine nothing; nothing else changes (spec/44_exact_converter.md R186). -/
def Obligations.RreReducesTheExponent : Prop :=
  ∀ s : State, s.phase = .defracted →
    (0 < s.binExp → s.engineReady = true →
      exec .rre s = .next { s with
        acc := s.acc * 2 ^ s.binExp.toNat, accnz := decide (s.acc ≠ 0), lshn := BitVec.ofNat 15 s.binExp.toNat,
        binexp := 0, phase := .reduced, engReq := none, busy := false }) ∧
    (s.binExp ≤ 0 → exec .rre s = .next { s with lshn := 0, phase := .reduced, busy := false })

/-- DGT completes in REDUCED and DIGITS when engine and sink answer, or the engine has answered and a beat is held: one
decimal digit leaves the accumulator, the stream gets it with its two flags, DIGIT shows the same, and the phase says
whether more follow (spec/44_exact_converter.md R188); nothing else changes. -/
def Obligations.DgtDrawsOneDigit : Prop :=
  ∀ s : State, (s.phase = .reduced ∨ s.phase = .digits) → (s.engineReady = true ∨ s.beat ≠ none) →
    s.sinkReady = true →
    ∃ b : Beat,
      exec .dgt s = .next { s with
        acc := s.acc / 10, accnz := decide (s.acc / 10 ≠ 0), decexp := s.decexp + 1, ndig := s.ndig + 1,
        digit := BitVec.ofNat 7
          (64 + (if b.last then 32 else 0) + (if b.frac then 16 else 0) + s.acc % 10),
        dstream := s.dstream ++ [b], phase := if b.last then .finished else .digits,
        engReq := none, beat := none, busy := false } ∧
      b.digit.toNat = s.acc % 10 ∧ b.frac = decide (s.decExp < 0) ∧
      b.last = decide (¬ (s.decExp + 1 ≤ 0 ∨ s.acc / 10 ≠ 0))

/-- Each phase and each digit step preserves the value being converted, exactly (spec/44_exact_converter.md R180). The
bound on `DECEXP` is the register's top value, which R199 shows no conversion reaches. -/
def Obligations.EveryConverterStepKeepsTheValue : Prop :=
  ∀ s t : State,
    (exec .min s = .next t → s.phase = .loaded → s.cmant ≠ 0 → t.inputValue = s.inputValue) ∧
    (exec .rfr s = .next t → s.phase = .minimized → s.engineReady = true → t.accValue = s.inputValue) ∧
    (exec .rre s = .next t → s.phase = .defracted → (s.engineReady = true ∨ s.binExp ≤ 0) →
      t.accValue = s.accValue) ∧
    (exec .dgt s = .next t → (s.phase = .reduced ∨ s.phase = .digits) → (s.engineReady = true ∨ s.beat ≠ none) →
      s.sinkReady = true →
      s.binExp = 0 → s.decExp < 32767 →
      ∃ b : Beat, t.dstream = s.dstream ++ [b] ∧
        s.accValue = t.accValue + (b.digit.toNat : ℚ) * 10 ^ s.decExp)

/-- Each sub-step of CVT completes exactly where the named command does, and leaves its result with the command going
on at the next sub-step, or ended where R191 ends it (spec/44_exact_converter.md R191). -/
def Obligations.CvtSubStepsAreTheCommands : Prop :=
  ∀ (f : Fmt) (d : Descriptor) (s : State), descOf f = some d →
    (s.ustep = .sLdc → fieldsInRange d s.expf s.manf = true →
      ∃ t, exec (.ldc f) s = .next t ∧
        ((t.phase = .bypass ∧ exec (.cvt f) s = .next t) ∨
         (t.phase = .loaded ∧ exec (.cvt f) s = .next { t with busy := s.busy, ustep := .sMin }))) ∧
    (s.ustep = .sMin → s.phase = .loaded → s.cmant ≠ 0 →
      ∃ t, exec .min s = .next t ∧ exec (.cvt f) s = .next { t with busy := s.busy, ustep := .sRfr }) ∧
    (s.ustep = .sRfr → s.phase = .minimized → s.engineReady = true →
      ∃ t, exec .rfr s = .next t ∧ exec (.cvt f) s = .next { t with busy := s.busy, ustep := .sRre }) ∧
    (s.ustep = .sRre → s.phase = .defracted → (s.engineReady = true ∨ s.binExp ≤ 0) →
      ∃ t, exec .rre s = .next t ∧ exec (.cvt f) s = .next { t with busy := s.busy, ustep := .sDgt }) ∧
    (s.ustep = .sDgt → (s.phase = .reduced ∨ s.phase = .digits) → (s.engineReady = true ∨ s.beat ≠ none) →
      s.sinkReady = true →
      ∃ t, exec .dgt s = .next t ∧
        ((t.phase = .finished ∧ exec (.cvt f) s = .next t) ∨
         (t.phase = .digits ∧ exec (.cvt f) s = .next { t with busy := s.busy })))

/-- From REDUCED, under the converter's invariant, exactly `N = max(P5N + 1, len10(ACC))` digit steps of a CVT in
progress reach FINISHED; the beats they send are the decimal digits of the accumulator, the first `P5N` of them
fraction digits, only the last marked last (spec/44_exact_converter.md R189, R190). -/
def Obligations.DigitStepsDrawTheAccumulator : Prop :=
  ∀ (f : Fmt) (s : State), s.converterInv → s.phase = .reduced → s.busy = true → s.runs (.cvt f) → s.ustep = .sDgt →
    s.agenda = [] → s.engineReady = true → s.sinkReady = true →
    ∃ (t : State) (bs : List Beat),
      core.run (max (s.p5n.toNat + 1) (len10 s.acc)) s = .next t ∧
      t.phase = .finished ∧ t.busy = false ∧ t.err = s.err ∧ t.acc = 0 ∧
      t.dstream = s.dstream ++ bs ∧ bs.length = max (s.p5n.toNat + 1) (len10 s.acc) ∧ t.ndig.toNat = bs.length ∧
      digitsNumber bs = s.acc ∧
      (∀ k b, bs[k]? = some b → b.digit.toNat < 10 ∧ (b.frac = true ↔ k < s.p5n.toNat)
        ∧ (b.last = true ↔ k + 1 = bs.length))

/-- The conversion is exact: a CVT begun on a Normal or Denormal encoding with a non-zero mantissa runs to its end in
`4 + N` EFU steps, when engine and sink answer, and the beats it sends are the digits of exactly the value the
encoding stands for. With `P5N` the number of fraction digits and the accumulator at REDUCED the number the digits
form, `N` is R190's `max(P5N + 1, len10(A))` (spec/44_exact_converter.md R182, R190, R191, R195;
spec/70_reset_and_hazards.md R304). -/
def Obligations.CvtConvertsTheExactValue : Prop :=
  ∀ (f : Fmt) (d : Descriptor) (s : State), descOf f = some d → s.busy = true → s.runs (.cvt f) → s.ustep = .sLdc →
    s.agenda = [] → s.engineReady = true → s.sinkReady = true → fieldsInRange d s.expf s.manf = true →
    (kindOf d s.expf s.manf).converts = true → (d.impliedOne = true ∨ s.manf ≠ 0) →
    ∃ (t : State) (bs : List Beat),
      core.run (4 + bs.length) s = .next t ∧ t.phase = .finished ∧ t.busy = false ∧ t.err = s.err ∧
      t.kind = kindOf d s.expf s.manf ∧ t.cneg = s.neg ∧
      t.dstream = s.dstream ++ bs ∧ fractionCount bs = t.p5n.toNat ∧
      bs.length = max (t.p5n.toNat + 1) (len10 (digitsNumber bs)) ∧
      (digitsNumber bs : ℚ) * 10 ^ (-(fractionCount bs : ℤ)) = encodedValue d s.expf s.manf ∧
      (∀ k b, bs[k]? = some b → b.digit.toNat < 10 ∧ (b.last = true ↔ k + 1 = bs.length))

/-- On equal starting state, a CVT issued and run to its end and the command sequence LDC, MIN, RFR, RRE, DGT repeated,
each issued and run, leave the same state but for the record of which command ran: where a conversion takes place, where
the kind is bypassed after LDC, and where LDC raises RANGE or MIN raises PRECOND (spec/44_exact_converter.md R196). -/
def Obligations.CvtEqualsTheCommandSequence : Prop :=
  ∀ (f : Fmt) (d : Descriptor) (s : State), descOf f = some d → s.busy = false → s.err = .noError →
    s.engReq = none → s.beat = none → s.engineReady = true → s.sinkReady = true →
    let cvt (k : Nat) : State := { s with agenda := .write 0x10 (encode (.cvt f)) :: List.replicate k .efu }
    let k := kindOf d s.expf s.manf
    (fieldsInRange d s.expf s.manf = false →
      ∃ t u, core.run 2 (cvt 1) = .next t ∧ core.run 2 { s with agenda := issue (.ldc f) } = .next u ∧
        t.sameButCommand u ∧ t.err = .range ∧ t.busy = false) ∧
    (fieldsInRange d s.expf s.manf = true → k.converts = false →
      ∃ t u, core.run 2 (cvt 1) = .next t ∧ core.run 2 { s with agenda := issue (.ldc f) } = .next u ∧
        t.sameButCommand u ∧ t.phase = .bypass ∧ t.busy = false) ∧
    (fieldsInRange d s.expf s.manf = true → k.converts = true → d.impliedOne = false → s.manf = 0 →
      ∃ t u, core.run 3 (cvt 2) = .next t ∧ core.run 4 { s with agenda := issue (.ldc f) ++ issue .min } = .next u ∧
        t.sameButCommand u ∧ t.err = .precond ∧ t.busy = false) ∧
    (fieldsInRange d s.expf s.manf = true → k.converts = true → (d.impliedOne = true ∨ s.manf ≠ 0) →
      ∃ (n : Nat) (t u : State),
        core.run (5 + n) (cvt (4 + n)) = .next t ∧
        core.run (8 + 2 * n) { s with
          agenda := issue (.ldc f) ++ issue .min ++ issue .rfr ++ issue .rre
            ++ (List.replicate n (issue .dgt)).flatten } = .next u ∧
        t.sameButCommand u ∧ t.phase = .finished ∧ t.busy = false)

/-- While the engine does not answer, a step that needs it waits, the command's own or a CVT's sub-step: the request
stands on the port, `BUSY` stays 1, and no number of steps changes anything more, so the hang is a run of the model
(spec/20_memory.md R89). That RFR shows LOAD, never MULP5, is the model's choice (log 6). -/
def Obligations.SilentEngineHangsTheCommand : Prop :=
  ∀ (s : State) (r : EngineRequest), s.busy = true → s.agenda = [] → s.engineReady = false → s.beat = none →
    ((s.runsStep .rfr .sRfr ∧ s.phase = .minimized ∧ r = .load s.cmant) ∨
      (s.runsStep .rre .sRre ∧ s.phase = .defracted ∧ 0 < s.binExp ∧ r = .shl (shiftAmount s)) ∨
      (s.runsStep .dgt .sDgt ∧ (s.phase = .reduced ∨ s.phase = .digits) ∧ r = .divmod10)) →
    ∀ n, core.run (n + 1) s = .next { s with engReq := some r }

/-- While the sink does not take the beat, a digit step waits, DGT's own or a CVT's sub-step, once the engine has answered
or a beat is held: after any number of steps the same beat is held, all three of its values those of the current digit,
and nothing else has changed, so `BUSY` stays 1 (spec/20_memory.md R88, R89). -/
def Obligations.SilentSinkHoldsTheBeat : Prop :=
  ∀ s : State, s.busy = true → s.agenda = [] → (s.engineReady = true ∨ s.beat ≠ none) → s.sinkReady = false →
    s.runsStep .dgt .sDgt → (s.phase = .reduced ∨ s.phase = .digits) →
    ∃ b : Beat, b.digit.toNat = s.acc % 10 ∧ b.frac = decide (s.decExp < 0) ∧
      b.last = decide (¬ (s.decExp + 1 ≤ 0 ∨ s.acc / 10 ≠ 0)) ∧
      ∀ n, core.run (n + 1) s = .next { s with engReq := none, beat := some b }

/-- The four engine requests, with the counts their rules allow (spec/43_bigint_engine.md R163 to R166): the code and
the argument bits sent, the exact product, shift, quotient and remainder, and the zero flag after the operation. -/
def Obligations.EngineRequestsAreExact : Prop :=
  ∀ (a : Nat) (v : BitVec 64) (n : BitVec 16),
    ((EngineRequest.load v).run a).acc = v.toNat ∧
    (n.toNat ≤ 32768 → ((EngineRequest.mulp5 n).run a).acc = a * 5 ^ n.toNat) ∧
    (n.toNat ≤ 32767 → ((EngineRequest.shl n).run a).acc = a * 2 ^ n.toNat) ∧
    a = 10 * (EngineRequest.divmod10.run a).acc + (EngineRequest.divmod10.run a).rem.toNat ∧
    (EngineRequest.divmod10.run a).rem.toNat ≤ 9 ∧
    (∀ r : EngineRequest, (r.run a).nz = decide ((r.run a).acc ≠ 0)) ∧
    ((EngineRequest.load v).opCode = 0 ∧ (EngineRequest.load v).arg = v ∧ ((EngineRequest.load v).run a).rem = 0) ∧
    ((EngineRequest.mulp5 n).opCode = 1 ∧ (EngineRequest.mulp5 n).arg.extractLsb' 0 16 = n
      ∧ ((EngineRequest.mulp5 n).run a).rem = 0) ∧
    ((EngineRequest.shl n).opCode = 2 ∧ (EngineRequest.shl n).arg.extractLsb' 0 16 = n
      ∧ ((EngineRequest.shl n).run a).rem = 0) ∧
    EngineRequest.divmod10.opCode = 3

/-- What the model chose where the engine's rules fix nothing (log 19): zeros in the argument bits that MULP5, SHL and
DIVMOD10 leave open, and the exact product and shift also for counts above 32768 and 32767, which no step sends. -/
def Obligations.EngineRequestChoicesBeyondTheRules : Prop :=
  ∀ (a : Nat) (n : BitVec 16),
    (EngineRequest.mulp5 n).arg.toNat = n.toNat ∧ (EngineRequest.shl n).arg.toNat = n.toNat ∧
    EngineRequest.divmod10.arg = 0 ∧
    ((EngineRequest.mulp5 n).run a).acc = a * 5 ^ n.toNat ∧ ((EngineRequest.shl n).run a).acc = a * 2 ^ n.toNat

/-! ## Port -/

/-- A `BusError` changes no state but the answer on the bus, and the answer carries data 0; it comes exactly for the
five causes (spec/20_memory.md R75). Every write is answered with data 0 (R70). -/
def Obligations.BusErrorChangesNoState : Prop :=
  ∀ (s : State) (a : Offset) (v : Word),
    (∀ r : Response, (portWrite s a v).rsp = some r → r.err = true →
      r.data = 0 ∧ portWrite s a v = { s with rsp := some r }) ∧
    (∀ r : Response, (portRead s a).rsp = some r → r.err = true → r.data = 0 ∧ portRead s a = { s with rsp := some r }) ∧
    (∃ e, (portWrite s a v).rsp = some ⟨0, e⟩) ∧
    ((portWrite s a v).rsp = some ⟨0, true⟩ ↔
      a.toNat % 4 ≠ 0 ∨ 0x5C ≤ a.toNat ∨ a ∈ [0x14#8, 0x30#8, 0x44#8, 0x48#8, 0x4C#8, 0x50#8, 0x54#8, 0x58#8] ∨
        s.busy = true ∨ (a = 0x10 ∧ s.err ≠ .noError ∧ v ≠ 0x0000000F)) ∧
    ((portRead s a).rsp = some ⟨0, true⟩ ↔ a.toNat % 4 ≠ 0 ∨ 0x5C ≤ a.toNat ∨ a = 0x10)

/-- Misaligned and unmapped offsets, writes to RO registers and reads of CMD are `BusError`s
(spec/20_memory.md R72, R73, R74). -/
def Obligations.ForbiddenAccessesAreBusErrors : Prop :=
  ∀ (s : State) (a : Offset) (v : Word),
    (a.toNat % 4 ≠ 0 ∨ 0x5C ≤ a.toNat →
      portWrite s a v = { s with rsp := some ⟨0, true⟩ } ∧ portRead s a = { s with rsp := some ⟨0, true⟩ }) ∧
    (a ∈ [0x14, 0x30, 0x44, 0x48, 0x4C, 0x50, 0x54, 0x58] →
      portWrite s a v = { s with rsp := some ⟨0, true⟩ }) ∧
    portRead s 0x10 = { s with rsp := some ⟨0, true⟩ }

/-- While `BUSY = 1` every write, to any offset, is a `BusError` (spec/20_memory.md R76). -/
def Obligations.WritesWhileBusyAreRefused : Prop :=
  ∀ (s : State) (a : Offset) (v : Word), s.busy = true → portWrite s a v = { s with rsp := some ⟨0, true⟩ }

/-- No read changes any state but the answer on the bus, busy or not, faulted or not (spec/20_memory.md R78). The answer
of a legal read is the register's word (`wordAt`, whose values the next statements give) without an error, that of any
other read is a `BusError` with data 0 (R70, R75); it does not depend on `BUSY` except in STATUS (R77). -/
def Obligations.ReadsChangeNoState : Prop :=
  ∀ (s : State) (a : Offset),
    (∀ w, s.wordAt a = some w → portRead s a = { s with rsp := some ⟨w, false⟩ }) ∧
    (s.wordAt a = none → portRead s a = { s with rsp := some ⟨0, true⟩ }) ∧
    (a ≠ 0x14 → ∀ b, (portRead { s with busy := b } a).rsp = (portRead s a).rsp)

/-- A write to a RW register replaces all its named bits and is read back with the others as 0, BINEXP sign-extended;
in every other readable register too the bits that are not named read 0 (spec/10_state.md R31, R45). -/
def Obligations.WrittenRegistersReadBack : Prop :=
  ∀ (s : State) (a : Offset) (v : Word), s.busy = false →
    (a ∈ [0x00, 0x04, 0x08, 0x0C, 0x18, 0x1C, 0x24, 0x28, 0x34, 0x38] → (portWrite s a v).wordAt a = some v) ∧
    (a ∈ [0x20, 0x2C] → (portWrite s a v).wordAt a = some (v &&& 0x0000FFFF)) ∧
    (a = 0x3C → (portWrite s a v).wordAt a = some ((v.setWidth 16).signExtend 32)) ∧
    (a = 0x40 → (portWrite s a v).wordAt a = some (v &&& 0x00000001)) ∧
    (∀ m : Word, (a, m) ∈ [(0x14#8, 0x000F01FF#32), (0x20#8, 0xFFFF#32), (0x2C#8, 0xFFFF#32), (0x30#8, 0x7#32),
        (0x40#8, 0x1#32), (0x48#8, 0x3F#32), (0x4C#8, 0xFFFF#32), (0x50#8, 0x7FFF#32), (0x54#8, 0x7F#32),
        (0x58#8, 0xFFFF#32)] →
      ∃ w, s.wordAt a = some w ∧ w &&& ~~~m = 0)

/-- A write, accepted or not, changes the register at its offset only, as every other offset and the hidden state
show; accepted at CMANT0, CMANT1 or BINEXP it also sets `PHASE <- LOADED`; no read changes any state
(spec/10_state.md R46, spec/20_memory.md R79). -/
def Obligations.WritesChangeTheirRegisterOnly : Prop :=
  ∀ (s t : State) (a b : Offset) (v : Word), a ≠ 0x10 → b ≠ a → t = portWrite s a v →
    (b ≠ 0x14 → t.wordAt b = s.wordAt b) ∧
    (a ∉ [0x34#8, 0x38#8, 0x3C#8] → t.wordAt 0x14 = s.wordAt 0x14 ∧ t.phase = s.phase) ∧
    (a ∈ [0x34#8, 0x38#8, 0x3C#8] → s.busy = false → t.phase = .loaded) ∧
    t = { s with
      opb := t.opb, bits := t.bits, manf := t.manf, sexp := t.sexp, cmant := t.cmant, binexp := t.binexp,
      cneg := t.cneg, phase := t.phase, rsp := t.rsp } ∧
    (∃ r, portRead s a = { s with rsp := r })

/-- The fields of STATUS stand at their bits with their codes, the other bits read 0, no error code above 5 arises,
and the host cannot write it (spec/10_state.md R40, R41, R42). -/
def Obligations.StatusShowsItsFields : Prop :=
  (∀ s : State, ∃ w : Word, s.wordAt 0x14 = some w ∧
    w.toNat = (if s.busy then 1 else 0) + 2 * s.phase.code.toNat + 16 * s.err.code.toNat
      + 256 * (if s.accnz then 1 else 0) + 65536 * s.lastop.toNat ∧
    s.err.code.toNat ≤ 5 ∧ ∀ v, portWrite s 0x14 v = { s with rsp := some ⟨0, true⟩ }) ∧
  [Phase.idle, .loaded, .minimized, .defracted, .reduced, .digits, .finished, .bypass].map Phase.code
    = [0, 1, 2, 3, 4, 5, 6, 7] ∧
  [ErrCode.noError, .cmd, .format, .range, .precond, .seq].map ErrCode.code = [0, 1, 2, 3, 4, 5]

/-- What a read of each register but STATUS returns (STATUS has its own statement): at each of their offsets the port
answers without an error, with the word the other clauses give. The words of OPB, BITS, MANF and
CMANT, the least significant word at the lowest offset, form the number that the commands use, each byte of the image at
its place in its word; SEXP is the exponent field with the sign above it; KIND its code, BINEXP and DECEXP their signed
values sign-extended to 32 bits, CNEG, ADJ, P5N, LSHN, DIGIT and NDIG their values, unsigned; and the codes of the seven
kinds (spec/10_state.md R25 to R38, R56, spec/20_memory.md R80, R81). -/
def Obligations.ResultRegistersReadTheirValues : Prop :=
  (∀ s : State,
    (∀ k, k < 23 → k ≠ 4 → ∃ w, s.wordAt (BitVec.ofNat 8 (4 * k)) = some w ∧
      portRead s (BitVec.ofNat 8 (4 * k)) = { s with rsp := some ⟨w, false⟩ }) ∧
    (∃ w₀ w₁ w₂ w₃ : Word, s.wordAt 0x00 = some w₀ ∧ s.wordAt 0x04 = some w₁ ∧ s.wordAt 0x08 = some w₂ ∧
      s.wordAt 0x0C = some w₃ ∧
      s.opb.toNat = w₀.toNat + 2 ^ 32 * w₁.toNat + 2 ^ 64 * w₂.toNat + 2 ^ 96 * w₃.toNat) ∧
    (∀ k j, k < 4 → j < 4 →
      (s.wordAt (BitVec.ofNat 8 (4 * k))).map (·.extractLsb' (8 * j) 8)
        = some (s.opb.extractLsb' (8 * (4 * k + j)) 8)) ∧
    (∃ w₀ w₁ w₂ : Word, s.wordAt 0x18 = some w₀ ∧ s.wordAt 0x1C = some w₁ ∧ s.wordAt 0x20 = some w₂ ∧
      s.bits.toNat = w₀.toNat + 2 ^ 32 * w₁.toNat + 2 ^ 64 * w₂.toNat) ∧
    (∃ w₀ w₁ : Word, s.wordAt 0x24 = some w₀ ∧ s.wordAt 0x28 = some w₁ ∧
      s.manf.toNat = w₀.toNat + 2 ^ 32 * w₁.toNat) ∧
    (s.wordAt 0x2C).map BitVec.toNat = some (s.expf.toNat + if s.neg then 2 ^ 15 else 0) ∧
    (s.wordAt 0x2C).map BitVec.toNat = some s.sexp.toNat ∧
    (∃ w₀ w₁ : Word, s.wordAt 0x34 = some w₀ ∧ s.wordAt 0x38 = some w₁ ∧
      s.cmant.toNat = w₀.toNat + 2 ^ 32 * w₁.toNat) ∧
    (s.wordAt 0x30).map BitVec.toNat = some s.kind.code.toNat ∧
    (s.wordAt 0x3C).map BitVec.toInt = some s.binExp ∧
    (s.wordAt 0x40).map BitVec.toNat = some (if s.cneg then 1 else 0) ∧
    (s.wordAt 0x44).map BitVec.toInt = some s.decExp ∧
    (s.wordAt 0x48).map BitVec.toNat = some s.adj.toNat ∧
    (s.wordAt 0x4C).map BitVec.toNat = some s.p5n.toNat ∧
    (s.wordAt 0x50).map BitVec.toNat = some s.lshn.toNat ∧
    (s.wordAt 0x54).map BitVec.toNat = some s.digit.toNat ∧
    (s.wordAt 0x58).map BitVec.toNat = some s.ndig.toNat) ∧
  [Kind.zero, .denormal, .normal, .infinity, .quietNaN, .signalingNaN, .indefinite].map Kind.code
    = [0, 1, 2, 3, 4, 5, 6] ∧
  ∀ k : Kind, k.code.toNat ≤ 6

/-- After XTR with a little-endian image the record's words are the operand words (spec/20_memory.md R92). -/
def Obligations.LittleEndianRecordsAreTheOperandWords : Prop :=
  ∀ s t : State,
    (exec (.xtr .single .little) s = .next t → t.wordAt 0x18 = s.wordAt 0x00) ∧
    (exec (.xtr .double .little) s = .next t → t.wordAt 0x18 = s.wordAt 0x00 ∧ t.wordAt 0x1C = s.wordAt 0x04) ∧
    (exec (.xtr .extended .little) s = .next t →
      t.wordAt 0x18 = s.wordAt 0x00 ∧ t.wordAt 0x1C = s.wordAt 0x04 ∧
      t.wordAt 0x20 = (s.wordAt 0x08).map (· &&& 0x0000FFFF))

/-! ## Reset -/

/-- After reset every readable register reads 0, the accumulator is 0, and nothing is in progress or in flight
(spec/10_state.md R55, spec/70_reset_and_hazards.md R291). -/
def Obligations.ResetLeavesEveryRegisterZero : Prop :=
  (∀ k, k < 23 → k ≠ 4 → State.reset.wordAt (BitVec.ofNat 8 (4 * k)) = some 0) ∧
  State.reset.acc = 0 ∧ State.reset.busy = false ∧ State.reset.engReq = none ∧ State.reset.beat = none ∧
  State.reset.rsp = none

/-- A reset at any time, also during a command, leaves the reset state, and keeps what the sink has taken
(spec/70_reset_and_hazards.md R291, R292). The contents of CW and USTEP in that state (log 7), the two readiness levels
kept across the reset (log 5) and the agenda (log 2) are the model's choices. -/
def Obligations.ResetAbandonsTheCommand : Prop :=
  ∀ (s : State) (es : List Event), s.agenda = .reset :: es →
    step s = .next { State.reset with
      dstream := s.dstream, agenda := es, engineReady := s.engineReady, sinkReady := s.sinkReady }

/-! ## Invariants -/

/-- The three invariants hold at reset. -/
def Obligations.InvariantsHoldAtReset : Prop :=
  State.reset.converterInv ∧ State.reset.controlInv ∧ State.reset.inFlightInv

/-- Every step, from every state, keeps what the converter's registers mean in each phase, and the zero flag
(spec/44_exact_converter.md R180, R187, R190, spec/10_state.md R44). -/
def Obligations.EveryStepKeepsTheConverterInvariant : Prop :=
  ∀ s t : State, s.converterInv → step s = .next t → t.converterInv

/-- Every step keeps the control invariant: a busy EFU holds one of the twelve commands, `BUSY = 0` while `ERR != 0`, and a
CVT's sub-step fits its phase (spec/10_state.md R53, spec/60_exceptions.md R267). It rests on the model's reading that CLE
completes in the event of its write (log 4). -/
def Obligations.EveryStepKeepsTheControlInvariant : Prop :=
  ∀ s t : State, s.controlInv → step s = .next t → t.controlInv

/-- Every step keeps what may be in flight. A beat that is held keeps its values, and nothing joins the stream, until the
sink takes it, and then exactly that beat joins it; only a reset drops it. A request stands unchanged until it is answered
or dropped by a reset (spec/10_state.md R53, spec/20_memory.md R87, R89). Which request RFR shows while the engine is silent, LOAD and never MULP5, is the model's choice
(log 6). -/
def Obligations.EveryStepKeepsWhatIsInFlight : Prop :=
  ∀ s t : State, s.inFlightInv → step s = .next t →
    t.inFlightInv ∧
    (∀ b, s.beat = some b →
      (t.beat = some b ∧ t.dstream = s.dstream) ∨
      (t.beat = none ∧ (t.dstream = s.dstream ++ [b] ∨ s.agenda.head? = some .reset))) ∧
    (∀ r, s.engReq = some r → t.engReq = some r ∨ (t.engReq = none ∧ (s.engineReady = true ∨
      s.agenda.head? = some .reset)))

/-- Under the control invariant the machine never stops: every step answers a next state, and whatever goes wrong is
one of the errors of spec/60_exceptions.md R260 or a `BusError`. -/
def Obligations.NoStepStopsTheMachine : Prop :=
  ∀ s : State, s.controlInv → ∃ t, step s = .next t

/-- A recorded error changes in two events only, CLE's CMD write and a reset, which both clear it; so the code of the
first error stays (spec/60_exceptions.md R267, R268). That CLE clears it in the event of its write is the model's choice
(log 4). -/
def Obligations.FirstErrorStaysUntilCleared : Prop :=
  ∀ s t : State, s.controlInv → step s = .next t → s.err ≠ .noError → t.err ≠ s.err →
    t.err = .noError ∧ (s.agenda.head? = some (.write 0x10 0x0000000F) ∨ s.agenda.head? = some .reset)

/-- `PHASE` moves only along the table of spec/44_exact_converter.md R193: by LDC, the three phases and DGT (as commands
or as CVT's sub-steps) from the phase each requires, by a host write of a converter input while idle, and by reset. So
no other command and no other event changes it. -/
def Obligations.PhaseMovesOnlyAlongTheTable : Prop :=
  ∀ s t : State, step s = .next t → t.phase ≠ s.phase →
    (s.busy = true ∧ (∃ f, s.currentCommand? = some (.ldc f)) ∧ (t.phase = .loaded ∨ t.phase = .bypass)) ∨
    (s.busy = true ∧ s.currentCommand? = some .min ∧ s.phase = .loaded ∧ t.phase = .minimized) ∨
    (s.busy = true ∧ s.currentCommand? = some .rfr ∧ s.phase = .minimized ∧ t.phase = .defracted) ∨
    (s.busy = true ∧ s.currentCommand? = some .rre ∧ s.phase = .defracted ∧ t.phase = .reduced) ∨
    (s.busy = true ∧ s.currentCommand? = some .dgt ∧ (s.phase = .reduced ∨ s.phase = .digits)
      ∧ (t.phase = .digits ∨ t.phase = .finished)) ∨
    ((∃ a v, s.agenda.head? = some (.write a v) ∧ a ∈ [0x34#8, 0x38#8, 0x3C#8]) ∧ s.busy = false ∧ t.phase = .loaded) ∨
    (s.agenda.head? = some .reset ∧ t.phase = .idle)

/-- Beats are only ever appended to the stream, at most one a step, and only by DGT or by CVT's digit sub-step
(spec/20_memory.md R88). -/
def Obligations.StreamOnlyGrowsByDigitSteps : Prop :=
  ∀ s t : State, step s = .next t → t.dstream ≠ s.dstream →
    s.busy = true ∧ s.currentCommand? = some .dgt ∧ ∃ b, t.dstream = s.dstream ++ [b]

/-! ## Host formatter (software outside the block) -/

/-- Grouping only inserts separators: with a separator that is no digit of the text, taking the separators out again
gives the digits (spec/46_host_formatter.md R233). -/
def Obligations.GroupingOnlyInsertsSeparators : Prop :=
  ∀ (stop : Nat) (sep : Char) (sizes : List Nat) (used : Nat) (ds : List Char), sep ∉ ds →
    (groupDigits stop sep sizes used ds).filter (· ≠ sep) = ds
end

