-- ==== Sys2Proof/Laws/State.lean ====
section
/-! SUPPORT. For every named update of State and every field, the field after the update. -/

namespace Sys2Proof.Machine

variable (s : State)

/-! ### `State.raise` -/

@[simp] theorem State.raise_opb (e : ErrCode) : (s.raise e).opb = s.opb := rfl
@[simp] theorem State.raise_bits (e : ErrCode) : (s.raise e).bits = s.bits := rfl
@[simp] theorem State.raise_manf (e : ErrCode) : (s.raise e).manf = s.manf := rfl
@[simp] theorem State.raise_sexp (e : ErrCode) : (s.raise e).sexp = s.sexp := rfl
@[simp] theorem State.raise_kind (e : ErrCode) : (s.raise e).kind = s.kind := rfl
@[simp] theorem State.raise_cmant (e : ErrCode) : (s.raise e).cmant = s.cmant := rfl
@[simp] theorem State.raise_binexp (e : ErrCode) : (s.raise e).binexp = s.binexp := rfl
@[simp] theorem State.raise_cneg (e : ErrCode) : (s.raise e).cneg = s.cneg := rfl
@[simp] theorem State.raise_decexp (e : ErrCode) : (s.raise e).decexp = s.decexp := rfl
@[simp] theorem State.raise_adj (e : ErrCode) : (s.raise e).adj = s.adj := rfl
@[simp] theorem State.raise_p5n (e : ErrCode) : (s.raise e).p5n = s.p5n := rfl
@[simp] theorem State.raise_lshn (e : ErrCode) : (s.raise e).lshn = s.lshn := rfl
@[simp] theorem State.raise_digit (e : ErrCode) : (s.raise e).digit = s.digit := rfl
@[simp] theorem State.raise_ndig (e : ErrCode) : (s.raise e).ndig = s.ndig := rfl
@[simp] theorem State.raise_busy (e : ErrCode) : (s.raise e).busy = false := rfl
@[simp] theorem State.raise_phase (e : ErrCode) : (s.raise e).phase = s.phase := rfl
@[simp] theorem State.raise_err (e : ErrCode) : (s.raise e).err = e := rfl
@[simp] theorem State.raise_accnz (e : ErrCode) : (s.raise e).accnz = s.accnz := rfl
@[simp] theorem State.raise_lastop (e : ErrCode) : (s.raise e).lastop = s.lastop := rfl
@[simp] theorem State.raise_acc (e : ErrCode) : (s.raise e).acc = s.acc := rfl
@[simp] theorem State.raise_cw (e : ErrCode) : (s.raise e).cw = s.cw := rfl
@[simp] theorem State.raise_ustep (e : ErrCode) : (s.raise e).ustep = s.ustep := rfl
@[simp] theorem State.raise_engReq (e : ErrCode) : (s.raise e).engReq = s.engReq := rfl
@[simp] theorem State.raise_beat (e : ErrCode) : (s.raise e).beat = s.beat := rfl
@[simp] theorem State.raise_dstream (e : ErrCode) : (s.raise e).dstream = s.dstream := rfl
@[simp] theorem State.raise_rsp (e : ErrCode) : (s.raise e).rsp = s.rsp := rfl
@[simp] theorem State.raise_agenda (e : ErrCode) : (s.raise e).agenda = s.agenda := rfl
@[simp] theorem State.raise_engineReady (e : ErrCode) : (s.raise e).engineReady = s.engineReady := rfl
@[simp] theorem State.raise_sinkReady (e : ErrCode) : (s.raise e).sinkReady = s.sinkReady := rfl

/-! ### `State.clearErr` -/

@[simp] theorem State.clearErr_opb : (s.clearErr).opb = s.opb := rfl
@[simp] theorem State.clearErr_bits : (s.clearErr).bits = s.bits := rfl
@[simp] theorem State.clearErr_manf : (s.clearErr).manf = s.manf := rfl
@[simp] theorem State.clearErr_sexp : (s.clearErr).sexp = s.sexp := rfl
@[simp] theorem State.clearErr_kind : (s.clearErr).kind = s.kind := rfl
@[simp] theorem State.clearErr_cmant : (s.clearErr).cmant = s.cmant := rfl
@[simp] theorem State.clearErr_binexp : (s.clearErr).binexp = s.binexp := rfl
@[simp] theorem State.clearErr_cneg : (s.clearErr).cneg = s.cneg := rfl
@[simp] theorem State.clearErr_decexp : (s.clearErr).decexp = s.decexp := rfl
@[simp] theorem State.clearErr_adj : (s.clearErr).adj = s.adj := rfl
@[simp] theorem State.clearErr_p5n : (s.clearErr).p5n = s.p5n := rfl
@[simp] theorem State.clearErr_lshn : (s.clearErr).lshn = s.lshn := rfl
@[simp] theorem State.clearErr_digit : (s.clearErr).digit = s.digit := rfl
@[simp] theorem State.clearErr_ndig : (s.clearErr).ndig = s.ndig := rfl
@[simp] theorem State.clearErr_busy : (s.clearErr).busy = s.busy := rfl
@[simp] theorem State.clearErr_phase : (s.clearErr).phase = s.phase := rfl
@[simp] theorem State.clearErr_err : (s.clearErr).err = .noError := rfl
@[simp] theorem State.clearErr_accnz : (s.clearErr).accnz = s.accnz := rfl
@[simp] theorem State.clearErr_lastop : (s.clearErr).lastop = s.lastop := rfl
@[simp] theorem State.clearErr_acc : (s.clearErr).acc = s.acc := rfl
@[simp] theorem State.clearErr_cw : (s.clearErr).cw = s.cw := rfl
@[simp] theorem State.clearErr_ustep : (s.clearErr).ustep = s.ustep := rfl
@[simp] theorem State.clearErr_engReq : (s.clearErr).engReq = s.engReq := rfl
@[simp] theorem State.clearErr_beat : (s.clearErr).beat = s.beat := rfl
@[simp] theorem State.clearErr_dstream : (s.clearErr).dstream = s.dstream := rfl
@[simp] theorem State.clearErr_rsp : (s.clearErr).rsp = s.rsp := rfl
@[simp] theorem State.clearErr_agenda : (s.clearErr).agenda = s.agenda := rfl
@[simp] theorem State.clearErr_engineReady : (s.clearErr).engineReady = s.engineReady := rfl
@[simp] theorem State.clearErr_sinkReady : (s.clearErr).sinkReady = s.sinkReady := rfl

/-! ### `State.finish` -/

@[simp] theorem State.finish_opb : (s.finish).opb = s.opb := rfl
@[simp] theorem State.finish_bits : (s.finish).bits = s.bits := rfl
@[simp] theorem State.finish_manf : (s.finish).manf = s.manf := rfl
@[simp] theorem State.finish_sexp : (s.finish).sexp = s.sexp := rfl
@[simp] theorem State.finish_kind : (s.finish).kind = s.kind := rfl
@[simp] theorem State.finish_cmant : (s.finish).cmant = s.cmant := rfl
@[simp] theorem State.finish_binexp : (s.finish).binexp = s.binexp := rfl
@[simp] theorem State.finish_cneg : (s.finish).cneg = s.cneg := rfl
@[simp] theorem State.finish_decexp : (s.finish).decexp = s.decexp := rfl
@[simp] theorem State.finish_adj : (s.finish).adj = s.adj := rfl
@[simp] theorem State.finish_p5n : (s.finish).p5n = s.p5n := rfl
@[simp] theorem State.finish_lshn : (s.finish).lshn = s.lshn := rfl
@[simp] theorem State.finish_digit : (s.finish).digit = s.digit := rfl
@[simp] theorem State.finish_ndig : (s.finish).ndig = s.ndig := rfl
@[simp] theorem State.finish_busy : (s.finish).busy = false := rfl
@[simp] theorem State.finish_phase : (s.finish).phase = s.phase := rfl
@[simp] theorem State.finish_err : (s.finish).err = s.err := rfl
@[simp] theorem State.finish_accnz : (s.finish).accnz = s.accnz := rfl
@[simp] theorem State.finish_lastop : (s.finish).lastop = s.lastop := rfl
@[simp] theorem State.finish_acc : (s.finish).acc = s.acc := rfl
@[simp] theorem State.finish_cw : (s.finish).cw = s.cw := rfl
@[simp] theorem State.finish_ustep : (s.finish).ustep = s.ustep := rfl
@[simp] theorem State.finish_engReq : (s.finish).engReq = s.engReq := rfl
@[simp] theorem State.finish_beat : (s.finish).beat = s.beat := rfl
@[simp] theorem State.finish_dstream : (s.finish).dstream = s.dstream := rfl
@[simp] theorem State.finish_rsp : (s.finish).rsp = s.rsp := rfl
@[simp] theorem State.finish_agenda : (s.finish).agenda = s.agenda := rfl
@[simp] theorem State.finish_engineReady : (s.finish).engineReady = s.engineReady := rfl
@[simp] theorem State.finish_sinkReady : (s.finish).sinkReady = s.sinkReady := rfl

/-! ### `State.advance` -/

@[simp] theorem State.advance_opb (u : UStep) : (s.advance u).opb = s.opb := rfl
@[simp] theorem State.advance_bits (u : UStep) : (s.advance u).bits = s.bits := rfl
@[simp] theorem State.advance_manf (u : UStep) : (s.advance u).manf = s.manf := rfl
@[simp] theorem State.advance_sexp (u : UStep) : (s.advance u).sexp = s.sexp := rfl
@[simp] theorem State.advance_kind (u : UStep) : (s.advance u).kind = s.kind := rfl
@[simp] theorem State.advance_cmant (u : UStep) : (s.advance u).cmant = s.cmant := rfl
@[simp] theorem State.advance_binexp (u : UStep) : (s.advance u).binexp = s.binexp := rfl
@[simp] theorem State.advance_cneg (u : UStep) : (s.advance u).cneg = s.cneg := rfl
@[simp] theorem State.advance_decexp (u : UStep) : (s.advance u).decexp = s.decexp := rfl
@[simp] theorem State.advance_adj (u : UStep) : (s.advance u).adj = s.adj := rfl
@[simp] theorem State.advance_p5n (u : UStep) : (s.advance u).p5n = s.p5n := rfl
@[simp] theorem State.advance_lshn (u : UStep) : (s.advance u).lshn = s.lshn := rfl
@[simp] theorem State.advance_digit (u : UStep) : (s.advance u).digit = s.digit := rfl
@[simp] theorem State.advance_ndig (u : UStep) : (s.advance u).ndig = s.ndig := rfl
@[simp] theorem State.advance_busy (u : UStep) : (s.advance u).busy = s.busy := rfl
@[simp] theorem State.advance_phase (u : UStep) : (s.advance u).phase = s.phase := rfl
@[simp] theorem State.advance_err (u : UStep) : (s.advance u).err = s.err := rfl
@[simp] theorem State.advance_accnz (u : UStep) : (s.advance u).accnz = s.accnz := rfl
@[simp] theorem State.advance_lastop (u : UStep) : (s.advance u).lastop = s.lastop := rfl
@[simp] theorem State.advance_acc (u : UStep) : (s.advance u).acc = s.acc := rfl
@[simp] theorem State.advance_cw (u : UStep) : (s.advance u).cw = s.cw := rfl
@[simp] theorem State.advance_ustep (u : UStep) : (s.advance u).ustep = u := rfl
@[simp] theorem State.advance_engReq (u : UStep) : (s.advance u).engReq = s.engReq := rfl
@[simp] theorem State.advance_beat (u : UStep) : (s.advance u).beat = s.beat := rfl
@[simp] theorem State.advance_dstream (u : UStep) : (s.advance u).dstream = s.dstream := rfl
@[simp] theorem State.advance_rsp (u : UStep) : (s.advance u).rsp = s.rsp := rfl
@[simp] theorem State.advance_agenda (u : UStep) : (s.advance u).agenda = s.agenda := rfl
@[simp] theorem State.advance_engineReady (u : UStep) : (s.advance u).engineReady = s.engineReady := rfl
@[simp] theorem State.advance_sinkReady (u : UStep) : (s.advance u).sinkReady = s.sinkReady := rfl

/-! ### `State.writeBits` -/

@[simp] theorem State.writeBits_opb (r : BitVec 80) : (s.writeBits r).opb = s.opb := rfl
@[simp] theorem State.writeBits_bits (r : BitVec 80) : (s.writeBits r).bits = r := rfl
@[simp] theorem State.writeBits_manf (r : BitVec 80) : (s.writeBits r).manf = s.manf := rfl
@[simp] theorem State.writeBits_sexp (r : BitVec 80) : (s.writeBits r).sexp = s.sexp := rfl
@[simp] theorem State.writeBits_kind (r : BitVec 80) : (s.writeBits r).kind = s.kind := rfl
@[simp] theorem State.writeBits_cmant (r : BitVec 80) : (s.writeBits r).cmant = s.cmant := rfl
@[simp] theorem State.writeBits_binexp (r : BitVec 80) : (s.writeBits r).binexp = s.binexp := rfl
@[simp] theorem State.writeBits_cneg (r : BitVec 80) : (s.writeBits r).cneg = s.cneg := rfl
@[simp] theorem State.writeBits_decexp (r : BitVec 80) : (s.writeBits r).decexp = s.decexp := rfl
@[simp] theorem State.writeBits_adj (r : BitVec 80) : (s.writeBits r).adj = s.adj := rfl
@[simp] theorem State.writeBits_p5n (r : BitVec 80) : (s.writeBits r).p5n = s.p5n := rfl
@[simp] theorem State.writeBits_lshn (r : BitVec 80) : (s.writeBits r).lshn = s.lshn := rfl
@[simp] theorem State.writeBits_digit (r : BitVec 80) : (s.writeBits r).digit = s.digit := rfl
@[simp] theorem State.writeBits_ndig (r : BitVec 80) : (s.writeBits r).ndig = s.ndig := rfl
@[simp] theorem State.writeBits_busy (r : BitVec 80) : (s.writeBits r).busy = s.busy := rfl
@[simp] theorem State.writeBits_phase (r : BitVec 80) : (s.writeBits r).phase = s.phase := rfl
@[simp] theorem State.writeBits_err (r : BitVec 80) : (s.writeBits r).err = s.err := rfl
@[simp] theorem State.writeBits_accnz (r : BitVec 80) : (s.writeBits r).accnz = s.accnz := rfl
@[simp] theorem State.writeBits_lastop (r : BitVec 80) : (s.writeBits r).lastop = s.lastop := rfl
@[simp] theorem State.writeBits_acc (r : BitVec 80) : (s.writeBits r).acc = s.acc := rfl
@[simp] theorem State.writeBits_cw (r : BitVec 80) : (s.writeBits r).cw = s.cw := rfl
@[simp] theorem State.writeBits_ustep (r : BitVec 80) : (s.writeBits r).ustep = s.ustep := rfl
@[simp] theorem State.writeBits_engReq (r : BitVec 80) : (s.writeBits r).engReq = s.engReq := rfl
@[simp] theorem State.writeBits_beat (r : BitVec 80) : (s.writeBits r).beat = s.beat := rfl
@[simp] theorem State.writeBits_dstream (r : BitVec 80) : (s.writeBits r).dstream = s.dstream := rfl
@[simp] theorem State.writeBits_rsp (r : BitVec 80) : (s.writeBits r).rsp = s.rsp := rfl
@[simp] theorem State.writeBits_agenda (r : BitVec 80) : (s.writeBits r).agenda = s.agenda := rfl
@[simp] theorem State.writeBits_engineReady (r : BitVec 80) : (s.writeBits r).engineReady = s.engineReady := rfl
@[simp] theorem State.writeBits_sinkReady (r : BitVec 80) : (s.writeBits r).sinkReady = s.sinkReady := rfl

/-! ### `State.writeFields` -/

@[simp] theorem State.writeFields_opb (sexp : BitVec 16) (m : BitVec 64) : (s.writeFields sexp m).opb = s.opb := rfl
@[simp] theorem State.writeFields_bits (sexp : BitVec 16) (m : BitVec 64) : (s.writeFields sexp m).bits = s.bits := rfl
@[simp] theorem State.writeFields_manf (sexp : BitVec 16) (m : BitVec 64) : (s.writeFields sexp m).manf = m := rfl
@[simp] theorem State.writeFields_sexp (sexp : BitVec 16) (m : BitVec 64) : (s.writeFields sexp m).sexp = sexp := rfl
@[simp] theorem State.writeFields_kind (sexp : BitVec 16) (m : BitVec 64) : (s.writeFields sexp m).kind = s.kind := rfl
@[simp] theorem State.writeFields_cmant (sexp : BitVec 16) (m : BitVec 64) : (s.writeFields sexp m).cmant = s.cmant := rfl
@[simp] theorem State.writeFields_binexp (sexp : BitVec 16) (m : BitVec 64) : (s.writeFields sexp m).binexp = s.binexp := rfl
@[simp] theorem State.writeFields_cneg (sexp : BitVec 16) (m : BitVec 64) : (s.writeFields sexp m).cneg = s.cneg := rfl
@[simp] theorem State.writeFields_decexp (sexp : BitVec 16) (m : BitVec 64) : (s.writeFields sexp m).decexp = s.decexp := rfl
@[simp] theorem State.writeFields_adj (sexp : BitVec 16) (m : BitVec 64) : (s.writeFields sexp m).adj = s.adj := rfl
@[simp] theorem State.writeFields_p5n (sexp : BitVec 16) (m : BitVec 64) : (s.writeFields sexp m).p5n = s.p5n := rfl
@[simp] theorem State.writeFields_lshn (sexp : BitVec 16) (m : BitVec 64) : (s.writeFields sexp m).lshn = s.lshn := rfl
@[simp] theorem State.writeFields_digit (sexp : BitVec 16) (m : BitVec 64) : (s.writeFields sexp m).digit = s.digit := rfl
@[simp] theorem State.writeFields_ndig (sexp : BitVec 16) (m : BitVec 64) : (s.writeFields sexp m).ndig = s.ndig := rfl
@[simp] theorem State.writeFields_busy (sexp : BitVec 16) (m : BitVec 64) : (s.writeFields sexp m).busy = s.busy := rfl
@[simp] theorem State.writeFields_phase (sexp : BitVec 16) (m : BitVec 64) : (s.writeFields sexp m).phase = s.phase := rfl
@[simp] theorem State.writeFields_err (sexp : BitVec 16) (m : BitVec 64) : (s.writeFields sexp m).err = s.err := rfl
@[simp] theorem State.writeFields_accnz (sexp : BitVec 16) (m : BitVec 64) : (s.writeFields sexp m).accnz = s.accnz := rfl
@[simp] theorem State.writeFields_lastop (sexp : BitVec 16) (m : BitVec 64) : (s.writeFields sexp m).lastop = s.lastop := rfl
@[simp] theorem State.writeFields_acc (sexp : BitVec 16) (m : BitVec 64) : (s.writeFields sexp m).acc = s.acc := rfl
@[simp] theorem State.writeFields_cw (sexp : BitVec 16) (m : BitVec 64) : (s.writeFields sexp m).cw = s.cw := rfl
@[simp] theorem State.writeFields_ustep (sexp : BitVec 16) (m : BitVec 64) : (s.writeFields sexp m).ustep = s.ustep := rfl
@[simp] theorem State.writeFields_engReq (sexp : BitVec 16) (m : BitVec 64) : (s.writeFields sexp m).engReq = s.engReq := rfl
@[simp] theorem State.writeFields_beat (sexp : BitVec 16) (m : BitVec 64) : (s.writeFields sexp m).beat = s.beat := rfl
@[simp] theorem State.writeFields_dstream (sexp : BitVec 16) (m : BitVec 64) : (s.writeFields sexp m).dstream = s.dstream := rfl
@[simp] theorem State.writeFields_rsp (sexp : BitVec 16) (m : BitVec 64) : (s.writeFields sexp m).rsp = s.rsp := rfl
@[simp] theorem State.writeFields_agenda (sexp : BitVec 16) (m : BitVec 64) : (s.writeFields sexp m).agenda = s.agenda := rfl
@[simp] theorem State.writeFields_engineReady (sexp : BitVec 16) (m : BitVec 64) : (s.writeFields sexp m).engineReady = s.engineReady := rfl
@[simp] theorem State.writeFields_sinkReady (sexp : BitVec 16) (m : BitVec 64) : (s.writeFields sexp m).sinkReady = s.sinkReady := rfl

/-! ### `State.writeKind` -/

@[simp] theorem State.writeKind_opb (k : Kind) : (s.writeKind k).opb = s.opb := rfl
@[simp] theorem State.writeKind_bits (k : Kind) : (s.writeKind k).bits = s.bits := rfl
@[simp] theorem State.writeKind_manf (k : Kind) : (s.writeKind k).manf = s.manf := rfl
@[simp] theorem State.writeKind_sexp (k : Kind) : (s.writeKind k).sexp = s.sexp := rfl
@[simp] theorem State.writeKind_kind (k : Kind) : (s.writeKind k).kind = k := rfl
@[simp] theorem State.writeKind_cmant (k : Kind) : (s.writeKind k).cmant = s.cmant := rfl
@[simp] theorem State.writeKind_binexp (k : Kind) : (s.writeKind k).binexp = s.binexp := rfl
@[simp] theorem State.writeKind_cneg (k : Kind) : (s.writeKind k).cneg = s.cneg := rfl
@[simp] theorem State.writeKind_decexp (k : Kind) : (s.writeKind k).decexp = s.decexp := rfl
@[simp] theorem State.writeKind_adj (k : Kind) : (s.writeKind k).adj = s.adj := rfl
@[simp] theorem State.writeKind_p5n (k : Kind) : (s.writeKind k).p5n = s.p5n := rfl
@[simp] theorem State.writeKind_lshn (k : Kind) : (s.writeKind k).lshn = s.lshn := rfl
@[simp] theorem State.writeKind_digit (k : Kind) : (s.writeKind k).digit = s.digit := rfl
@[simp] theorem State.writeKind_ndig (k : Kind) : (s.writeKind k).ndig = s.ndig := rfl
@[simp] theorem State.writeKind_busy (k : Kind) : (s.writeKind k).busy = s.busy := rfl
@[simp] theorem State.writeKind_phase (k : Kind) : (s.writeKind k).phase = s.phase := rfl
@[simp] theorem State.writeKind_err (k : Kind) : (s.writeKind k).err = s.err := rfl
@[simp] theorem State.writeKind_accnz (k : Kind) : (s.writeKind k).accnz = s.accnz := rfl
@[simp] theorem State.writeKind_lastop (k : Kind) : (s.writeKind k).lastop = s.lastop := rfl
@[simp] theorem State.writeKind_acc (k : Kind) : (s.writeKind k).acc = s.acc := rfl
@[simp] theorem State.writeKind_cw (k : Kind) : (s.writeKind k).cw = s.cw := rfl
@[simp] theorem State.writeKind_ustep (k : Kind) : (s.writeKind k).ustep = s.ustep := rfl
@[simp] theorem State.writeKind_engReq (k : Kind) : (s.writeKind k).engReq = s.engReq := rfl
@[simp] theorem State.writeKind_beat (k : Kind) : (s.writeKind k).beat = s.beat := rfl
@[simp] theorem State.writeKind_dstream (k : Kind) : (s.writeKind k).dstream = s.dstream := rfl
@[simp] theorem State.writeKind_rsp (k : Kind) : (s.writeKind k).rsp = s.rsp := rfl
@[simp] theorem State.writeKind_agenda (k : Kind) : (s.writeKind k).agenda = s.agenda := rfl
@[simp] theorem State.writeKind_engineReady (k : Kind) : (s.writeKind k).engineReady = s.engineReady := rfl
@[simp] theorem State.writeKind_sinkReady (k : Kind) : (s.writeKind k).sinkReady = s.sinkReady := rfl

/-! ### `State.setPhase` -/

@[simp] theorem State.setPhase_opb (p : Phase) : (s.setPhase p).opb = s.opb := rfl
@[simp] theorem State.setPhase_bits (p : Phase) : (s.setPhase p).bits = s.bits := rfl
@[simp] theorem State.setPhase_manf (p : Phase) : (s.setPhase p).manf = s.manf := rfl
@[simp] theorem State.setPhase_sexp (p : Phase) : (s.setPhase p).sexp = s.sexp := rfl
@[simp] theorem State.setPhase_kind (p : Phase) : (s.setPhase p).kind = s.kind := rfl
@[simp] theorem State.setPhase_cmant (p : Phase) : (s.setPhase p).cmant = s.cmant := rfl
@[simp] theorem State.setPhase_binexp (p : Phase) : (s.setPhase p).binexp = s.binexp := rfl
@[simp] theorem State.setPhase_cneg (p : Phase) : (s.setPhase p).cneg = s.cneg := rfl
@[simp] theorem State.setPhase_decexp (p : Phase) : (s.setPhase p).decexp = s.decexp := rfl
@[simp] theorem State.setPhase_adj (p : Phase) : (s.setPhase p).adj = s.adj := rfl
@[simp] theorem State.setPhase_p5n (p : Phase) : (s.setPhase p).p5n = s.p5n := rfl
@[simp] theorem State.setPhase_lshn (p : Phase) : (s.setPhase p).lshn = s.lshn := rfl
@[simp] theorem State.setPhase_digit (p : Phase) : (s.setPhase p).digit = s.digit := rfl
@[simp] theorem State.setPhase_ndig (p : Phase) : (s.setPhase p).ndig = s.ndig := rfl
@[simp] theorem State.setPhase_busy (p : Phase) : (s.setPhase p).busy = s.busy := rfl
@[simp] theorem State.setPhase_phase (p : Phase) : (s.setPhase p).phase = p := rfl
@[simp] theorem State.setPhase_err (p : Phase) : (s.setPhase p).err = s.err := rfl
@[simp] theorem State.setPhase_accnz (p : Phase) : (s.setPhase p).accnz = s.accnz := rfl
@[simp] theorem State.setPhase_lastop (p : Phase) : (s.setPhase p).lastop = s.lastop := rfl
@[simp] theorem State.setPhase_acc (p : Phase) : (s.setPhase p).acc = s.acc := rfl
@[simp] theorem State.setPhase_cw (p : Phase) : (s.setPhase p).cw = s.cw := rfl
@[simp] theorem State.setPhase_ustep (p : Phase) : (s.setPhase p).ustep = s.ustep := rfl
@[simp] theorem State.setPhase_engReq (p : Phase) : (s.setPhase p).engReq = s.engReq := rfl
@[simp] theorem State.setPhase_beat (p : Phase) : (s.setPhase p).beat = s.beat := rfl
@[simp] theorem State.setPhase_dstream (p : Phase) : (s.setPhase p).dstream = s.dstream := rfl
@[simp] theorem State.setPhase_rsp (p : Phase) : (s.setPhase p).rsp = s.rsp := rfl
@[simp] theorem State.setPhase_agenda (p : Phase) : (s.setPhase p).agenda = s.agenda := rfl
@[simp] theorem State.setPhase_engineReady (p : Phase) : (s.setPhase p).engineReady = s.engineReady := rfl
@[simp] theorem State.setPhase_sinkReady (p : Phase) : (s.setPhase p).sinkReady = s.sinkReady := rfl

/-! ### `State.writeInput` -/

@[simp] theorem State.writeInput_opb (m : BitVec 64) (b : BitVec 16) (n : Bool) : (s.writeInput m b n).opb = s.opb := rfl
@[simp] theorem State.writeInput_bits (m : BitVec 64) (b : BitVec 16) (n : Bool) : (s.writeInput m b n).bits = s.bits := rfl
@[simp] theorem State.writeInput_manf (m : BitVec 64) (b : BitVec 16) (n : Bool) : (s.writeInput m b n).manf = s.manf := rfl
@[simp] theorem State.writeInput_sexp (m : BitVec 64) (b : BitVec 16) (n : Bool) : (s.writeInput m b n).sexp = s.sexp := rfl
@[simp] theorem State.writeInput_kind (m : BitVec 64) (b : BitVec 16) (n : Bool) : (s.writeInput m b n).kind = s.kind := rfl
@[simp] theorem State.writeInput_cmant (m : BitVec 64) (b : BitVec 16) (n : Bool) : (s.writeInput m b n).cmant = m := rfl
@[simp] theorem State.writeInput_binexp (m : BitVec 64) (b : BitVec 16) (n : Bool) : (s.writeInput m b n).binexp = b := rfl
@[simp] theorem State.writeInput_cneg (m : BitVec 64) (b : BitVec 16) (n : Bool) : (s.writeInput m b n).cneg = n := rfl
@[simp] theorem State.writeInput_decexp (m : BitVec 64) (b : BitVec 16) (n : Bool) : (s.writeInput m b n).decexp = s.decexp := rfl
@[simp] theorem State.writeInput_adj (m : BitVec 64) (b : BitVec 16) (n : Bool) : (s.writeInput m b n).adj = s.adj := rfl
@[simp] theorem State.writeInput_p5n (m : BitVec 64) (b : BitVec 16) (n : Bool) : (s.writeInput m b n).p5n = s.p5n := rfl
@[simp] theorem State.writeInput_lshn (m : BitVec 64) (b : BitVec 16) (n : Bool) : (s.writeInput m b n).lshn = s.lshn := rfl
@[simp] theorem State.writeInput_digit (m : BitVec 64) (b : BitVec 16) (n : Bool) : (s.writeInput m b n).digit = s.digit := rfl
@[simp] theorem State.writeInput_ndig (m : BitVec 64) (b : BitVec 16) (n : Bool) : (s.writeInput m b n).ndig = s.ndig := rfl
@[simp] theorem State.writeInput_busy (m : BitVec 64) (b : BitVec 16) (n : Bool) : (s.writeInput m b n).busy = s.busy := rfl
@[simp] theorem State.writeInput_phase (m : BitVec 64) (b : BitVec 16) (n : Bool) : (s.writeInput m b n).phase = s.phase := rfl
@[simp] theorem State.writeInput_err (m : BitVec 64) (b : BitVec 16) (n : Bool) : (s.writeInput m b n).err = s.err := rfl
@[simp] theorem State.writeInput_accnz (m : BitVec 64) (b : BitVec 16) (n : Bool) : (s.writeInput m b n).accnz = s.accnz := rfl
@[simp] theorem State.writeInput_lastop (m : BitVec 64) (b : BitVec 16) (n : Bool) : (s.writeInput m b n).lastop = s.lastop := rfl
@[simp] theorem State.writeInput_acc (m : BitVec 64) (b : BitVec 16) (n : Bool) : (s.writeInput m b n).acc = s.acc := rfl
@[simp] theorem State.writeInput_cw (m : BitVec 64) (b : BitVec 16) (n : Bool) : (s.writeInput m b n).cw = s.cw := rfl
@[simp] theorem State.writeInput_ustep (m : BitVec 64) (b : BitVec 16) (n : Bool) : (s.writeInput m b n).ustep = s.ustep := rfl
@[simp] theorem State.writeInput_engReq (m : BitVec 64) (b : BitVec 16) (n : Bool) : (s.writeInput m b n).engReq = s.engReq := rfl
@[simp] theorem State.writeInput_beat (m : BitVec 64) (b : BitVec 16) (n : Bool) : (s.writeInput m b n).beat = s.beat := rfl
@[simp] theorem State.writeInput_dstream (m : BitVec 64) (b : BitVec 16) (n : Bool) : (s.writeInput m b n).dstream = s.dstream := rfl
@[simp] theorem State.writeInput_rsp (m : BitVec 64) (b : BitVec 16) (n : Bool) : (s.writeInput m b n).rsp = s.rsp := rfl
@[simp] theorem State.writeInput_agenda (m : BitVec 64) (b : BitVec 16) (n : Bool) : (s.writeInput m b n).agenda = s.agenda := rfl
@[simp] theorem State.writeInput_engineReady (m : BitVec 64) (b : BitVec 16) (n : Bool) : (s.writeInput m b n).engineReady = s.engineReady := rfl
@[simp] theorem State.writeInput_sinkReady (m : BitVec 64) (b : BitVec 16) (n : Bool) : (s.writeInput m b n).sinkReady = s.sinkReady := rfl

/-! ### `State.writeMinimized` -/

@[simp] theorem State.writeMinimized_opb (a : BitVec 6) (m : BitVec 64) (b : BitVec 16) : (s.writeMinimized a m b).opb = s.opb := rfl
@[simp] theorem State.writeMinimized_bits (a : BitVec 6) (m : BitVec 64) (b : BitVec 16) : (s.writeMinimized a m b).bits = s.bits := rfl
@[simp] theorem State.writeMinimized_manf (a : BitVec 6) (m : BitVec 64) (b : BitVec 16) : (s.writeMinimized a m b).manf = s.manf := rfl
@[simp] theorem State.writeMinimized_sexp (a : BitVec 6) (m : BitVec 64) (b : BitVec 16) : (s.writeMinimized a m b).sexp = s.sexp := rfl
@[simp] theorem State.writeMinimized_kind (a : BitVec 6) (m : BitVec 64) (b : BitVec 16) : (s.writeMinimized a m b).kind = s.kind := rfl
@[simp] theorem State.writeMinimized_cmant (a : BitVec 6) (m : BitVec 64) (b : BitVec 16) : (s.writeMinimized a m b).cmant = m := rfl
@[simp] theorem State.writeMinimized_binexp (a : BitVec 6) (m : BitVec 64) (b : BitVec 16) : (s.writeMinimized a m b).binexp = b := rfl
@[simp] theorem State.writeMinimized_cneg (a : BitVec 6) (m : BitVec 64) (b : BitVec 16) : (s.writeMinimized a m b).cneg = s.cneg := rfl
@[simp] theorem State.writeMinimized_decexp (a : BitVec 6) (m : BitVec 64) (b : BitVec 16) : (s.writeMinimized a m b).decexp = s.decexp := rfl
@[simp] theorem State.writeMinimized_adj (a : BitVec 6) (m : BitVec 64) (b : BitVec 16) : (s.writeMinimized a m b).adj = a := rfl
@[simp] theorem State.writeMinimized_p5n (a : BitVec 6) (m : BitVec 64) (b : BitVec 16) : (s.writeMinimized a m b).p5n = s.p5n := rfl
@[simp] theorem State.writeMinimized_lshn (a : BitVec 6) (m : BitVec 64) (b : BitVec 16) : (s.writeMinimized a m b).lshn = s.lshn := rfl
@[simp] theorem State.writeMinimized_digit (a : BitVec 6) (m : BitVec 64) (b : BitVec 16) : (s.writeMinimized a m b).digit = s.digit := rfl
@[simp] theorem State.writeMinimized_ndig (a : BitVec 6) (m : BitVec 64) (b : BitVec 16) : (s.writeMinimized a m b).ndig = s.ndig := rfl
@[simp] theorem State.writeMinimized_busy (a : BitVec 6) (m : BitVec 64) (b : BitVec 16) : (s.writeMinimized a m b).busy = s.busy := rfl
@[simp] theorem State.writeMinimized_phase (a : BitVec 6) (m : BitVec 64) (b : BitVec 16) : (s.writeMinimized a m b).phase = s.phase := rfl
@[simp] theorem State.writeMinimized_err (a : BitVec 6) (m : BitVec 64) (b : BitVec 16) : (s.writeMinimized a m b).err = s.err := rfl
@[simp] theorem State.writeMinimized_accnz (a : BitVec 6) (m : BitVec 64) (b : BitVec 16) : (s.writeMinimized a m b).accnz = s.accnz := rfl
@[simp] theorem State.writeMinimized_lastop (a : BitVec 6) (m : BitVec 64) (b : BitVec 16) : (s.writeMinimized a m b).lastop = s.lastop := rfl
@[simp] theorem State.writeMinimized_acc (a : BitVec 6) (m : BitVec 64) (b : BitVec 16) : (s.writeMinimized a m b).acc = s.acc := rfl
@[simp] theorem State.writeMinimized_cw (a : BitVec 6) (m : BitVec 64) (b : BitVec 16) : (s.writeMinimized a m b).cw = s.cw := rfl
@[simp] theorem State.writeMinimized_ustep (a : BitVec 6) (m : BitVec 64) (b : BitVec 16) : (s.writeMinimized a m b).ustep = s.ustep := rfl
@[simp] theorem State.writeMinimized_engReq (a : BitVec 6) (m : BitVec 64) (b : BitVec 16) : (s.writeMinimized a m b).engReq = s.engReq := rfl
@[simp] theorem State.writeMinimized_beat (a : BitVec 6) (m : BitVec 64) (b : BitVec 16) : (s.writeMinimized a m b).beat = s.beat := rfl
@[simp] theorem State.writeMinimized_dstream (a : BitVec 6) (m : BitVec 64) (b : BitVec 16) : (s.writeMinimized a m b).dstream = s.dstream := rfl
@[simp] theorem State.writeMinimized_rsp (a : BitVec 6) (m : BitVec 64) (b : BitVec 16) : (s.writeMinimized a m b).rsp = s.rsp := rfl
@[simp] theorem State.writeMinimized_agenda (a : BitVec 6) (m : BitVec 64) (b : BitVec 16) : (s.writeMinimized a m b).agenda = s.agenda := rfl
@[simp] theorem State.writeMinimized_engineReady (a : BitVec 6) (m : BitVec 64) (b : BitVec 16) : (s.writeMinimized a m b).engineReady = s.engineReady := rfl
@[simp] theorem State.writeMinimized_sinkReady (a : BitVec 6) (m : BitVec 64) (b : BitVec 16) : (s.writeMinimized a m b).sinkReady = s.sinkReady := rfl

/-! ### `State.writeDefracted` -/

@[simp] theorem State.writeDefracted_opb (n d b : BitVec 16) : (s.writeDefracted n d b).opb = s.opb := rfl
@[simp] theorem State.writeDefracted_bits (n d b : BitVec 16) : (s.writeDefracted n d b).bits = s.bits := rfl
@[simp] theorem State.writeDefracted_manf (n d b : BitVec 16) : (s.writeDefracted n d b).manf = s.manf := rfl
@[simp] theorem State.writeDefracted_sexp (n d b : BitVec 16) : (s.writeDefracted n d b).sexp = s.sexp := rfl
@[simp] theorem State.writeDefracted_kind (n d b : BitVec 16) : (s.writeDefracted n d b).kind = s.kind := rfl
@[simp] theorem State.writeDefracted_cmant (n d b : BitVec 16) : (s.writeDefracted n d b).cmant = s.cmant := rfl
@[simp] theorem State.writeDefracted_binexp (n d b : BitVec 16) : (s.writeDefracted n d b).binexp = b := rfl
@[simp] theorem State.writeDefracted_cneg (n d b : BitVec 16) : (s.writeDefracted n d b).cneg = s.cneg := rfl
@[simp] theorem State.writeDefracted_decexp (n d b : BitVec 16) : (s.writeDefracted n d b).decexp = d := rfl
@[simp] theorem State.writeDefracted_adj (n d b : BitVec 16) : (s.writeDefracted n d b).adj = s.adj := rfl
@[simp] theorem State.writeDefracted_p5n (n d b : BitVec 16) : (s.writeDefracted n d b).p5n = n := rfl
@[simp] theorem State.writeDefracted_lshn (n d b : BitVec 16) : (s.writeDefracted n d b).lshn = s.lshn := rfl
@[simp] theorem State.writeDefracted_digit (n d b : BitVec 16) : (s.writeDefracted n d b).digit = 0 := rfl
@[simp] theorem State.writeDefracted_ndig (n d b : BitVec 16) : (s.writeDefracted n d b).ndig = 0 := rfl
@[simp] theorem State.writeDefracted_busy (n d b : BitVec 16) : (s.writeDefracted n d b).busy = s.busy := rfl
@[simp] theorem State.writeDefracted_phase (n d b : BitVec 16) : (s.writeDefracted n d b).phase = s.phase := rfl
@[simp] theorem State.writeDefracted_err (n d b : BitVec 16) : (s.writeDefracted n d b).err = s.err := rfl
@[simp] theorem State.writeDefracted_accnz (n d b : BitVec 16) : (s.writeDefracted n d b).accnz = s.accnz := rfl
@[simp] theorem State.writeDefracted_lastop (n d b : BitVec 16) : (s.writeDefracted n d b).lastop = s.lastop := rfl
@[simp] theorem State.writeDefracted_acc (n d b : BitVec 16) : (s.writeDefracted n d b).acc = s.acc := rfl
@[simp] theorem State.writeDefracted_cw (n d b : BitVec 16) : (s.writeDefracted n d b).cw = s.cw := rfl
@[simp] theorem State.writeDefracted_ustep (n d b : BitVec 16) : (s.writeDefracted n d b).ustep = s.ustep := rfl
@[simp] theorem State.writeDefracted_engReq (n d b : BitVec 16) : (s.writeDefracted n d b).engReq = s.engReq := rfl
@[simp] theorem State.writeDefracted_beat (n d b : BitVec 16) : (s.writeDefracted n d b).beat = s.beat := rfl
@[simp] theorem State.writeDefracted_dstream (n d b : BitVec 16) : (s.writeDefracted n d b).dstream = s.dstream := rfl
@[simp] theorem State.writeDefracted_rsp (n d b : BitVec 16) : (s.writeDefracted n d b).rsp = s.rsp := rfl
@[simp] theorem State.writeDefracted_agenda (n d b : BitVec 16) : (s.writeDefracted n d b).agenda = s.agenda := rfl
@[simp] theorem State.writeDefracted_engineReady (n d b : BitVec 16) : (s.writeDefracted n d b).engineReady = s.engineReady := rfl
@[simp] theorem State.writeDefracted_sinkReady (n d b : BitVec 16) : (s.writeDefracted n d b).sinkReady = s.sinkReady := rfl

/-! ### `State.writeReduced` -/

@[simp] theorem State.writeReduced_opb (l : BitVec 15) (b : BitVec 16) : (s.writeReduced l b).opb = s.opb := rfl
@[simp] theorem State.writeReduced_bits (l : BitVec 15) (b : BitVec 16) : (s.writeReduced l b).bits = s.bits := rfl
@[simp] theorem State.writeReduced_manf (l : BitVec 15) (b : BitVec 16) : (s.writeReduced l b).manf = s.manf := rfl
@[simp] theorem State.writeReduced_sexp (l : BitVec 15) (b : BitVec 16) : (s.writeReduced l b).sexp = s.sexp := rfl
@[simp] theorem State.writeReduced_kind (l : BitVec 15) (b : BitVec 16) : (s.writeReduced l b).kind = s.kind := rfl
@[simp] theorem State.writeReduced_cmant (l : BitVec 15) (b : BitVec 16) : (s.writeReduced l b).cmant = s.cmant := rfl
@[simp] theorem State.writeReduced_binexp (l : BitVec 15) (b : BitVec 16) : (s.writeReduced l b).binexp = b := rfl
@[simp] theorem State.writeReduced_cneg (l : BitVec 15) (b : BitVec 16) : (s.writeReduced l b).cneg = s.cneg := rfl
@[simp] theorem State.writeReduced_decexp (l : BitVec 15) (b : BitVec 16) : (s.writeReduced l b).decexp = s.decexp := rfl
@[simp] theorem State.writeReduced_adj (l : BitVec 15) (b : BitVec 16) : (s.writeReduced l b).adj = s.adj := rfl
@[simp] theorem State.writeReduced_p5n (l : BitVec 15) (b : BitVec 16) : (s.writeReduced l b).p5n = s.p5n := rfl
@[simp] theorem State.writeReduced_lshn (l : BitVec 15) (b : BitVec 16) : (s.writeReduced l b).lshn = l := rfl
@[simp] theorem State.writeReduced_digit (l : BitVec 15) (b : BitVec 16) : (s.writeReduced l b).digit = s.digit := rfl
@[simp] theorem State.writeReduced_ndig (l : BitVec 15) (b : BitVec 16) : (s.writeReduced l b).ndig = s.ndig := rfl
@[simp] theorem State.writeReduced_busy (l : BitVec 15) (b : BitVec 16) : (s.writeReduced l b).busy = s.busy := rfl
@[simp] theorem State.writeReduced_phase (l : BitVec 15) (b : BitVec 16) : (s.writeReduced l b).phase = s.phase := rfl
@[simp] theorem State.writeReduced_err (l : BitVec 15) (b : BitVec 16) : (s.writeReduced l b).err = s.err := rfl
@[simp] theorem State.writeReduced_accnz (l : BitVec 15) (b : BitVec 16) : (s.writeReduced l b).accnz = s.accnz := rfl
@[simp] theorem State.writeReduced_lastop (l : BitVec 15) (b : BitVec 16) : (s.writeReduced l b).lastop = s.lastop := rfl
@[simp] theorem State.writeReduced_acc (l : BitVec 15) (b : BitVec 16) : (s.writeReduced l b).acc = s.acc := rfl
@[simp] theorem State.writeReduced_cw (l : BitVec 15) (b : BitVec 16) : (s.writeReduced l b).cw = s.cw := rfl
@[simp] theorem State.writeReduced_ustep (l : BitVec 15) (b : BitVec 16) : (s.writeReduced l b).ustep = s.ustep := rfl
@[simp] theorem State.writeReduced_engReq (l : BitVec 15) (b : BitVec 16) : (s.writeReduced l b).engReq = s.engReq := rfl
@[simp] theorem State.writeReduced_beat (l : BitVec 15) (b : BitVec 16) : (s.writeReduced l b).beat = s.beat := rfl
@[simp] theorem State.writeReduced_dstream (l : BitVec 15) (b : BitVec 16) : (s.writeReduced l b).dstream = s.dstream := rfl
@[simp] theorem State.writeReduced_rsp (l : BitVec 15) (b : BitVec 16) : (s.writeReduced l b).rsp = s.rsp := rfl
@[simp] theorem State.writeReduced_agenda (l : BitVec 15) (b : BitVec 16) : (s.writeReduced l b).agenda = s.agenda := rfl
@[simp] theorem State.writeReduced_engineReady (l : BitVec 15) (b : BitVec 16) : (s.writeReduced l b).engineReady = s.engineReady := rfl
@[simp] theorem State.writeReduced_sinkReady (l : BitVec 15) (b : BitVec 16) : (s.writeReduced l b).sinkReady = s.sinkReady := rfl

/-! ### `State.writeDigit` -/

@[simp] theorem State.writeDigit_opb (w : BitVec 16) (g : BitVec 7) (n : BitVec 16) : (s.writeDigit w g n).opb = s.opb := rfl
@[simp] theorem State.writeDigit_bits (w : BitVec 16) (g : BitVec 7) (n : BitVec 16) : (s.writeDigit w g n).bits = s.bits := rfl
@[simp] theorem State.writeDigit_manf (w : BitVec 16) (g : BitVec 7) (n : BitVec 16) : (s.writeDigit w g n).manf = s.manf := rfl
@[simp] theorem State.writeDigit_sexp (w : BitVec 16) (g : BitVec 7) (n : BitVec 16) : (s.writeDigit w g n).sexp = s.sexp := rfl
@[simp] theorem State.writeDigit_kind (w : BitVec 16) (g : BitVec 7) (n : BitVec 16) : (s.writeDigit w g n).kind = s.kind := rfl
@[simp] theorem State.writeDigit_cmant (w : BitVec 16) (g : BitVec 7) (n : BitVec 16) : (s.writeDigit w g n).cmant = s.cmant := rfl
@[simp] theorem State.writeDigit_binexp (w : BitVec 16) (g : BitVec 7) (n : BitVec 16) : (s.writeDigit w g n).binexp = s.binexp := rfl
@[simp] theorem State.writeDigit_cneg (w : BitVec 16) (g : BitVec 7) (n : BitVec 16) : (s.writeDigit w g n).cneg = s.cneg := rfl
@[simp] theorem State.writeDigit_decexp (w : BitVec 16) (g : BitVec 7) (n : BitVec 16) : (s.writeDigit w g n).decexp = w := rfl
@[simp] theorem State.writeDigit_adj (w : BitVec 16) (g : BitVec 7) (n : BitVec 16) : (s.writeDigit w g n).adj = s.adj := rfl
@[simp] theorem State.writeDigit_p5n (w : BitVec 16) (g : BitVec 7) (n : BitVec 16) : (s.writeDigit w g n).p5n = s.p5n := rfl
@[simp] theorem State.writeDigit_lshn (w : BitVec 16) (g : BitVec 7) (n : BitVec 16) : (s.writeDigit w g n).lshn = s.lshn := rfl
@[simp] theorem State.writeDigit_digit (w : BitVec 16) (g : BitVec 7) (n : BitVec 16) : (s.writeDigit w g n).digit = g := rfl
@[simp] theorem State.writeDigit_ndig (w : BitVec 16) (g : BitVec 7) (n : BitVec 16) : (s.writeDigit w g n).ndig = n := rfl
@[simp] theorem State.writeDigit_busy (w : BitVec 16) (g : BitVec 7) (n : BitVec 16) : (s.writeDigit w g n).busy = s.busy := rfl
@[simp] theorem State.writeDigit_phase (w : BitVec 16) (g : BitVec 7) (n : BitVec 16) : (s.writeDigit w g n).phase = s.phase := rfl
@[simp] theorem State.writeDigit_err (w : BitVec 16) (g : BitVec 7) (n : BitVec 16) : (s.writeDigit w g n).err = s.err := rfl
@[simp] theorem State.writeDigit_accnz (w : BitVec 16) (g : BitVec 7) (n : BitVec 16) : (s.writeDigit w g n).accnz = s.accnz := rfl
@[simp] theorem State.writeDigit_lastop (w : BitVec 16) (g : BitVec 7) (n : BitVec 16) : (s.writeDigit w g n).lastop = s.lastop := rfl
@[simp] theorem State.writeDigit_acc (w : BitVec 16) (g : BitVec 7) (n : BitVec 16) : (s.writeDigit w g n).acc = s.acc := rfl
@[simp] theorem State.writeDigit_cw (w : BitVec 16) (g : BitVec 7) (n : BitVec 16) : (s.writeDigit w g n).cw = s.cw := rfl
@[simp] theorem State.writeDigit_ustep (w : BitVec 16) (g : BitVec 7) (n : BitVec 16) : (s.writeDigit w g n).ustep = s.ustep := rfl
@[simp] theorem State.writeDigit_engReq (w : BitVec 16) (g : BitVec 7) (n : BitVec 16) : (s.writeDigit w g n).engReq = s.engReq := rfl
@[simp] theorem State.writeDigit_beat (w : BitVec 16) (g : BitVec 7) (n : BitVec 16) : (s.writeDigit w g n).beat = s.beat := rfl
@[simp] theorem State.writeDigit_dstream (w : BitVec 16) (g : BitVec 7) (n : BitVec 16) : (s.writeDigit w g n).dstream = s.dstream := rfl
@[simp] theorem State.writeDigit_rsp (w : BitVec 16) (g : BitVec 7) (n : BitVec 16) : (s.writeDigit w g n).rsp = s.rsp := rfl
@[simp] theorem State.writeDigit_agenda (w : BitVec 16) (g : BitVec 7) (n : BitVec 16) : (s.writeDigit w g n).agenda = s.agenda := rfl
@[simp] theorem State.writeDigit_engineReady (w : BitVec 16) (g : BitVec 7) (n : BitVec 16) : (s.writeDigit w g n).engineReady = s.engineReady := rfl
@[simp] theorem State.writeDigit_sinkReady (w : BitVec 16) (g : BitVec 7) (n : BitVec 16) : (s.writeDigit w g n).sinkReady = s.sinkReady := rfl

/-! ### `State.engineStep` -/

@[simp] theorem State.engineStep_opb (r : EngineRequest) : (s.engineStep r).opb = s.opb := rfl
@[simp] theorem State.engineStep_bits (r : EngineRequest) : (s.engineStep r).bits = s.bits := rfl
@[simp] theorem State.engineStep_manf (r : EngineRequest) : (s.engineStep r).manf = s.manf := rfl
@[simp] theorem State.engineStep_sexp (r : EngineRequest) : (s.engineStep r).sexp = s.sexp := rfl
@[simp] theorem State.engineStep_kind (r : EngineRequest) : (s.engineStep r).kind = s.kind := rfl
@[simp] theorem State.engineStep_cmant (r : EngineRequest) : (s.engineStep r).cmant = s.cmant := rfl
@[simp] theorem State.engineStep_binexp (r : EngineRequest) : (s.engineStep r).binexp = s.binexp := rfl
@[simp] theorem State.engineStep_cneg (r : EngineRequest) : (s.engineStep r).cneg = s.cneg := rfl
@[simp] theorem State.engineStep_decexp (r : EngineRequest) : (s.engineStep r).decexp = s.decexp := rfl
@[simp] theorem State.engineStep_adj (r : EngineRequest) : (s.engineStep r).adj = s.adj := rfl
@[simp] theorem State.engineStep_p5n (r : EngineRequest) : (s.engineStep r).p5n = s.p5n := rfl
@[simp] theorem State.engineStep_lshn (r : EngineRequest) : (s.engineStep r).lshn = s.lshn := rfl
@[simp] theorem State.engineStep_digit (r : EngineRequest) : (s.engineStep r).digit = s.digit := rfl
@[simp] theorem State.engineStep_ndig (r : EngineRequest) : (s.engineStep r).ndig = s.ndig := rfl
@[simp] theorem State.engineStep_busy (r : EngineRequest) : (s.engineStep r).busy = s.busy := rfl
@[simp] theorem State.engineStep_phase (r : EngineRequest) : (s.engineStep r).phase = s.phase := rfl
@[simp] theorem State.engineStep_err (r : EngineRequest) : (s.engineStep r).err = s.err := rfl
@[simp] theorem State.engineStep_accnz (r : EngineRequest) : (s.engineStep r).accnz = (r.run s.acc).nz := rfl
@[simp] theorem State.engineStep_lastop (r : EngineRequest) : (s.engineStep r).lastop = s.lastop := rfl
@[simp] theorem State.engineStep_acc (r : EngineRequest) : (s.engineStep r).acc = (r.run s.acc).acc := rfl
@[simp] theorem State.engineStep_cw (r : EngineRequest) : (s.engineStep r).cw = s.cw := rfl
@[simp] theorem State.engineStep_ustep (r : EngineRequest) : (s.engineStep r).ustep = s.ustep := rfl
@[simp] theorem State.engineStep_engReq (r : EngineRequest) : (s.engineStep r).engReq = none := rfl
@[simp] theorem State.engineStep_beat (r : EngineRequest) : (s.engineStep r).beat = s.beat := rfl
@[simp] theorem State.engineStep_dstream (r : EngineRequest) : (s.engineStep r).dstream = s.dstream := rfl
@[simp] theorem State.engineStep_rsp (r : EngineRequest) : (s.engineStep r).rsp = s.rsp := rfl
@[simp] theorem State.engineStep_agenda (r : EngineRequest) : (s.engineStep r).agenda = s.agenda := rfl
@[simp] theorem State.engineStep_engineReady (r : EngineRequest) : (s.engineStep r).engineReady = s.engineReady := rfl
@[simp] theorem State.engineStep_sinkReady (r : EngineRequest) : (s.engineStep r).sinkReady = s.sinkReady := rfl

/-! ### `State.awaitEngine` -/

@[simp] theorem State.awaitEngine_opb (r : EngineRequest) : (s.awaitEngine r).opb = s.opb := rfl
@[simp] theorem State.awaitEngine_bits (r : EngineRequest) : (s.awaitEngine r).bits = s.bits := rfl
@[simp] theorem State.awaitEngine_manf (r : EngineRequest) : (s.awaitEngine r).manf = s.manf := rfl
@[simp] theorem State.awaitEngine_sexp (r : EngineRequest) : (s.awaitEngine r).sexp = s.sexp := rfl
@[simp] theorem State.awaitEngine_kind (r : EngineRequest) : (s.awaitEngine r).kind = s.kind := rfl
@[simp] theorem State.awaitEngine_cmant (r : EngineRequest) : (s.awaitEngine r).cmant = s.cmant := rfl
@[simp] theorem State.awaitEngine_binexp (r : EngineRequest) : (s.awaitEngine r).binexp = s.binexp := rfl
@[simp] theorem State.awaitEngine_cneg (r : EngineRequest) : (s.awaitEngine r).cneg = s.cneg := rfl
@[simp] theorem State.awaitEngine_decexp (r : EngineRequest) : (s.awaitEngine r).decexp = s.decexp := rfl
@[simp] theorem State.awaitEngine_adj (r : EngineRequest) : (s.awaitEngine r).adj = s.adj := rfl
@[simp] theorem State.awaitEngine_p5n (r : EngineRequest) : (s.awaitEngine r).p5n = s.p5n := rfl
@[simp] theorem State.awaitEngine_lshn (r : EngineRequest) : (s.awaitEngine r).lshn = s.lshn := rfl
@[simp] theorem State.awaitEngine_digit (r : EngineRequest) : (s.awaitEngine r).digit = s.digit := rfl
@[simp] theorem State.awaitEngine_ndig (r : EngineRequest) : (s.awaitEngine r).ndig = s.ndig := rfl
@[simp] theorem State.awaitEngine_busy (r : EngineRequest) : (s.awaitEngine r).busy = s.busy := rfl
@[simp] theorem State.awaitEngine_phase (r : EngineRequest) : (s.awaitEngine r).phase = s.phase := rfl
@[simp] theorem State.awaitEngine_err (r : EngineRequest) : (s.awaitEngine r).err = s.err := rfl
@[simp] theorem State.awaitEngine_accnz (r : EngineRequest) : (s.awaitEngine r).accnz = s.accnz := rfl
@[simp] theorem State.awaitEngine_lastop (r : EngineRequest) : (s.awaitEngine r).lastop = s.lastop := rfl
@[simp] theorem State.awaitEngine_acc (r : EngineRequest) : (s.awaitEngine r).acc = s.acc := rfl
@[simp] theorem State.awaitEngine_cw (r : EngineRequest) : (s.awaitEngine r).cw = s.cw := rfl
@[simp] theorem State.awaitEngine_ustep (r : EngineRequest) : (s.awaitEngine r).ustep = s.ustep := rfl
@[simp] theorem State.awaitEngine_engReq (r : EngineRequest) : (s.awaitEngine r).engReq = some r := rfl
@[simp] theorem State.awaitEngine_beat (r : EngineRequest) : (s.awaitEngine r).beat = s.beat := rfl
@[simp] theorem State.awaitEngine_dstream (r : EngineRequest) : (s.awaitEngine r).dstream = s.dstream := rfl
@[simp] theorem State.awaitEngine_rsp (r : EngineRequest) : (s.awaitEngine r).rsp = s.rsp := rfl
@[simp] theorem State.awaitEngine_agenda (r : EngineRequest) : (s.awaitEngine r).agenda = s.agenda := rfl
@[simp] theorem State.awaitEngine_engineReady (r : EngineRequest) : (s.awaitEngine r).engineReady = s.engineReady := rfl
@[simp] theorem State.awaitEngine_sinkReady (r : EngineRequest) : (s.awaitEngine r).sinkReady = s.sinkReady := rfl

/-! ### `State.awaitSink` -/

@[simp] theorem State.awaitSink_opb (b : Beat) : (s.awaitSink b).opb = s.opb := rfl
@[simp] theorem State.awaitSink_bits (b : Beat) : (s.awaitSink b).bits = s.bits := rfl
@[simp] theorem State.awaitSink_manf (b : Beat) : (s.awaitSink b).manf = s.manf := rfl
@[simp] theorem State.awaitSink_sexp (b : Beat) : (s.awaitSink b).sexp = s.sexp := rfl
@[simp] theorem State.awaitSink_kind (b : Beat) : (s.awaitSink b).kind = s.kind := rfl
@[simp] theorem State.awaitSink_cmant (b : Beat) : (s.awaitSink b).cmant = s.cmant := rfl
@[simp] theorem State.awaitSink_binexp (b : Beat) : (s.awaitSink b).binexp = s.binexp := rfl
@[simp] theorem State.awaitSink_cneg (b : Beat) : (s.awaitSink b).cneg = s.cneg := rfl
@[simp] theorem State.awaitSink_decexp (b : Beat) : (s.awaitSink b).decexp = s.decexp := rfl
@[simp] theorem State.awaitSink_adj (b : Beat) : (s.awaitSink b).adj = s.adj := rfl
@[simp] theorem State.awaitSink_p5n (b : Beat) : (s.awaitSink b).p5n = s.p5n := rfl
@[simp] theorem State.awaitSink_lshn (b : Beat) : (s.awaitSink b).lshn = s.lshn := rfl
@[simp] theorem State.awaitSink_digit (b : Beat) : (s.awaitSink b).digit = s.digit := rfl
@[simp] theorem State.awaitSink_ndig (b : Beat) : (s.awaitSink b).ndig = s.ndig := rfl
@[simp] theorem State.awaitSink_busy (b : Beat) : (s.awaitSink b).busy = s.busy := rfl
@[simp] theorem State.awaitSink_phase (b : Beat) : (s.awaitSink b).phase = s.phase := rfl
@[simp] theorem State.awaitSink_err (b : Beat) : (s.awaitSink b).err = s.err := rfl
@[simp] theorem State.awaitSink_accnz (b : Beat) : (s.awaitSink b).accnz = s.accnz := rfl
@[simp] theorem State.awaitSink_lastop (b : Beat) : (s.awaitSink b).lastop = s.lastop := rfl
@[simp] theorem State.awaitSink_acc (b : Beat) : (s.awaitSink b).acc = s.acc := rfl
@[simp] theorem State.awaitSink_cw (b : Beat) : (s.awaitSink b).cw = s.cw := rfl
@[simp] theorem State.awaitSink_ustep (b : Beat) : (s.awaitSink b).ustep = s.ustep := rfl
@[simp] theorem State.awaitSink_engReq (b : Beat) : (s.awaitSink b).engReq = none := rfl
@[simp] theorem State.awaitSink_beat (b : Beat) : (s.awaitSink b).beat = some b := rfl
@[simp] theorem State.awaitSink_dstream (b : Beat) : (s.awaitSink b).dstream = s.dstream := rfl
@[simp] theorem State.awaitSink_rsp (b : Beat) : (s.awaitSink b).rsp = s.rsp := rfl
@[simp] theorem State.awaitSink_agenda (b : Beat) : (s.awaitSink b).agenda = s.agenda := rfl
@[simp] theorem State.awaitSink_engineReady (b : Beat) : (s.awaitSink b).engineReady = s.engineReady := rfl
@[simp] theorem State.awaitSink_sinkReady (b : Beat) : (s.awaitSink b).sinkReady = s.sinkReady := rfl

/-! ### `State.emit` -/

@[simp] theorem State.emit_opb (b : Beat) : (s.emit b).opb = s.opb := rfl
@[simp] theorem State.emit_bits (b : Beat) : (s.emit b).bits = s.bits := rfl
@[simp] theorem State.emit_manf (b : Beat) : (s.emit b).manf = s.manf := rfl
@[simp] theorem State.emit_sexp (b : Beat) : (s.emit b).sexp = s.sexp := rfl
@[simp] theorem State.emit_kind (b : Beat) : (s.emit b).kind = s.kind := rfl
@[simp] theorem State.emit_cmant (b : Beat) : (s.emit b).cmant = s.cmant := rfl
@[simp] theorem State.emit_binexp (b : Beat) : (s.emit b).binexp = s.binexp := rfl
@[simp] theorem State.emit_cneg (b : Beat) : (s.emit b).cneg = s.cneg := rfl
@[simp] theorem State.emit_decexp (b : Beat) : (s.emit b).decexp = s.decexp := rfl
@[simp] theorem State.emit_adj (b : Beat) : (s.emit b).adj = s.adj := rfl
@[simp] theorem State.emit_p5n (b : Beat) : (s.emit b).p5n = s.p5n := rfl
@[simp] theorem State.emit_lshn (b : Beat) : (s.emit b).lshn = s.lshn := rfl
@[simp] theorem State.emit_digit (b : Beat) : (s.emit b).digit = s.digit := rfl
@[simp] theorem State.emit_ndig (b : Beat) : (s.emit b).ndig = s.ndig := rfl
@[simp] theorem State.emit_busy (b : Beat) : (s.emit b).busy = s.busy := rfl
@[simp] theorem State.emit_phase (b : Beat) : (s.emit b).phase = s.phase := rfl
@[simp] theorem State.emit_err (b : Beat) : (s.emit b).err = s.err := rfl
@[simp] theorem State.emit_accnz (b : Beat) : (s.emit b).accnz = s.accnz := rfl
@[simp] theorem State.emit_lastop (b : Beat) : (s.emit b).lastop = s.lastop := rfl
@[simp] theorem State.emit_acc (b : Beat) : (s.emit b).acc = s.acc := rfl
@[simp] theorem State.emit_cw (b : Beat) : (s.emit b).cw = s.cw := rfl
@[simp] theorem State.emit_ustep (b : Beat) : (s.emit b).ustep = s.ustep := rfl
@[simp] theorem State.emit_engReq (b : Beat) : (s.emit b).engReq = s.engReq := rfl
@[simp] theorem State.emit_beat (b : Beat) : (s.emit b).beat = none := rfl
@[simp] theorem State.emit_dstream (b : Beat) : (s.emit b).dstream = s.dstream ++ [b] := rfl
@[simp] theorem State.emit_rsp (b : Beat) : (s.emit b).rsp = s.rsp := rfl
@[simp] theorem State.emit_agenda (b : Beat) : (s.emit b).agenda = s.agenda := rfl
@[simp] theorem State.emit_engineReady (b : Beat) : (s.emit b).engineReady = s.engineReady := rfl
@[simp] theorem State.emit_sinkReady (b : Beat) : (s.emit b).sinkReady = s.sinkReady := rfl

/-! ### `State.respond` -/

@[simp] theorem State.respond_opb (r : Response) : (s.respond r).opb = s.opb := rfl
@[simp] theorem State.respond_bits (r : Response) : (s.respond r).bits = s.bits := rfl
@[simp] theorem State.respond_manf (r : Response) : (s.respond r).manf = s.manf := rfl
@[simp] theorem State.respond_sexp (r : Response) : (s.respond r).sexp = s.sexp := rfl
@[simp] theorem State.respond_kind (r : Response) : (s.respond r).kind = s.kind := rfl
@[simp] theorem State.respond_cmant (r : Response) : (s.respond r).cmant = s.cmant := rfl
@[simp] theorem State.respond_binexp (r : Response) : (s.respond r).binexp = s.binexp := rfl
@[simp] theorem State.respond_cneg (r : Response) : (s.respond r).cneg = s.cneg := rfl
@[simp] theorem State.respond_decexp (r : Response) : (s.respond r).decexp = s.decexp := rfl
@[simp] theorem State.respond_adj (r : Response) : (s.respond r).adj = s.adj := rfl
@[simp] theorem State.respond_p5n (r : Response) : (s.respond r).p5n = s.p5n := rfl
@[simp] theorem State.respond_lshn (r : Response) : (s.respond r).lshn = s.lshn := rfl
@[simp] theorem State.respond_digit (r : Response) : (s.respond r).digit = s.digit := rfl
@[simp] theorem State.respond_ndig (r : Response) : (s.respond r).ndig = s.ndig := rfl
@[simp] theorem State.respond_busy (r : Response) : (s.respond r).busy = s.busy := rfl
@[simp] theorem State.respond_phase (r : Response) : (s.respond r).phase = s.phase := rfl
@[simp] theorem State.respond_err (r : Response) : (s.respond r).err = s.err := rfl
@[simp] theorem State.respond_accnz (r : Response) : (s.respond r).accnz = s.accnz := rfl
@[simp] theorem State.respond_lastop (r : Response) : (s.respond r).lastop = s.lastop := rfl
@[simp] theorem State.respond_acc (r : Response) : (s.respond r).acc = s.acc := rfl
@[simp] theorem State.respond_cw (r : Response) : (s.respond r).cw = s.cw := rfl
@[simp] theorem State.respond_ustep (r : Response) : (s.respond r).ustep = s.ustep := rfl
@[simp] theorem State.respond_engReq (r : Response) : (s.respond r).engReq = s.engReq := rfl
@[simp] theorem State.respond_beat (r : Response) : (s.respond r).beat = s.beat := rfl
@[simp] theorem State.respond_dstream (r : Response) : (s.respond r).dstream = s.dstream := rfl
@[simp] theorem State.respond_rsp (r : Response) : (s.respond r).rsp = some r := rfl
@[simp] theorem State.respond_agenda (r : Response) : (s.respond r).agenda = s.agenda := rfl
@[simp] theorem State.respond_engineReady (r : Response) : (s.respond r).engineReady = s.engineReady := rfl
@[simp] theorem State.respond_sinkReady (r : Response) : (s.respond r).sinkReady = s.sinkReady := rfl

/-! ### `State.hostCmant` -/

@[simp] theorem State.hostCmant_opb (m : BitVec 64) : (s.hostCmant m).opb = s.opb := rfl
@[simp] theorem State.hostCmant_bits (m : BitVec 64) : (s.hostCmant m).bits = s.bits := rfl
@[simp] theorem State.hostCmant_manf (m : BitVec 64) : (s.hostCmant m).manf = s.manf := rfl
@[simp] theorem State.hostCmant_sexp (m : BitVec 64) : (s.hostCmant m).sexp = s.sexp := rfl
@[simp] theorem State.hostCmant_kind (m : BitVec 64) : (s.hostCmant m).kind = s.kind := rfl
@[simp] theorem State.hostCmant_cmant (m : BitVec 64) : (s.hostCmant m).cmant = m := rfl
@[simp] theorem State.hostCmant_binexp (m : BitVec 64) : (s.hostCmant m).binexp = s.binexp := rfl
@[simp] theorem State.hostCmant_cneg (m : BitVec 64) : (s.hostCmant m).cneg = s.cneg := rfl
@[simp] theorem State.hostCmant_decexp (m : BitVec 64) : (s.hostCmant m).decexp = s.decexp := rfl
@[simp] theorem State.hostCmant_adj (m : BitVec 64) : (s.hostCmant m).adj = s.adj := rfl
@[simp] theorem State.hostCmant_p5n (m : BitVec 64) : (s.hostCmant m).p5n = s.p5n := rfl
@[simp] theorem State.hostCmant_lshn (m : BitVec 64) : (s.hostCmant m).lshn = s.lshn := rfl
@[simp] theorem State.hostCmant_digit (m : BitVec 64) : (s.hostCmant m).digit = s.digit := rfl
@[simp] theorem State.hostCmant_ndig (m : BitVec 64) : (s.hostCmant m).ndig = s.ndig := rfl
@[simp] theorem State.hostCmant_busy (m : BitVec 64) : (s.hostCmant m).busy = s.busy := rfl
@[simp] theorem State.hostCmant_phase (m : BitVec 64) : (s.hostCmant m).phase = .loaded := rfl
@[simp] theorem State.hostCmant_err (m : BitVec 64) : (s.hostCmant m).err = s.err := rfl
@[simp] theorem State.hostCmant_accnz (m : BitVec 64) : (s.hostCmant m).accnz = s.accnz := rfl
@[simp] theorem State.hostCmant_lastop (m : BitVec 64) : (s.hostCmant m).lastop = s.lastop := rfl
@[simp] theorem State.hostCmant_acc (m : BitVec 64) : (s.hostCmant m).acc = s.acc := rfl
@[simp] theorem State.hostCmant_cw (m : BitVec 64) : (s.hostCmant m).cw = s.cw := rfl
@[simp] theorem State.hostCmant_ustep (m : BitVec 64) : (s.hostCmant m).ustep = s.ustep := rfl
@[simp] theorem State.hostCmant_engReq (m : BitVec 64) : (s.hostCmant m).engReq = s.engReq := rfl
@[simp] theorem State.hostCmant_beat (m : BitVec 64) : (s.hostCmant m).beat = s.beat := rfl
@[simp] theorem State.hostCmant_dstream (m : BitVec 64) : (s.hostCmant m).dstream = s.dstream := rfl
@[simp] theorem State.hostCmant_rsp (m : BitVec 64) : (s.hostCmant m).rsp = s.rsp := rfl
@[simp] theorem State.hostCmant_agenda (m : BitVec 64) : (s.hostCmant m).agenda = s.agenda := rfl
@[simp] theorem State.hostCmant_engineReady (m : BitVec 64) : (s.hostCmant m).engineReady = s.engineReady := rfl
@[simp] theorem State.hostCmant_sinkReady (m : BitVec 64) : (s.hostCmant m).sinkReady = s.sinkReady := rfl

/-! ### `State.hostBinexp` -/

@[simp] theorem State.hostBinexp_opb (b : BitVec 16) : (s.hostBinexp b).opb = s.opb := rfl
@[simp] theorem State.hostBinexp_bits (b : BitVec 16) : (s.hostBinexp b).bits = s.bits := rfl
@[simp] theorem State.hostBinexp_manf (b : BitVec 16) : (s.hostBinexp b).manf = s.manf := rfl
@[simp] theorem State.hostBinexp_sexp (b : BitVec 16) : (s.hostBinexp b).sexp = s.sexp := rfl
@[simp] theorem State.hostBinexp_kind (b : BitVec 16) : (s.hostBinexp b).kind = s.kind := rfl
@[simp] theorem State.hostBinexp_cmant (b : BitVec 16) : (s.hostBinexp b).cmant = s.cmant := rfl
@[simp] theorem State.hostBinexp_binexp (b : BitVec 16) : (s.hostBinexp b).binexp = b := rfl
@[simp] theorem State.hostBinexp_cneg (b : BitVec 16) : (s.hostBinexp b).cneg = s.cneg := rfl
@[simp] theorem State.hostBinexp_decexp (b : BitVec 16) : (s.hostBinexp b).decexp = s.decexp := rfl
@[simp] theorem State.hostBinexp_adj (b : BitVec 16) : (s.hostBinexp b).adj = s.adj := rfl
@[simp] theorem State.hostBinexp_p5n (b : BitVec 16) : (s.hostBinexp b).p5n = s.p5n := rfl
@[simp] theorem State.hostBinexp_lshn (b : BitVec 16) : (s.hostBinexp b).lshn = s.lshn := rfl
@[simp] theorem State.hostBinexp_digit (b : BitVec 16) : (s.hostBinexp b).digit = s.digit := rfl
@[simp] theorem State.hostBinexp_ndig (b : BitVec 16) : (s.hostBinexp b).ndig = s.ndig := rfl
@[simp] theorem State.hostBinexp_busy (b : BitVec 16) : (s.hostBinexp b).busy = s.busy := rfl
@[simp] theorem State.hostBinexp_phase (b : BitVec 16) : (s.hostBinexp b).phase = .loaded := rfl
@[simp] theorem State.hostBinexp_err (b : BitVec 16) : (s.hostBinexp b).err = s.err := rfl
@[simp] theorem State.hostBinexp_accnz (b : BitVec 16) : (s.hostBinexp b).accnz = s.accnz := rfl
@[simp] theorem State.hostBinexp_lastop (b : BitVec 16) : (s.hostBinexp b).lastop = s.lastop := rfl
@[simp] theorem State.hostBinexp_acc (b : BitVec 16) : (s.hostBinexp b).acc = s.acc := rfl
@[simp] theorem State.hostBinexp_cw (b : BitVec 16) : (s.hostBinexp b).cw = s.cw := rfl
@[simp] theorem State.hostBinexp_ustep (b : BitVec 16) : (s.hostBinexp b).ustep = s.ustep := rfl
@[simp] theorem State.hostBinexp_engReq (b : BitVec 16) : (s.hostBinexp b).engReq = s.engReq := rfl
@[simp] theorem State.hostBinexp_beat (b : BitVec 16) : (s.hostBinexp b).beat = s.beat := rfl
@[simp] theorem State.hostBinexp_dstream (b : BitVec 16) : (s.hostBinexp b).dstream = s.dstream := rfl
@[simp] theorem State.hostBinexp_rsp (b : BitVec 16) : (s.hostBinexp b).rsp = s.rsp := rfl
@[simp] theorem State.hostBinexp_agenda (b : BitVec 16) : (s.hostBinexp b).agenda = s.agenda := rfl
@[simp] theorem State.hostBinexp_engineReady (b : BitVec 16) : (s.hostBinexp b).engineReady = s.engineReady := rfl
@[simp] theorem State.hostBinexp_sinkReady (b : BitVec 16) : (s.hostBinexp b).sinkReady = s.sinkReady := rfl

/-! ### `State.hostOpb` -/

@[simp] theorem State.hostOpb_opb (v : BitVec 128) : (s.hostOpb v).opb = v := rfl
@[simp] theorem State.hostOpb_bits (v : BitVec 128) : (s.hostOpb v).bits = s.bits := rfl
@[simp] theorem State.hostOpb_manf (v : BitVec 128) : (s.hostOpb v).manf = s.manf := rfl
@[simp] theorem State.hostOpb_sexp (v : BitVec 128) : (s.hostOpb v).sexp = s.sexp := rfl
@[simp] theorem State.hostOpb_kind (v : BitVec 128) : (s.hostOpb v).kind = s.kind := rfl
@[simp] theorem State.hostOpb_cmant (v : BitVec 128) : (s.hostOpb v).cmant = s.cmant := rfl
@[simp] theorem State.hostOpb_binexp (v : BitVec 128) : (s.hostOpb v).binexp = s.binexp := rfl
@[simp] theorem State.hostOpb_cneg (v : BitVec 128) : (s.hostOpb v).cneg = s.cneg := rfl
@[simp] theorem State.hostOpb_decexp (v : BitVec 128) : (s.hostOpb v).decexp = s.decexp := rfl
@[simp] theorem State.hostOpb_adj (v : BitVec 128) : (s.hostOpb v).adj = s.adj := rfl
@[simp] theorem State.hostOpb_p5n (v : BitVec 128) : (s.hostOpb v).p5n = s.p5n := rfl
@[simp] theorem State.hostOpb_lshn (v : BitVec 128) : (s.hostOpb v).lshn = s.lshn := rfl
@[simp] theorem State.hostOpb_digit (v : BitVec 128) : (s.hostOpb v).digit = s.digit := rfl
@[simp] theorem State.hostOpb_ndig (v : BitVec 128) : (s.hostOpb v).ndig = s.ndig := rfl
@[simp] theorem State.hostOpb_busy (v : BitVec 128) : (s.hostOpb v).busy = s.busy := rfl
@[simp] theorem State.hostOpb_phase (v : BitVec 128) : (s.hostOpb v).phase = s.phase := rfl
@[simp] theorem State.hostOpb_err (v : BitVec 128) : (s.hostOpb v).err = s.err := rfl
@[simp] theorem State.hostOpb_accnz (v : BitVec 128) : (s.hostOpb v).accnz = s.accnz := rfl
@[simp] theorem State.hostOpb_lastop (v : BitVec 128) : (s.hostOpb v).lastop = s.lastop := rfl
@[simp] theorem State.hostOpb_acc (v : BitVec 128) : (s.hostOpb v).acc = s.acc := rfl
@[simp] theorem State.hostOpb_cw (v : BitVec 128) : (s.hostOpb v).cw = s.cw := rfl
@[simp] theorem State.hostOpb_ustep (v : BitVec 128) : (s.hostOpb v).ustep = s.ustep := rfl
@[simp] theorem State.hostOpb_engReq (v : BitVec 128) : (s.hostOpb v).engReq = s.engReq := rfl
@[simp] theorem State.hostOpb_beat (v : BitVec 128) : (s.hostOpb v).beat = s.beat := rfl
@[simp] theorem State.hostOpb_dstream (v : BitVec 128) : (s.hostOpb v).dstream = s.dstream := rfl
@[simp] theorem State.hostOpb_rsp (v : BitVec 128) : (s.hostOpb v).rsp = s.rsp := rfl
@[simp] theorem State.hostOpb_agenda (v : BitVec 128) : (s.hostOpb v).agenda = s.agenda := rfl
@[simp] theorem State.hostOpb_engineReady (v : BitVec 128) : (s.hostOpb v).engineReady = s.engineReady := rfl
@[simp] theorem State.hostOpb_sinkReady (v : BitVec 128) : (s.hostOpb v).sinkReady = s.sinkReady := rfl

/-! ### `State.hostBits` -/

@[simp] theorem State.hostBits_opb (v : BitVec 80) : (s.hostBits v).opb = s.opb := rfl
@[simp] theorem State.hostBits_bits (v : BitVec 80) : (s.hostBits v).bits = v := rfl
@[simp] theorem State.hostBits_manf (v : BitVec 80) : (s.hostBits v).manf = s.manf := rfl
@[simp] theorem State.hostBits_sexp (v : BitVec 80) : (s.hostBits v).sexp = s.sexp := rfl
@[simp] theorem State.hostBits_kind (v : BitVec 80) : (s.hostBits v).kind = s.kind := rfl
@[simp] theorem State.hostBits_cmant (v : BitVec 80) : (s.hostBits v).cmant = s.cmant := rfl
@[simp] theorem State.hostBits_binexp (v : BitVec 80) : (s.hostBits v).binexp = s.binexp := rfl
@[simp] theorem State.hostBits_cneg (v : BitVec 80) : (s.hostBits v).cneg = s.cneg := rfl
@[simp] theorem State.hostBits_decexp (v : BitVec 80) : (s.hostBits v).decexp = s.decexp := rfl
@[simp] theorem State.hostBits_adj (v : BitVec 80) : (s.hostBits v).adj = s.adj := rfl
@[simp] theorem State.hostBits_p5n (v : BitVec 80) : (s.hostBits v).p5n = s.p5n := rfl
@[simp] theorem State.hostBits_lshn (v : BitVec 80) : (s.hostBits v).lshn = s.lshn := rfl
@[simp] theorem State.hostBits_digit (v : BitVec 80) : (s.hostBits v).digit = s.digit := rfl
@[simp] theorem State.hostBits_ndig (v : BitVec 80) : (s.hostBits v).ndig = s.ndig := rfl
@[simp] theorem State.hostBits_busy (v : BitVec 80) : (s.hostBits v).busy = s.busy := rfl
@[simp] theorem State.hostBits_phase (v : BitVec 80) : (s.hostBits v).phase = s.phase := rfl
@[simp] theorem State.hostBits_err (v : BitVec 80) : (s.hostBits v).err = s.err := rfl
@[simp] theorem State.hostBits_accnz (v : BitVec 80) : (s.hostBits v).accnz = s.accnz := rfl
@[simp] theorem State.hostBits_lastop (v : BitVec 80) : (s.hostBits v).lastop = s.lastop := rfl
@[simp] theorem State.hostBits_acc (v : BitVec 80) : (s.hostBits v).acc = s.acc := rfl
@[simp] theorem State.hostBits_cw (v : BitVec 80) : (s.hostBits v).cw = s.cw := rfl
@[simp] theorem State.hostBits_ustep (v : BitVec 80) : (s.hostBits v).ustep = s.ustep := rfl
@[simp] theorem State.hostBits_engReq (v : BitVec 80) : (s.hostBits v).engReq = s.engReq := rfl
@[simp] theorem State.hostBits_beat (v : BitVec 80) : (s.hostBits v).beat = s.beat := rfl
@[simp] theorem State.hostBits_dstream (v : BitVec 80) : (s.hostBits v).dstream = s.dstream := rfl
@[simp] theorem State.hostBits_rsp (v : BitVec 80) : (s.hostBits v).rsp = s.rsp := rfl
@[simp] theorem State.hostBits_agenda (v : BitVec 80) : (s.hostBits v).agenda = s.agenda := rfl
@[simp] theorem State.hostBits_engineReady (v : BitVec 80) : (s.hostBits v).engineReady = s.engineReady := rfl
@[simp] theorem State.hostBits_sinkReady (v : BitVec 80) : (s.hostBits v).sinkReady = s.sinkReady := rfl

/-! ### `State.hostManf` -/

@[simp] theorem State.hostManf_opb (v : BitVec 64) : (s.hostManf v).opb = s.opb := rfl
@[simp] theorem State.hostManf_bits (v : BitVec 64) : (s.hostManf v).bits = s.bits := rfl
@[simp] theorem State.hostManf_manf (v : BitVec 64) : (s.hostManf v).manf = v := rfl
@[simp] theorem State.hostManf_sexp (v : BitVec 64) : (s.hostManf v).sexp = s.sexp := rfl
@[simp] theorem State.hostManf_kind (v : BitVec 64) : (s.hostManf v).kind = s.kind := rfl
@[simp] theorem State.hostManf_cmant (v : BitVec 64) : (s.hostManf v).cmant = s.cmant := rfl
@[simp] theorem State.hostManf_binexp (v : BitVec 64) : (s.hostManf v).binexp = s.binexp := rfl
@[simp] theorem State.hostManf_cneg (v : BitVec 64) : (s.hostManf v).cneg = s.cneg := rfl
@[simp] theorem State.hostManf_decexp (v : BitVec 64) : (s.hostManf v).decexp = s.decexp := rfl
@[simp] theorem State.hostManf_adj (v : BitVec 64) : (s.hostManf v).adj = s.adj := rfl
@[simp] theorem State.hostManf_p5n (v : BitVec 64) : (s.hostManf v).p5n = s.p5n := rfl
@[simp] theorem State.hostManf_lshn (v : BitVec 64) : (s.hostManf v).lshn = s.lshn := rfl
@[simp] theorem State.hostManf_digit (v : BitVec 64) : (s.hostManf v).digit = s.digit := rfl
@[simp] theorem State.hostManf_ndig (v : BitVec 64) : (s.hostManf v).ndig = s.ndig := rfl
@[simp] theorem State.hostManf_busy (v : BitVec 64) : (s.hostManf v).busy = s.busy := rfl
@[simp] theorem State.hostManf_phase (v : BitVec 64) : (s.hostManf v).phase = s.phase := rfl
@[simp] theorem State.hostManf_err (v : BitVec 64) : (s.hostManf v).err = s.err := rfl
@[simp] theorem State.hostManf_accnz (v : BitVec 64) : (s.hostManf v).accnz = s.accnz := rfl
@[simp] theorem State.hostManf_lastop (v : BitVec 64) : (s.hostManf v).lastop = s.lastop := rfl
@[simp] theorem State.hostManf_acc (v : BitVec 64) : (s.hostManf v).acc = s.acc := rfl
@[simp] theorem State.hostManf_cw (v : BitVec 64) : (s.hostManf v).cw = s.cw := rfl
@[simp] theorem State.hostManf_ustep (v : BitVec 64) : (s.hostManf v).ustep = s.ustep := rfl
@[simp] theorem State.hostManf_engReq (v : BitVec 64) : (s.hostManf v).engReq = s.engReq := rfl
@[simp] theorem State.hostManf_beat (v : BitVec 64) : (s.hostManf v).beat = s.beat := rfl
@[simp] theorem State.hostManf_dstream (v : BitVec 64) : (s.hostManf v).dstream = s.dstream := rfl
@[simp] theorem State.hostManf_rsp (v : BitVec 64) : (s.hostManf v).rsp = s.rsp := rfl
@[simp] theorem State.hostManf_agenda (v : BitVec 64) : (s.hostManf v).agenda = s.agenda := rfl
@[simp] theorem State.hostManf_engineReady (v : BitVec 64) : (s.hostManf v).engineReady = s.engineReady := rfl
@[simp] theorem State.hostManf_sinkReady (v : BitVec 64) : (s.hostManf v).sinkReady = s.sinkReady := rfl

/-! ### `State.hostSexp` -/

@[simp] theorem State.hostSexp_opb (v : BitVec 16) : (s.hostSexp v).opb = s.opb := rfl
@[simp] theorem State.hostSexp_bits (v : BitVec 16) : (s.hostSexp v).bits = s.bits := rfl
@[simp] theorem State.hostSexp_manf (v : BitVec 16) : (s.hostSexp v).manf = s.manf := rfl
@[simp] theorem State.hostSexp_sexp (v : BitVec 16) : (s.hostSexp v).sexp = v := rfl
@[simp] theorem State.hostSexp_kind (v : BitVec 16) : (s.hostSexp v).kind = s.kind := rfl
@[simp] theorem State.hostSexp_cmant (v : BitVec 16) : (s.hostSexp v).cmant = s.cmant := rfl
@[simp] theorem State.hostSexp_binexp (v : BitVec 16) : (s.hostSexp v).binexp = s.binexp := rfl
@[simp] theorem State.hostSexp_cneg (v : BitVec 16) : (s.hostSexp v).cneg = s.cneg := rfl
@[simp] theorem State.hostSexp_decexp (v : BitVec 16) : (s.hostSexp v).decexp = s.decexp := rfl
@[simp] theorem State.hostSexp_adj (v : BitVec 16) : (s.hostSexp v).adj = s.adj := rfl
@[simp] theorem State.hostSexp_p5n (v : BitVec 16) : (s.hostSexp v).p5n = s.p5n := rfl
@[simp] theorem State.hostSexp_lshn (v : BitVec 16) : (s.hostSexp v).lshn = s.lshn := rfl
@[simp] theorem State.hostSexp_digit (v : BitVec 16) : (s.hostSexp v).digit = s.digit := rfl
@[simp] theorem State.hostSexp_ndig (v : BitVec 16) : (s.hostSexp v).ndig = s.ndig := rfl
@[simp] theorem State.hostSexp_busy (v : BitVec 16) : (s.hostSexp v).busy = s.busy := rfl
@[simp] theorem State.hostSexp_phase (v : BitVec 16) : (s.hostSexp v).phase = s.phase := rfl
@[simp] theorem State.hostSexp_err (v : BitVec 16) : (s.hostSexp v).err = s.err := rfl
@[simp] theorem State.hostSexp_accnz (v : BitVec 16) : (s.hostSexp v).accnz = s.accnz := rfl
@[simp] theorem State.hostSexp_lastop (v : BitVec 16) : (s.hostSexp v).lastop = s.lastop := rfl
@[simp] theorem State.hostSexp_acc (v : BitVec 16) : (s.hostSexp v).acc = s.acc := rfl
@[simp] theorem State.hostSexp_cw (v : BitVec 16) : (s.hostSexp v).cw = s.cw := rfl
@[simp] theorem State.hostSexp_ustep (v : BitVec 16) : (s.hostSexp v).ustep = s.ustep := rfl
@[simp] theorem State.hostSexp_engReq (v : BitVec 16) : (s.hostSexp v).engReq = s.engReq := rfl
@[simp] theorem State.hostSexp_beat (v : BitVec 16) : (s.hostSexp v).beat = s.beat := rfl
@[simp] theorem State.hostSexp_dstream (v : BitVec 16) : (s.hostSexp v).dstream = s.dstream := rfl
@[simp] theorem State.hostSexp_rsp (v : BitVec 16) : (s.hostSexp v).rsp = s.rsp := rfl
@[simp] theorem State.hostSexp_agenda (v : BitVec 16) : (s.hostSexp v).agenda = s.agenda := rfl
@[simp] theorem State.hostSexp_engineReady (v : BitVec 16) : (s.hostSexp v).engineReady = s.engineReady := rfl
@[simp] theorem State.hostSexp_sinkReady (v : BitVec 16) : (s.hostSexp v).sinkReady = s.sinkReady := rfl

/-! ### `State.hostCneg` -/

@[simp] theorem State.hostCneg_opb (v : Bool) : (s.hostCneg v).opb = s.opb := rfl
@[simp] theorem State.hostCneg_bits (v : Bool) : (s.hostCneg v).bits = s.bits := rfl
@[simp] theorem State.hostCneg_manf (v : Bool) : (s.hostCneg v).manf = s.manf := rfl
@[simp] theorem State.hostCneg_sexp (v : Bool) : (s.hostCneg v).sexp = s.sexp := rfl
@[simp] theorem State.hostCneg_kind (v : Bool) : (s.hostCneg v).kind = s.kind := rfl
@[simp] theorem State.hostCneg_cmant (v : Bool) : (s.hostCneg v).cmant = s.cmant := rfl
@[simp] theorem State.hostCneg_binexp (v : Bool) : (s.hostCneg v).binexp = s.binexp := rfl
@[simp] theorem State.hostCneg_cneg (v : Bool) : (s.hostCneg v).cneg = v := rfl
@[simp] theorem State.hostCneg_decexp (v : Bool) : (s.hostCneg v).decexp = s.decexp := rfl
@[simp] theorem State.hostCneg_adj (v : Bool) : (s.hostCneg v).adj = s.adj := rfl
@[simp] theorem State.hostCneg_p5n (v : Bool) : (s.hostCneg v).p5n = s.p5n := rfl
@[simp] theorem State.hostCneg_lshn (v : Bool) : (s.hostCneg v).lshn = s.lshn := rfl
@[simp] theorem State.hostCneg_digit (v : Bool) : (s.hostCneg v).digit = s.digit := rfl
@[simp] theorem State.hostCneg_ndig (v : Bool) : (s.hostCneg v).ndig = s.ndig := rfl
@[simp] theorem State.hostCneg_busy (v : Bool) : (s.hostCneg v).busy = s.busy := rfl
@[simp] theorem State.hostCneg_phase (v : Bool) : (s.hostCneg v).phase = s.phase := rfl
@[simp] theorem State.hostCneg_err (v : Bool) : (s.hostCneg v).err = s.err := rfl
@[simp] theorem State.hostCneg_accnz (v : Bool) : (s.hostCneg v).accnz = s.accnz := rfl
@[simp] theorem State.hostCneg_lastop (v : Bool) : (s.hostCneg v).lastop = s.lastop := rfl
@[simp] theorem State.hostCneg_acc (v : Bool) : (s.hostCneg v).acc = s.acc := rfl
@[simp] theorem State.hostCneg_cw (v : Bool) : (s.hostCneg v).cw = s.cw := rfl
@[simp] theorem State.hostCneg_ustep (v : Bool) : (s.hostCneg v).ustep = s.ustep := rfl
@[simp] theorem State.hostCneg_engReq (v : Bool) : (s.hostCneg v).engReq = s.engReq := rfl
@[simp] theorem State.hostCneg_beat (v : Bool) : (s.hostCneg v).beat = s.beat := rfl
@[simp] theorem State.hostCneg_dstream (v : Bool) : (s.hostCneg v).dstream = s.dstream := rfl
@[simp] theorem State.hostCneg_rsp (v : Bool) : (s.hostCneg v).rsp = s.rsp := rfl
@[simp] theorem State.hostCneg_agenda (v : Bool) : (s.hostCneg v).agenda = s.agenda := rfl
@[simp] theorem State.hostCneg_engineReady (v : Bool) : (s.hostCneg v).engineReady = s.engineReady := rfl
@[simp] theorem State.hostCneg_sinkReady (v : Bool) : (s.hostCneg v).sinkReady = s.sinkReady := rfl

/-! ### `State.take` -/

@[simp] theorem State.take_opb (w : Word) : (s.take w).opb = s.opb := rfl
@[simp] theorem State.take_bits (w : Word) : (s.take w).bits = s.bits := rfl
@[simp] theorem State.take_manf (w : Word) : (s.take w).manf = s.manf := rfl
@[simp] theorem State.take_sexp (w : Word) : (s.take w).sexp = s.sexp := rfl
@[simp] theorem State.take_kind (w : Word) : (s.take w).kind = s.kind := rfl
@[simp] theorem State.take_cmant (w : Word) : (s.take w).cmant = s.cmant := rfl
@[simp] theorem State.take_binexp (w : Word) : (s.take w).binexp = s.binexp := rfl
@[simp] theorem State.take_cneg (w : Word) : (s.take w).cneg = s.cneg := rfl
@[simp] theorem State.take_decexp (w : Word) : (s.take w).decexp = s.decexp := rfl
@[simp] theorem State.take_adj (w : Word) : (s.take w).adj = s.adj := rfl
@[simp] theorem State.take_p5n (w : Word) : (s.take w).p5n = s.p5n := rfl
@[simp] theorem State.take_lshn (w : Word) : (s.take w).lshn = s.lshn := rfl
@[simp] theorem State.take_digit (w : Word) : (s.take w).digit = s.digit := rfl
@[simp] theorem State.take_ndig (w : Word) : (s.take w).ndig = s.ndig := rfl
@[simp] theorem State.take_busy (w : Word) : (s.take w).busy = s.busy := rfl
@[simp] theorem State.take_phase (w : Word) : (s.take w).phase = s.phase := rfl
@[simp] theorem State.take_err (w : Word) : (s.take w).err = s.err := rfl
@[simp] theorem State.take_accnz (w : Word) : (s.take w).accnz = s.accnz := rfl
@[simp] theorem State.take_lastop (w : Word) : (s.take w).lastop = w.extractLsb' 0 4 := rfl
@[simp] theorem State.take_acc (w : Word) : (s.take w).acc = s.acc := rfl
@[simp] theorem State.take_cw (w : Word) : (s.take w).cw = s.cw := rfl
@[simp] theorem State.take_ustep (w : Word) : (s.take w).ustep = s.ustep := rfl
@[simp] theorem State.take_engReq (w : Word) : (s.take w).engReq = s.engReq := rfl
@[simp] theorem State.take_beat (w : Word) : (s.take w).beat = s.beat := rfl
@[simp] theorem State.take_dstream (w : Word) : (s.take w).dstream = s.dstream := rfl
@[simp] theorem State.take_rsp (w : Word) : (s.take w).rsp = s.rsp := rfl
@[simp] theorem State.take_agenda (w : Word) : (s.take w).agenda = s.agenda := rfl
@[simp] theorem State.take_engineReady (w : Word) : (s.take w).engineReady = s.engineReady := rfl
@[simp] theorem State.take_sinkReady (w : Word) : (s.take w).sinkReady = s.sinkReady := rfl

/-! ### `State.withAgenda` -/

@[simp] theorem State.withAgenda_opb (es : List Event) : (s.withAgenda es).opb = s.opb := rfl
@[simp] theorem State.withAgenda_bits (es : List Event) : (s.withAgenda es).bits = s.bits := rfl
@[simp] theorem State.withAgenda_manf (es : List Event) : (s.withAgenda es).manf = s.manf := rfl
@[simp] theorem State.withAgenda_sexp (es : List Event) : (s.withAgenda es).sexp = s.sexp := rfl
@[simp] theorem State.withAgenda_kind (es : List Event) : (s.withAgenda es).kind = s.kind := rfl
@[simp] theorem State.withAgenda_cmant (es : List Event) : (s.withAgenda es).cmant = s.cmant := rfl
@[simp] theorem State.withAgenda_binexp (es : List Event) : (s.withAgenda es).binexp = s.binexp := rfl
@[simp] theorem State.withAgenda_cneg (es : List Event) : (s.withAgenda es).cneg = s.cneg := rfl
@[simp] theorem State.withAgenda_decexp (es : List Event) : (s.withAgenda es).decexp = s.decexp := rfl
@[simp] theorem State.withAgenda_adj (es : List Event) : (s.withAgenda es).adj = s.adj := rfl
@[simp] theorem State.withAgenda_p5n (es : List Event) : (s.withAgenda es).p5n = s.p5n := rfl
@[simp] theorem State.withAgenda_lshn (es : List Event) : (s.withAgenda es).lshn = s.lshn := rfl
@[simp] theorem State.withAgenda_digit (es : List Event) : (s.withAgenda es).digit = s.digit := rfl
@[simp] theorem State.withAgenda_ndig (es : List Event) : (s.withAgenda es).ndig = s.ndig := rfl
@[simp] theorem State.withAgenda_busy (es : List Event) : (s.withAgenda es).busy = s.busy := rfl
@[simp] theorem State.withAgenda_phase (es : List Event) : (s.withAgenda es).phase = s.phase := rfl
@[simp] theorem State.withAgenda_err (es : List Event) : (s.withAgenda es).err = s.err := rfl
@[simp] theorem State.withAgenda_accnz (es : List Event) : (s.withAgenda es).accnz = s.accnz := rfl
@[simp] theorem State.withAgenda_lastop (es : List Event) : (s.withAgenda es).lastop = s.lastop := rfl
@[simp] theorem State.withAgenda_acc (es : List Event) : (s.withAgenda es).acc = s.acc := rfl
@[simp] theorem State.withAgenda_cw (es : List Event) : (s.withAgenda es).cw = s.cw := rfl
@[simp] theorem State.withAgenda_ustep (es : List Event) : (s.withAgenda es).ustep = s.ustep := rfl
@[simp] theorem State.withAgenda_engReq (es : List Event) : (s.withAgenda es).engReq = s.engReq := rfl
@[simp] theorem State.withAgenda_beat (es : List Event) : (s.withAgenda es).beat = s.beat := rfl
@[simp] theorem State.withAgenda_dstream (es : List Event) : (s.withAgenda es).dstream = s.dstream := rfl
@[simp] theorem State.withAgenda_rsp (es : List Event) : (s.withAgenda es).rsp = s.rsp := rfl
@[simp] theorem State.withAgenda_agenda (es : List Event) : (s.withAgenda es).agenda = es := rfl
@[simp] theorem State.withAgenda_engineReady (es : List Event) : (s.withAgenda es).engineReady = s.engineReady := rfl
@[simp] theorem State.withAgenda_sinkReady (es : List Event) : (s.withAgenda es).sinkReady = s.sinkReady := rfl

/-! ### `State.setEngine` -/

@[simp] theorem State.setEngine_opb (b : Bool) : (s.setEngine b).opb = s.opb := rfl
@[simp] theorem State.setEngine_bits (b : Bool) : (s.setEngine b).bits = s.bits := rfl
@[simp] theorem State.setEngine_manf (b : Bool) : (s.setEngine b).manf = s.manf := rfl
@[simp] theorem State.setEngine_sexp (b : Bool) : (s.setEngine b).sexp = s.sexp := rfl
@[simp] theorem State.setEngine_kind (b : Bool) : (s.setEngine b).kind = s.kind := rfl
@[simp] theorem State.setEngine_cmant (b : Bool) : (s.setEngine b).cmant = s.cmant := rfl
@[simp] theorem State.setEngine_binexp (b : Bool) : (s.setEngine b).binexp = s.binexp := rfl
@[simp] theorem State.setEngine_cneg (b : Bool) : (s.setEngine b).cneg = s.cneg := rfl
@[simp] theorem State.setEngine_decexp (b : Bool) : (s.setEngine b).decexp = s.decexp := rfl
@[simp] theorem State.setEngine_adj (b : Bool) : (s.setEngine b).adj = s.adj := rfl
@[simp] theorem State.setEngine_p5n (b : Bool) : (s.setEngine b).p5n = s.p5n := rfl
@[simp] theorem State.setEngine_lshn (b : Bool) : (s.setEngine b).lshn = s.lshn := rfl
@[simp] theorem State.setEngine_digit (b : Bool) : (s.setEngine b).digit = s.digit := rfl
@[simp] theorem State.setEngine_ndig (b : Bool) : (s.setEngine b).ndig = s.ndig := rfl
@[simp] theorem State.setEngine_busy (b : Bool) : (s.setEngine b).busy = s.busy := rfl
@[simp] theorem State.setEngine_phase (b : Bool) : (s.setEngine b).phase = s.phase := rfl
@[simp] theorem State.setEngine_err (b : Bool) : (s.setEngine b).err = s.err := rfl
@[simp] theorem State.setEngine_accnz (b : Bool) : (s.setEngine b).accnz = s.accnz := rfl
@[simp] theorem State.setEngine_lastop (b : Bool) : (s.setEngine b).lastop = s.lastop := rfl
@[simp] theorem State.setEngine_acc (b : Bool) : (s.setEngine b).acc = s.acc := rfl
@[simp] theorem State.setEngine_cw (b : Bool) : (s.setEngine b).cw = s.cw := rfl
@[simp] theorem State.setEngine_ustep (b : Bool) : (s.setEngine b).ustep = s.ustep := rfl
@[simp] theorem State.setEngine_engReq (b : Bool) : (s.setEngine b).engReq = s.engReq := rfl
@[simp] theorem State.setEngine_beat (b : Bool) : (s.setEngine b).beat = s.beat := rfl
@[simp] theorem State.setEngine_dstream (b : Bool) : (s.setEngine b).dstream = s.dstream := rfl
@[simp] theorem State.setEngine_rsp (b : Bool) : (s.setEngine b).rsp = s.rsp := rfl
@[simp] theorem State.setEngine_agenda (b : Bool) : (s.setEngine b).agenda = s.agenda := rfl
@[simp] theorem State.setEngine_engineReady (b : Bool) : (s.setEngine b).engineReady = b := rfl
@[simp] theorem State.setEngine_sinkReady (b : Bool) : (s.setEngine b).sinkReady = s.sinkReady := rfl

/-! ### `State.setSink` -/

@[simp] theorem State.setSink_opb (b : Bool) : (s.setSink b).opb = s.opb := rfl
@[simp] theorem State.setSink_bits (b : Bool) : (s.setSink b).bits = s.bits := rfl
@[simp] theorem State.setSink_manf (b : Bool) : (s.setSink b).manf = s.manf := rfl
@[simp] theorem State.setSink_sexp (b : Bool) : (s.setSink b).sexp = s.sexp := rfl
@[simp] theorem State.setSink_kind (b : Bool) : (s.setSink b).kind = s.kind := rfl
@[simp] theorem State.setSink_cmant (b : Bool) : (s.setSink b).cmant = s.cmant := rfl
@[simp] theorem State.setSink_binexp (b : Bool) : (s.setSink b).binexp = s.binexp := rfl
@[simp] theorem State.setSink_cneg (b : Bool) : (s.setSink b).cneg = s.cneg := rfl
@[simp] theorem State.setSink_decexp (b : Bool) : (s.setSink b).decexp = s.decexp := rfl
@[simp] theorem State.setSink_adj (b : Bool) : (s.setSink b).adj = s.adj := rfl
@[simp] theorem State.setSink_p5n (b : Bool) : (s.setSink b).p5n = s.p5n := rfl
@[simp] theorem State.setSink_lshn (b : Bool) : (s.setSink b).lshn = s.lshn := rfl
@[simp] theorem State.setSink_digit (b : Bool) : (s.setSink b).digit = s.digit := rfl
@[simp] theorem State.setSink_ndig (b : Bool) : (s.setSink b).ndig = s.ndig := rfl
@[simp] theorem State.setSink_busy (b : Bool) : (s.setSink b).busy = s.busy := rfl
@[simp] theorem State.setSink_phase (b : Bool) : (s.setSink b).phase = s.phase := rfl
@[simp] theorem State.setSink_err (b : Bool) : (s.setSink b).err = s.err := rfl
@[simp] theorem State.setSink_accnz (b : Bool) : (s.setSink b).accnz = s.accnz := rfl
@[simp] theorem State.setSink_lastop (b : Bool) : (s.setSink b).lastop = s.lastop := rfl
@[simp] theorem State.setSink_acc (b : Bool) : (s.setSink b).acc = s.acc := rfl
@[simp] theorem State.setSink_cw (b : Bool) : (s.setSink b).cw = s.cw := rfl
@[simp] theorem State.setSink_ustep (b : Bool) : (s.setSink b).ustep = s.ustep := rfl
@[simp] theorem State.setSink_engReq (b : Bool) : (s.setSink b).engReq = s.engReq := rfl
@[simp] theorem State.setSink_beat (b : Bool) : (s.setSink b).beat = s.beat := rfl
@[simp] theorem State.setSink_dstream (b : Bool) : (s.setSink b).dstream = s.dstream := rfl
@[simp] theorem State.setSink_rsp (b : Bool) : (s.setSink b).rsp = s.rsp := rfl
@[simp] theorem State.setSink_agenda (b : Bool) : (s.setSink b).agenda = s.agenda := rfl
@[simp] theorem State.setSink_engineReady (b : Bool) : (s.setSink b).engineReady = s.engineReady := rfl
@[simp] theorem State.setSink_sinkReady (b : Bool) : (s.setSink b).sinkReady = b := rfl

/-! ### `State.accept` -/

@[simp] theorem State.accept_opb (w : Word) : (s.accept w).opb = s.opb := rfl
@[simp] theorem State.accept_bits (w : Word) : (s.accept w).bits = s.bits := rfl
@[simp] theorem State.accept_manf (w : Word) : (s.accept w).manf = s.manf := rfl
@[simp] theorem State.accept_sexp (w : Word) : (s.accept w).sexp = s.sexp := rfl
@[simp] theorem State.accept_kind (w : Word) : (s.accept w).kind = s.kind := rfl
@[simp] theorem State.accept_cmant (w : Word) : (s.accept w).cmant = s.cmant := rfl
@[simp] theorem State.accept_binexp (w : Word) : (s.accept w).binexp = s.binexp := rfl
@[simp] theorem State.accept_cneg (w : Word) : (s.accept w).cneg = s.cneg := rfl
@[simp] theorem State.accept_decexp (w : Word) : (s.accept w).decexp = s.decexp := rfl
@[simp] theorem State.accept_adj (w : Word) : (s.accept w).adj = s.adj := rfl
@[simp] theorem State.accept_p5n (w : Word) : (s.accept w).p5n = s.p5n := rfl
@[simp] theorem State.accept_lshn (w : Word) : (s.accept w).lshn = s.lshn := rfl
@[simp] theorem State.accept_digit (w : Word) : (s.accept w).digit = s.digit := rfl
@[simp] theorem State.accept_ndig (w : Word) : (s.accept w).ndig = s.ndig := rfl
@[simp] theorem State.accept_busy (w : Word) : (s.accept w).busy = true := rfl
@[simp] theorem State.accept_phase (w : Word) : (s.accept w).phase = s.phase := rfl
@[simp] theorem State.accept_err (w : Word) : (s.accept w).err = s.err := rfl
@[simp] theorem State.accept_accnz (w : Word) : (s.accept w).accnz = s.accnz := rfl
@[simp] theorem State.accept_lastop (w : Word) : (s.accept w).lastop = s.lastop := rfl
@[simp] theorem State.accept_acc (w : Word) : (s.accept w).acc = s.acc := rfl
@[simp] theorem State.accept_cw (w : Word) : (s.accept w).cw = w.setWidth 7 := rfl
@[simp] theorem State.accept_ustep (w : Word) : (s.accept w).ustep = (if w.extractLsb' 0 4 = 0xB#4 then .sLdc else s.ustep) := rfl
@[simp] theorem State.accept_engReq (w : Word) : (s.accept w).engReq = s.engReq := rfl
@[simp] theorem State.accept_beat (w : Word) : (s.accept w).beat = s.beat := rfl
@[simp] theorem State.accept_dstream (w : Word) : (s.accept w).dstream = s.dstream := rfl
@[simp] theorem State.accept_rsp (w : Word) : (s.accept w).rsp = s.rsp := rfl
@[simp] theorem State.accept_agenda (w : Word) : (s.accept w).agenda = s.agenda := rfl
@[simp] theorem State.accept_engineReady (w : Word) : (s.accept w).engineReady = s.engineReady := rfl
@[simp] theorem State.accept_sinkReady (w : Word) : (s.accept w).sinkReady = s.sinkReady := rfl

/-! ### `State.resetEvent` -/

@[simp] theorem State.resetEvent_opb : s.resetEvent.opb = State.reset.opb := rfl
@[simp] theorem State.resetEvent_bits : s.resetEvent.bits = State.reset.bits := rfl
@[simp] theorem State.resetEvent_manf : s.resetEvent.manf = State.reset.manf := rfl
@[simp] theorem State.resetEvent_sexp : s.resetEvent.sexp = State.reset.sexp := rfl
@[simp] theorem State.resetEvent_kind : s.resetEvent.kind = State.reset.kind := rfl
@[simp] theorem State.resetEvent_cmant : s.resetEvent.cmant = State.reset.cmant := rfl
@[simp] theorem State.resetEvent_binexp : s.resetEvent.binexp = State.reset.binexp := rfl
@[simp] theorem State.resetEvent_cneg : s.resetEvent.cneg = State.reset.cneg := rfl
@[simp] theorem State.resetEvent_decexp : s.resetEvent.decexp = State.reset.decexp := rfl
@[simp] theorem State.resetEvent_adj : s.resetEvent.adj = State.reset.adj := rfl
@[simp] theorem State.resetEvent_p5n : s.resetEvent.p5n = State.reset.p5n := rfl
@[simp] theorem State.resetEvent_lshn : s.resetEvent.lshn = State.reset.lshn := rfl
@[simp] theorem State.resetEvent_digit : s.resetEvent.digit = State.reset.digit := rfl
@[simp] theorem State.resetEvent_ndig : s.resetEvent.ndig = State.reset.ndig := rfl
@[simp] theorem State.resetEvent_busy : s.resetEvent.busy = State.reset.busy := rfl
@[simp] theorem State.resetEvent_phase : s.resetEvent.phase = State.reset.phase := rfl
@[simp] theorem State.resetEvent_err : s.resetEvent.err = State.reset.err := rfl
@[simp] theorem State.resetEvent_accnz : s.resetEvent.accnz = State.reset.accnz := rfl
@[simp] theorem State.resetEvent_lastop : s.resetEvent.lastop = State.reset.lastop := rfl
@[simp] theorem State.resetEvent_acc : s.resetEvent.acc = State.reset.acc := rfl
@[simp] theorem State.resetEvent_cw : s.resetEvent.cw = State.reset.cw := rfl
@[simp] theorem State.resetEvent_ustep : s.resetEvent.ustep = State.reset.ustep := rfl
@[simp] theorem State.resetEvent_engReq : s.resetEvent.engReq = State.reset.engReq := rfl
@[simp] theorem State.resetEvent_beat : s.resetEvent.beat = State.reset.beat := rfl
@[simp] theorem State.resetEvent_dstream : s.resetEvent.dstream = s.dstream := rfl
@[simp] theorem State.resetEvent_rsp : s.resetEvent.rsp = State.reset.rsp := rfl
@[simp] theorem State.resetEvent_agenda : s.resetEvent.agenda = s.agenda := rfl
@[simp] theorem State.resetEvent_engineReady : s.resetEvent.engineReady = s.engineReady := rfl
@[simp] theorem State.resetEvent_sinkReady : s.resetEvent.sinkReady = s.sinkReady := rfl

end Sys2Proof.Machine
end

