-- ==== Sys2Proof/Laws/Ops.lean ====
section
/-! SUPPORT. One lemma per shared operation that says everything it can do: how a step ends, the bodies of the
converter's commands, and that no command's step stops the machine. -/

namespace Sys2Proof.Machine

/-! ### How a step ends -/

@[simp] theorem settle_done (s t : State) (k : State → State) : settle s k (.done t) = .next (k t) := rfl
@[simp] theorem settle_raised (s : State) (e : ErrCode) (k : State → State) :
    settle s k (.raised e) = .next (s.raise e) := rfl
@[simp] theorem settle_waiting (s t : State) (k : State → State) : settle s k (.waiting t) = .next t := rfl

@[simp] theorem runSingle_done (s t : State) : runSingle s (.done t) = .next t.finish := rfl
@[simp] theorem runSingle_raised (s : State) (e : ErrCode) : runSingle s (.raised e) = .next (s.raise e) := rfl
@[simp] theorem runSingle_waiting (s t : State) : runSingle s (.waiting t) = .next t := rfl

@[simp] theorem withFormat_single (body : Descriptor → SubStep) : withFormat .single body = body descSingle := rfl
@[simp] theorem withFormat_double (body : Descriptor → SubStep) : withFormat .double body = body descDouble := rfl
@[simp] theorem withFormat_extended (body : Descriptor → SubStep) :
    withFormat .extended body = body descExtended := rfl
@[simp] theorem withFormat_reserved (body : Descriptor → SubStep) :
    withFormat .reserved body = .raised .format := rfl

theorem withFormat_of_desc {f : Fmt} {d : Descriptor} (h : descOf f = some d) (body : Descriptor → SubStep) :
    withFormat f body = body d := by simp [withFormat, h]

/-- A step that settles in a next state was completed, raised an error, or waits. -/
theorem settle_eq_next {s t : State} {k : State → State} {r : SubStep} (h : settle s k r = .next t) :
    (∃ u, r = .done u ∧ t = k u) ∨ (∃ e, r = .raised e ∧ t = s.raise e) ∨ r = .waiting t := by
  cases r with
  | done u => exact .inl ⟨u, rfl, by simpa using h.symm⟩
  | raised e => exact .inr (.inl ⟨e, rfl, by simpa using h.symm⟩)
  | waiting u => exact .inr (.inr (by simpa using h))

/-- A step that needs a format has one, or raises `Err(FORMAT)`. -/
theorem withFormat_cases (f : Fmt) (body : Descriptor → SubStep) :
    (∃ d, descOf f = some d ∧ withFormat f body = body d) ∨ (f = .reserved ∧ withFormat f body = .raised .format) := by
  cases f with
  | single => exact .inl ⟨_, rfl, rfl⟩
  | double => exact .inl ⟨_, rfl, rfl⟩
  | extended => exact .inl ⟨_, rfl, rfl⟩
  | reserved => exact .inr ⟨rfl, rfl⟩

/-! ### The engine -/

@[simp] theorem run_load_acc (a : Nat) (v : BitVec 64) : ((EngineRequest.load v).run a).acc = v.toNat := rfl
@[simp] theorem run_mulp5_acc (a : Nat) (n : BitVec 16) :
    ((EngineRequest.mulp5 n).run a).acc = a * 5 ^ n.toNat := rfl
@[simp] theorem run_shl_acc (a : Nat) (n : BitVec 16) : ((EngineRequest.shl n).run a).acc = a * 2 ^ n.toNat := rfl
@[simp] theorem run_divmod10_acc (a : Nat) : (EngineRequest.divmod10.run a).acc = a / 10 := rfl
@[simp] theorem run_divmod10_rem (a : Nat) : (EngineRequest.divmod10.run a).rem = BitVec.ofNat 4 (a % 10) := rfl

/-- The zero flag always agrees with the accumulator the answer leaves (spec/43_bigint_engine.md section 2). -/
@[simp] theorem run_nz (r : EngineRequest) (a : Nat) : (r.run a).nz = decide ((r.run a).acc ≠ 0) := by
  cases r <;> rfl

/-! ### The bodies of the converter's commands -/

theorem ldcBody_cases (d : Descriptor) (s : State) :
    (fieldsInRange d s.expf s.manf = true ∧ ldcBody d s = .done (ldcState d (kindOf d s.expf s.manf) s))
      ∨ (fieldsInRange d s.expf s.manf = false ∧ ldcBody d s = .raised .range) := by
  unfold ldcBody
  cases h : fieldsInRange d s.expf s.manf <;> simp

theorem minBody_cases (s : State) :
    (s.phase ≠ .loaded ∧ minBody s = .raised .seq)
      ∨ (s.phase = .loaded ∧ s.cmant = 0 ∧ minBody s = .raised .precond)
      ∨ (s.phase = .loaded ∧ s.cmant ≠ 0 ∧ minBody s = .done (minState s)) := by
  unfold minBody
  by_cases hp : s.phase = .loaded
  · by_cases hm : s.cmant = 0
    · exact .inr (.inl ⟨hp, hm, by simp [hp, hm]⟩)
    · exact .inr (.inr ⟨hp, hm, by rw [if_neg (by simp [hp]), if_neg hm]⟩)
  · exact .inl ⟨hp, if_pos hp⟩

theorem rfrBody_cases (s : State) :
    (s.phase ≠ .minimized ∧ rfrBody s = .raised .seq)
      ∨ (s.phase = .minimized ∧ s.engineReady = false ∧ rfrBody s = .waiting (s.awaitEngine (.load s.cmant)))
      ∨ (s.phase = .minimized ∧ s.engineReady = true ∧ rfrBody s = .done (rfrState s)) := by
  unfold rfrBody
  by_cases hp : s.phase = .minimized <;> cases he : s.engineReady <;> simp [hp]

theorem rreBody_cases (s : State) :
    (s.phase ≠ .defracted ∧ rreBody s = .raised .seq)
      ∨ (s.phase = .defracted ∧ 0 < s.binExp ∧ s.engineReady = false
          ∧ rreBody s = .waiting (s.awaitEngine (.shl (shiftAmount s))))
      ∨ (s.phase = .defracted ∧ (s.binExp ≤ 0 ∨ s.engineReady = true) ∧ rreBody s = .done (rreState s)) := by
  unfold rreBody
  by_cases hp : s.phase = .defracted
  · by_cases hb : 0 < s.binExp <;> cases he : s.engineReady <;> simp [hp, hb, not_lt.mp]
  · exact .inl ⟨hp, if_pos hp⟩

theorem dgtBody_cases (s : State) :
    (s.phase ≠ .reduced ∧ s.phase ≠ .digits ∧ dgtBody s = .raised .seq)
      ∨ ((s.phase = .reduced ∨ s.phase = .digits) ∧ s.beat = none ∧ s.engineReady = false
          ∧ dgtBody s = .waiting (s.awaitEngine .divmod10))
      ∨ ((s.phase = .reduced ∨ s.phase = .digits) ∧ (s.beat ≠ none ∨ s.engineReady = true) ∧ s.sinkReady = false
          ∧ dgtBody s = .waiting (s.awaitSink (nextBeat s)))
      ∨ ((s.phase = .reduced ∨ s.phase = .digits) ∧ (s.beat ≠ none ∨ s.engineReady = true) ∧ s.sinkReady = true
          ∧ dgtBody s = .done (dgtState s)) := by
  unfold dgtBody
  by_cases hp : s.phase = .reduced ∨ s.phase = .digits
  · have hn : ¬(s.phase ≠ .reduced ∧ s.phase ≠ .digits) := by tauto
    by_cases hb : s.beat = none <;> cases he : s.engineReady <;> cases hk : s.sinkReady <;> simp [hn, hb, hp]
  · have hn : s.phase ≠ .reduced ∧ s.phase ≠ .digits := by tauto
    simp [hn]

/-! ### No command's step stops the machine -/

theorem settle_next (s : State) (k : State → State) (r : SubStep) : ∃ t, settle s k r = .next t := by
  cases r <;> exact ⟨_, rfl⟩

theorem runSingle_next (s : State) (r : SubStep) : ∃ t, runSingle s r = .next t := settle_next s _ r

/-- Every command answers a next state in every state: errors and waiting are next states. -/
theorem exec_next (i : Instr) (s : State) : ∃ t, exec i s = .next t := by
  cases i with
  | xtr f o => exact runSingle_next s _
  | spl f => exact runSingle_next s _
  | knd f => exact runSingle_next s _
  | cls f => exact runSingle_next s _
  | cln f o => exact runSingle_next s _
  | ldc f => exact runSingle_next s _
  | min => exact runSingle_next s (minBody s)
  | rfr => exact runSingle_next s (rfrBody s)
  | rre => exact runSingle_next s (rreBody s)
  | dgt => exact runSingle_next s (dgtBody s)
  | cvt f => show ∃ t, execCvt f s = .next t; unfold execCvt; split <;> exact settle_next _ _ _
  | cle => exact runSingle_next s (.done s.clearErr)

end Sys2Proof.Machine
end

