-- ==== Sys2Proof/Laws/PerInstr.lean ====
section
/-! SUPPORT. Per-instruction families: RoundTrip, the decoder's answer to the encoder's word. -/

namespace Sys2Proof.Laws

/-- The encoder's word decodes to the command, in its class (spec/30_encoding.md R109). -/
def RoundTrip.Statement (i : Instr) : Prop := decode (encode i) = classifyInstr i

theorem RoundTrip.xtr (f : Fmt) (o : ByteOrder) : RoundTrip.Statement (.xtr f o) := by cases f <;> cases o <;> rfl
theorem RoundTrip.spl (f : Fmt) : RoundTrip.Statement (.spl f) := by cases f <;> rfl
theorem RoundTrip.knd (f : Fmt) : RoundTrip.Statement (.knd f) := by cases f <;> rfl
theorem RoundTrip.cls (f : Fmt) : RoundTrip.Statement (.cls f) := by cases f <;> rfl
theorem RoundTrip.cln (f : Fmt) (o : ByteOrder) : RoundTrip.Statement (.cln f o) := by cases f <;> cases o <;> rfl
theorem RoundTrip.ldc (f : Fmt) : RoundTrip.Statement (.ldc f) := by cases f <;> rfl
theorem RoundTrip.min : RoundTrip.Statement .min := rfl
theorem RoundTrip.rfr : RoundTrip.Statement .rfr := rfl
theorem RoundTrip.rre : RoundTrip.Statement .rre := rfl
theorem RoundTrip.dgt : RoundTrip.Statement .dgt := rfl
theorem RoundTrip.cvt (f : Fmt) : RoundTrip.Statement (.cvt f) := by cases f <;> rfl
theorem RoundTrip.cle : RoundTrip.Statement .cle := rfl

end Sys2Proof.Laws
end

