-- ==== Sys2Proof/Laws/Port.lean ====
section
/-! SUPPORT. What the port can do with a transaction. -/

namespace Sys2Proof.Machine

/-! ### The register map, entry by entry (spec/10_state.md R24) -/

@[simp] theorem locate_opb0 : locate 0x00#8 = .ok .opb0 := rfl
@[simp] theorem locate_opb1 : locate 0x04#8 = .ok .opb1 := rfl
@[simp] theorem locate_opb2 : locate 0x08#8 = .ok .opb2 := rfl
@[simp] theorem locate_opb3 : locate 0x0c#8 = .ok .opb3 := rfl
@[simp] theorem locate_cmd : locate 0x10#8 = .ok .cmd := rfl
@[simp] theorem locate_status : locate 0x14#8 = .ok .status := rfl
@[simp] theorem locate_bits0 : locate 0x18#8 = .ok .bits0 := rfl
@[simp] theorem locate_bits1 : locate 0x1c#8 = .ok .bits1 := rfl
@[simp] theorem locate_bits2 : locate 0x20#8 = .ok .bits2 := rfl
@[simp] theorem locate_manf0 : locate 0x24#8 = .ok .manf0 := rfl
@[simp] theorem locate_manf1 : locate 0x28#8 = .ok .manf1 := rfl
@[simp] theorem locate_sexp : locate 0x2c#8 = .ok .sexp := rfl
@[simp] theorem locate_kind : locate 0x30#8 = .ok .kind := rfl
@[simp] theorem locate_cmant0 : locate 0x34#8 = .ok .cmant0 := rfl
@[simp] theorem locate_cmant1 : locate 0x38#8 = .ok .cmant1 := rfl
@[simp] theorem locate_binexp : locate 0x3c#8 = .ok .binexp := rfl
@[simp] theorem locate_cneg : locate 0x40#8 = .ok .cneg := rfl
@[simp] theorem locate_decexp : locate 0x44#8 = .ok .decexp := rfl
@[simp] theorem locate_adj : locate 0x48#8 = .ok .adj := rfl
@[simp] theorem locate_p5n : locate 0x4c#8 = .ok .p5n := rfl
@[simp] theorem locate_lshn : locate 0x50#8 = .ok .lshn := rfl
@[simp] theorem locate_digit : locate 0x54#8 = .ok .digit := rfl
@[simp] theorem locate_ndig : locate 0x58#8 = .ok .ndig := rfl
@[simp] theorem access_opb0 : Reg.access .opb0 = .readWrite := rfl
@[simp] theorem access_opb1 : Reg.access .opb1 = .readWrite := rfl
@[simp] theorem access_opb2 : Reg.access .opb2 = .readWrite := rfl
@[simp] theorem access_opb3 : Reg.access .opb3 = .readWrite := rfl
@[simp] theorem access_cmd : Reg.access .cmd = .writeOnly := rfl
@[simp] theorem access_status : Reg.access .status = .readOnly := rfl
@[simp] theorem access_bits0 : Reg.access .bits0 = .readWrite := rfl
@[simp] theorem access_bits1 : Reg.access .bits1 = .readWrite := rfl
@[simp] theorem access_bits2 : Reg.access .bits2 = .readWrite := rfl
@[simp] theorem access_manf0 : Reg.access .manf0 = .readWrite := rfl
@[simp] theorem access_manf1 : Reg.access .manf1 = .readWrite := rfl
@[simp] theorem access_sexp : Reg.access .sexp = .readWrite := rfl
@[simp] theorem access_kind : Reg.access .kind = .readOnly := rfl
@[simp] theorem access_cmant0 : Reg.access .cmant0 = .readWrite := rfl
@[simp] theorem access_cmant1 : Reg.access .cmant1 = .readWrite := rfl
@[simp] theorem access_binexp : Reg.access .binexp = .readWrite := rfl
@[simp] theorem access_cneg : Reg.access .cneg = .readWrite := rfl
@[simp] theorem access_decexp : Reg.access .decexp = .readOnly := rfl
@[simp] theorem access_adj : Reg.access .adj = .readOnly := rfl
@[simp] theorem access_p5n : Reg.access .p5n = .readOnly := rfl
@[simp] theorem access_lshn : Reg.access .lshn = .readOnly := rfl
@[simp] theorem access_digit : Reg.access .digit = .readOnly := rfl
@[simp] theorem access_ndig : Reg.access .ndig = .readOnly := rfl

/-- No register stands at a misaligned offset (spec/20_memory.md R72). -/
theorem locate_misaligned {a : Offset} (h : a.toNat % 4 ≠ 0) : locate a = .error .misaligned := by simp [locate, h]

/-- No register stands at 0x5C or above (spec/20_memory.md R73). -/
theorem locate_unmapped {a : Offset} (h : a.toNat % 4 = 0) (hi : 0x5C ≤ a.toNat) : locate a = .error .unmapped := by
  have : registerMap[a.toNat / 4]? = none := List.getElem?_eq_none (by simp [registerMap]; omega)
  simp [locate, h, this]

@[simp] theorem busError_eq (s : State) : s.busError = { s with rsp := some ⟨0, true⟩ } := rfl

/-- A read is refused, or answered with the register's value; it changes the answer alone (spec/20_memory.md R78). -/
theorem portRead_cases (s : State) (a : Offset) :
    (∃ c, readTarget a = .error c ∧ portRead s a = s.respond ⟨0, true⟩) ∨
    (∃ r, readTarget a = .ok r ∧ portRead s a = s.respond ⟨readReg s r, false⟩) := by
  unfold portRead
  cases h : readTarget a with
  | error c => exact .inl ⟨c, rfl, rfl⟩
  | ok r => exact .inr ⟨r, rfl, rfl⟩

/-- A write is refused, or performed and answered (spec/20_memory.md R75). -/
theorem portWrite_cases (s : State) (a : Offset) (v : Word) :
    (∃ c, writeTarget s a v = .error c ∧ portWrite s a v = s.respond ⟨0, true⟩) ∨
    (∃ r, writeTarget s a v = .ok r ∧ portWrite s a v = (performWrite s v r).respond ⟨0, false⟩) := by
  unfold portWrite
  cases h : writeTarget s a v with
  | error c => exact .inl ⟨c, rfl, rfl⟩
  | ok r => exact .inr ⟨r, rfl, rfl⟩

/-- An accepted write: the offset is the register's, the register may be written, the EFU is not busy, and a faulted
EFU takes no command but CLE (spec/20_memory.md R75). -/
theorem writeTarget_ok {s : State} {a : Offset} {v : Word} {r : Reg} (h : writeTarget s a v = .ok r) :
    locate a = .ok r ∧ r.access ≠ .readOnly ∧ s.busy = false ∧ (r = .cmd → s.err = .noError ∨ v = cleWord) := by
  unfold writeTarget at h
  cases hl : locate a with
  | error c => simp [hl] at h
  | ok r' =>
    simp only [hl] at h
    split at h
    · simp at h
    · rename_i hacc
      split at h
      · simp at h
      · rename_i hbusy
        split at h
        · simp at h
        · rename_i hf
          have : r' = r := by simpa using h
          subst this
          refine ⟨rfl, hacc, by simpa using hbusy, fun hc => ?_⟩
          by_contra hn
          push Not at hn
          exact hf ⟨hc, hn.1, hn.2⟩

/-- What an accepted write leaves: a command taken, a data register stored, or a converter input stored with
`PHASE <- LOADED` (spec/20_memory.md R79). -/
theorem performWrite_cases (s : State) (v : Word) (r : Reg) :
    (r = .cmd ∧ performWrite s v r = takeCommand s v) ∨
    (∃ m, performWrite s v r = s.hostCmant m) ∨ (∃ b, performWrite s v r = s.hostBinexp b) ∨
    (∃ x, performWrite s v r = s.hostOpb x) ∨ (∃ x, performWrite s v r = s.hostBits x) ∨
    (∃ x, performWrite s v r = s.hostManf x) ∨ (∃ x, performWrite s v r = s.hostSexp x) ∨
    (∃ x, performWrite s v r = s.hostCneg x) ∨ (r.access = .readOnly ∧ performWrite s v r = s) := by
  cases r <;> simp [performWrite, writeReg, Reg.access]

/-- A taken word is illegal, of bad format, or accepted (spec/30_encoding.md R112 steps 3 to 6). -/
theorem takeCommand_cases (s : State) (w : Word) :
    (∃ r, decode w = .illegal r ∧ takeCommand s w = (s.take w).raise .cmd) ∨
    (∃ i, decode w = .badFormat i ∧ takeCommand s w = (s.take w).raise .format) ∨
    (∃ i, decode w = .command i ∧ takeCommand s w = (s.take w).accept w) := by
  unfold takeCommand
  cases h : decode w with
  | illegal r => exact .inl ⟨r, rfl, rfl⟩
  | badFormat i => exact .inr (.inl ⟨i, rfl, rfl⟩)
  | command i => exact .inr (.inr ⟨i, rfl, rfl⟩)

/-- Bit `i` of a register with a word replaced (spec/20_memory.md R80). -/
theorem replaceWord_getLsbD {n : Nat} (x : BitVec n) (k : Nat) (v : Word) (i : Nat) :
    (replaceWord x k v).getLsbD i
      = if 32 * k ≤ i ∧ i < 32 * k + 32 then (decide (i < n) && v.getLsbD (i - 32 * k)) else x.getLsbD i := by
  unfold replaceWord
  simp only [BitVec.getLsbD_or, BitVec.getLsbD_and, BitVec.getLsbD_not, BitVec.getLsbD_shiftLeft,
    BitVec.getLsbD_setWidth, BitVec.getLsbD_allOnes]
  by_cases hn : i < n
  · by_cases h1 : i < 32 * k
    · have : ¬(32 * k ≤ i ∧ i < 32 * k + 32) := by omega
      simp [hn, h1, this]
    · have hn2 : i - 32 * k < n := by omega
      by_cases h2 : i - 32 * k < 32
      · have : 32 * k ≤ i ∧ i < 32 * k + 32 := by omega
        simp [hn, h1, h2, hn2, this]
      · have : ¬(32 * k ≤ i ∧ i < 32 * k + 32) := by omega
        have hv : v.getLsbD (i - 32 * k) = false := BitVec.getLsbD_of_ge v _ (by omega)
        simp [hn, h1, h2, hn2, this, hv]
  · have hx : x.getLsbD i = false := BitVec.getLsbD_of_ge x i (by omega)
    simp [hn, hx]

end Sys2Proof.Machine
end

