-- ==== Sys2Proof/Laws/Control.lean ====
section
/-! SUPPORT. What a step can be: an event performed, or the EFU's own step of the command that CW holds. -/

namespace Sys2Proof.Machine

/-- A well-formed command read back from the seven bits of CW (spec/10_state.md R53). -/
theorem decode_latched {i : Instr} (h : i.wellFormed = true) :
    decode (((encode i).setWidth 7).setWidth 32) = .command i := by
  cases i with
  | xtr f o => cases f <;> cases o <;> first | rfl | exact absurd h (by decide)
  | cln f o => cases f <;> cases o <;> first | rfl | exact absurd h (by decide)
  | spl f => cases f <;> first | rfl | exact absurd h (by decide)
  | knd f => cases f <;> first | rfl | exact absurd h (by decide)
  | cls f => cases f <;> first | rfl | exact absurd h (by decide)
  | ldc f => cases f <;> first | rfl | exact absurd h (by decide)
  | cvt f => cases f <;> first | rfl | exact absurd h (by decide)
  | min => rfl
  | rfr => rfl
  | rre => rfl
  | dgt => rfl
  | cle => rfl

/-- The command in progress is the one CW holds. -/
theorem command?_of_runs {s : State} {i : Instr} (h : s.runs i) : s.command? = some i := by
  rw [State.command?, h.2, decode_latched h.1]
  rfl

/-- CW holds one command at most. -/
theorem runs_unique {s : State} {i j : Instr} (hi : s.runs i) (hj : s.runs j) : i = j :=
  Option.some.inj ((command?_of_runs hi).symm.trans (command?_of_runs hj))

/-- The EFU's own step, busy, is `exec` of the command that CW holds. -/
theorem efuStep_of_runs {s : State} {i : Instr} (hb : s.busy = true) (h : s.runs i) : efuStep s = exec i s := by
  simp [efuStep, hb, command?_of_runs h]

/-- The EFU's own step, busy and at the body of `i`, is `exec` of `i` or of a CVT at the sub-step that stands for it. -/
theorem efuStep_of_runsStep {s : State} {i : Instr} {u : UStep} (hb : s.busy = true) (h : s.runsStep i u) :
    efuStep s = exec i s ∨ ∃ f, s.ustep = u ∧ efuStep s = exec (.cvt f) s := by
  obtain h | ⟨⟨f, h⟩, hu⟩ := h
  · exact .inl (efuStep_of_runs hb h)
  · exact .inr ⟨f, hu, efuStep_of_runs hb h⟩

/-- The EFU's own step, idle, is nothing (spec/60_exceptions.md R279). -/
theorem efuStep_idle {s : State} (hb : s.busy = false) : efuStep s = .next s := by simp [efuStep, hb]

/-- An EFU step that answers is idle, or is `exec` of the command read from CW. -/
theorem efuStep_eq_next {s t : State} (h : efuStep s = .next t) :
    (s.busy = false ∧ t = s) ∨ (s.busy = true ∧ ∃ i, s.command? = some i ∧ exec i s = .next t) := by
  unfold efuStep at h
  cases hb : s.busy with
  | false => exact .inl ⟨rfl, by simpa [hb] using h.symm⟩
  | true =>
    cases hc : s.command? with
    | none => simp [hb, hc] at h
    | some i => exact .inr ⟨rfl, i, rfl, by simpa [hb, hc] using h⟩

theorem step_of_agenda_nil {s : State} (h : s.agenda = []) : step s = efuStep s := by
  simp [step, nextStep, h]

theorem step_of_agenda_cons {s : State} {e : Event} {es : List Event} (h : s.agenda = e :: es) :
    step s = perform (s.withAgenda es) e := by
  simp [step, nextStep, h]

/-- A host write event leaves what the port leaves, and for an accepted CLE that with `ERR` and `BUSY` cleared
(spec/60_exceptions.md R267). -/
theorem writeEvent_cases (s : State) (a : Offset) (v : Word) :
    ((s.busy = false ∧ a = 0x10 ∧ v = cleWord) ∧ writeEvent s a v = .next (portWrite s a v).clearErr.finish) ∨
    (¬(s.busy = false ∧ a = 0x10 ∧ v = cleWord) ∧ writeEvent s a v = .next (portWrite s a v)) := by
  by_cases h : s.busy = false ∧ a = 0x10 ∧ v = cleWord
  · exact .inl ⟨h, if_pos h⟩
  · exact .inr ⟨h, if_neg h⟩

/-- What CLE's event leaves: the word taken and latched, no error, not busy (spec/45_system.md R220). -/
theorem writeEvent_cle {s : State} (h : s.busy = false) :
    writeEvent s 0x10 cleWord = .next { s with
      lastop := 0xF, cw := 0x0F, err := .noError, busy := false, rsp := some ⟨0, false⟩ } := by
  have ht : writeTarget s 0x10 cleWord = .ok .cmd := by simp [writeTarget, h]
  have hd : decode cleWord = .command .cle := by decide
  have hc : takeCommand s cleWord = (s.take cleWord).accept cleWord := by rw [takeCommand, hd]
  rw [writeEvent, if_pos ⟨h, rfl, rfl⟩, portWrite, ht]
  simp only [performWrite, if_true, hc]
  simp [exec, execCle, State.respond, State.take, State.accept, State.clearErr,
    State.finish, cleWord]

/-- A step that answers is the EFU's own, or one of the events of the other agents. -/
theorem step_eq_next {s t : State} (h : step s = .next t) :
    (s.agenda = [] ∧ efuStep s = .next t) ∨
    ∃ e es, s.agenda = e :: es ∧
      ((∃ a, e = .read a ∧ t = portRead (s.withAgenda es) a) ∨
       (∃ a v, e = .write a v ∧ writeEvent (s.withAgenda es) a v = .next t) ∨
       (e = .reset ∧ t = (s.withAgenda es).resetEvent) ∨
       (e = .efu ∧ efuStep (s.withAgenda es) = .next t) ∨
       (∃ b, e = .engine b ∧ t = (s.withAgenda es).setEngine b) ∨
       (∃ b, e = .sink b ∧ t = (s.withAgenda es).setSink b)) := by
  cases ha : s.agenda with
  | nil => exact .inl ⟨rfl, by rwa [step_of_agenda_nil ha] at h⟩
  | cons e es =>
    rw [step_of_agenda_cons ha] at h
    refine .inr ⟨e, es, rfl, ?_⟩
    cases e with
    | read a => exact .inl ⟨a, rfl, (by simpa [perform] using h.symm)⟩
    | write a v => exact .inr (.inl ⟨a, v, rfl, h⟩)
    | reset => exact .inr (.inr (.inl ⟨rfl, (by simpa [perform] using h.symm)⟩))
    | efu => exact .inr (.inr (.inr (.inl ⟨rfl, h⟩)))
    | engine b => exact .inr (.inr (.inr (.inr (.inl ⟨b, rfl, (by simpa [perform] using h.symm)⟩))))
    | sink b => exact .inr (.inr (.inr (.inr (.inr ⟨b, rfl, (by simpa [perform] using h.symm)⟩))))

/-- Of any core: a run of `k + 1` steps is a step and then a run of `k`. -/
theorem coreRun_succ (M : Host.Core) {s t : M.State} (k : Nat) (h : M.step s = .next t) :
    M.run (k + 1) s = M.run k t := by
  rw [Host.Core.run, h]

/-- Of any core: runs compose. -/
theorem coreRun_add (M : Host.Core) {s t : M.State} (m n : Nat) (h : M.run m s = .next t) :
    M.run (m + n) s = M.run n t := by
  induction m generalizing s with
  | zero =>
    have : s = t := Host.Outcome.next.inj h
    rw [this, Nat.zero_add]
  | succ m ih =>
    rw [show m + 1 + n = (m + n) + 1 by omega]
    cases hstep : M.step s with
    | next u =>
      rw [coreRun_succ M _ hstep] at h ⊢
      exact ih h
    | fault r => rw [Host.Core.run, hstep] at h; cases h
    | refused r => rw [Host.Core.run, hstep] at h; cases h

/-- A run of `k + 1` steps is a step and then a run of `k`. -/
theorem run_succ_of_step {s t : State} (k : Nat) (h : step s = .next t) :
    Sys2Proof.core.run (k + 1) s = Sys2Proof.core.run k t := coreRun_succ Sys2Proof.core k h

/-- A run of no steps. -/
theorem run_zero (s : State) : Sys2Proof.core.run 0 s = .next s := rfl

/-- Runs compose. -/
theorem run_add {s t : State} (m n : Nat) (h : Sys2Proof.core.run m s = .next t) :
    Sys2Proof.core.run (m + n) s = Sys2Proof.core.run n t := coreRun_add Sys2Proof.core m n h

end Sys2Proof.Machine
end

