-- ==== Sys2Proof/Laws/Operands.lean ====
section
/-! SUPPORT. What the operand operations compute: the lowest set bit, the record from its bytes, the fields. -/

namespace Sys2Proof.Machine

/-! ### The lowest set bit -/

theorem exists_getLsbD_of_ne_zero {a : BitVec 64} (h : a ≠ 0) : ∃ i, i < 64 ∧ a.getLsbD i = true := by
  by_contra hc
  push Not at hc
  apply h
  apply BitVec.eq_of_getLsbD_eq
  intro i hi
  simpa using hc i hi

/-- The bit found is set, lies in the word, and every bit below it is clear. -/
theorem lowestSetBitIndex_spec {a : BitVec 64} (h : a ≠ 0) :
    lowestSetBitIndex a < 64 ∧ a.getLsbD (lowestSetBitIndex a) = true ∧
      ∀ j, j < lowestSetBitIndex a → a.getLsbD j = false := by
  obtain ⟨i, hi, hb⟩ := exists_getLsbD_of_ne_zero h
  unfold lowestSetBitIndex
  cases hf : (List.range 64).find? fun i => a.getLsbD i with
  | none =>
    have := List.find?_eq_none.mp hf i (List.mem_range.mpr hi)
    exact absurd hb this
  | some k =>
    obtain ⟨hk, i, hi, hik, hlt⟩ := List.find?_eq_some_iff_getElem.mp hf
    have hki : i = k := by simpa using hik
    subst hki
    refine ⟨by simpa using hi, by simpa using hk, fun j hj => ?_⟩
    simpa using hlt j hj

/-- Everything below the lowest set bit divides out, and what is left is odd. -/
theorem lowestSetBitIndex_dvd {a : BitVec 64} (h : a ≠ 0) :
    2 ^ lowestSetBitIndex a ∣ a.toNat ∧ a.toNat / 2 ^ lowestSetBitIndex a % 2 = 1 := by
  obtain ⟨_, hset, hlow⟩ := lowestSetBitIndex_spec h
  constructor
  · apply Nat.dvd_of_mod_eq_zero
    apply Nat.eq_of_testBit_eq
    intro j
    rw [Nat.testBit_mod_two_pow, Nat.zero_testBit]
    by_cases hj : j < lowestSetBitIndex a
    · simp [BitVec.testBit_toNat, hlow j hj]
    · simp [hj]
  · have := hset
    rw [← BitVec.testBit_toNat, Nat.testBit_eq_decide_div_mod_eq] at this
    simpa using this

/-- The phase-1 amount fits ADJ. -/
theorem minimizeAmount_lt {a : BitVec 64} (h : a ≠ 0) (b : Int) : minimizeAmount a b < 64 := by
  unfold minimizeAmount
  split
  · exact lt_of_le_of_lt (min_le_left _ _) (lowestSetBitIndex_spec h).1
  · decide

/-- The phase-1 amount divides out. -/
theorem minimizeAmount_dvd {a : BitVec 64} (h : a ≠ 0) (b : Int) : 2 ^ minimizeAmount a b ∣ a.toNat := by
  unfold minimizeAmount
  split
  · exact dvd_trans (Nat.pow_dvd_pow 2 (min_le_left _ _)) (lowestSetBitIndex_dvd h).1
  · simp

/-- No phase-1 shift without a negative exponent. -/
theorem minimizeAmount_of_nonneg (a : BitVec 64) {b : Int} (h : 0 ≤ b) : minimizeAmount a b = 0 := by
  simp [minimizeAmount, not_lt.mpr h]

/-- With a negative exponent, phase 1 ends at exponent 0 or at an odd mantissa. -/
theorem minimizeAmount_of_neg {a : BitVec 64} (h : a ≠ 0) {b : Int} (hb : b < 0) :
    b + minimizeAmount a b ≤ 0 ∧ (b + minimizeAmount a b = 0 ∨ a.toNat / 2 ^ minimizeAmount a b % 2 = 1) := by
  have hm : minimizeAmount a b = min (lowestSetBitIndex a) (-b).toNat := by simp [minimizeAmount, hb]
  rcases le_total (lowestSetBitIndex a) (-b).toNat with hle | hle
  · rw [hm, min_eq_left hle]
    exact ⟨by omega, .inr (lowestSetBitIndex_dvd h).2⟩
  · rw [hm, min_eq_right hle]
    exact ⟨by omega, .inl (by omega)⟩

/-! ### Records from bytes -/

theorem recordOfBytes_toNat_lt : ∀ bs : List Byte, bs.length ≤ 10 → (recordOfBytes bs).toNat < 2 ^ (8 * bs.length)
  | [], _ => by simp [recordOfBytes]
  | b :: bs, h => by
    have ih := recordOfBytes_toNat_lt bs (by simp at h; omega)
    have hb := b.isLt
    rw [recordOfBytes, BitVec.toNat_or, BitVec.toNat_shiftLeft, BitVec.toNat_setWidth]
    apply Nat.or_lt_two_pow
    · refine lt_of_le_of_lt (Nat.mod_le _ _) ?_
      rw [Nat.shiftLeft_eq, List.length_cons, Nat.mul_add, pow_add]
      exact Nat.mul_lt_mul_of_pos_right ih (by decide)
    · refine lt_of_le_of_lt (Nat.mod_le _ _) (lt_of_lt_of_le hb ?_)
      exact Nat.pow_le_pow_right (by decide) (by simp)

/-- Bit `i` of a record is bit `i mod 8` of its byte `i div 8`. -/
theorem recordOfBytes_getLsbD : ∀ (bs : List Byte) (i : Nat), i < 80 →
    (recordOfBytes bs).getLsbD i = (bs[i / 8]?.getD 0).getLsbD (i % 8)
  | [], i, _ => by simp [recordOfBytes]
  | b :: bs, i, hi => by
    rw [recordOfBytes, BitVec.getLsbD_or, BitVec.getLsbD_shiftLeft, BitVec.getLsbD_setWidth]
    rcases Nat.lt_or_ge i 8 with h8 | h8
    · have : i / 8 = 0 := by omega
      simp [this, h8, hi, Nat.mod_eq_of_lt h8]
    · have ih := recordOfBytes_getLsbD bs (i - 8) (by omega)
      have h1 : i / 8 = (i - 8) / 8 + 1 := by omega
      have h2 : i % 8 = (i - 8) % 8 := by omega
      have h3 : b.getLsbD i = false := BitVec.getLsbD_of_ge b i h8
      simp only [h3, Bool.and_false, Bool.or_false, hi, decide_true, Bool.true_and, h1, List.getElem?_cons_succ, h2]
      simp [ih, Nat.not_lt.mpr h8]

/-- Byte `j` of a record is the `j`-th of its bytes. -/
theorem recordOfBytes_byte {bs : List Byte} {j : Nat} (hj : j < bs.length) (h10 : bs.length ≤ 10) :
    (recordOfBytes bs).extractLsb' (8 * j) 8 = bs[j] := by
  apply BitVec.eq_of_getLsbD_eq
  intro i hi
  rw [BitVec.getLsbD_extractLsb', recordOfBytes_getLsbD bs _ (by omega)]
  have h1 : (8 * j + i) / 8 = j := by omega
  have h2 : (8 * j + i) % 8 = i := by omega
  simp [hi, h1, h2, List.getElem?_eq_getElem hj]

/-- The Bit Extractor, byte by byte (spec/41_bit_extractor.md R120). -/
theorem extractRecord_byte (d : Descriptor) (o : ByteOrder) (opb : BitVec 128) (h10 : d.imageBytes ≤ 10) {j : Nat}
    (hj : j < d.imageBytes) :
    (extractRecord d o opb).extractLsb' (8 * j) 8 = opbByte opb (imageIndex d.imageBytes o j) := by
  unfold extractRecord
  rw [recordOfBytes_byte (by simpa using hj) (by simpa using h10)]
  simp

/-- The record has no bit above the image's bytes (spec/41_bit_extractor.md R120). -/
theorem extractRecord_toNat_lt (d : Descriptor) (o : ByteOrder) (opb : BitVec 128) (h10 : d.imageBytes ≤ 10) :
    (extractRecord d o opb).toNat < 2 ^ (8 * d.imageBytes) := by
  have := recordOfBytes_toNat_lt ((List.range d.imageBytes).map fun j => opbByte opb (imageIndex d.imageBytes o j))
    (by simpa using h10)
  simpa [extractRecord] using this

/-! ### Fields -/

/-- `SEXP` bit by bit (spec/10_state.md R28). -/
theorem packSexp_getLsbD (n : Bool) (e : BitVec 15) (i : Nat) :
    (packSexp n e).getLsbD i = if i < 15 then e.getLsbD i else (BitVec.ofBool n).getLsbD (i - 15) :=
  (BitVec.getLsbD_append (x := BitVec.ofBool n) (y := e)).trans (by split <;> rfl)

@[simp] theorem packSexp_expf (n : Bool) (e : BitVec 15) : (packSexp n e).extractLsb' 0 15 = e := by
  apply BitVec.eq_of_getLsbD_eq
  intro i hi
  rw [BitVec.getLsbD_extractLsb', packSexp_getLsbD]
  simp [hi]

@[simp] theorem packSexp_neg (n : Bool) (e : BitVec 15) : (packSexp n e).getLsbD 15 = n := by
  rw [packSexp_getLsbD]
  simp

/-- The fields SPL writes meet the range check for the same format (spec/42_classifier.md R130). -/
theorem fieldsInRange_split (d : Descriptor) (bits : BitVec 80) :
    fieldsInRange d (exponentOf d bits) (mantissaOf d bits) = true := by
  have h1 := (bits.extractLsb' 0 d.mantissaBits).isLt
  have h2 := (bits.extractLsb' d.mantissaBits d.exponentBits).isLt
  simp only [fieldsInRange, exponentOf, mantissaOf, BitVec.toNat_setWidth, Bool.and_eq_true, decide_eq_true_eq]
  exact ⟨lt_of_le_of_lt (Nat.mod_le _ _) h1, lt_of_le_of_lt (Nat.mod_le _ _) h2⟩

end Sys2Proof.Machine
end

