-- ==== Sys2Proof/Tests/Slice0.lean ====
section
/-! SUPPORT. Tests: the encodings and the well-formedness checks, one step of each command on the spec's own vectors,
and for each statement with hypotheses a concrete case that meets them. -/

namespace Sys2Proof.Tests

set_option Elab.async false

open Sys2Proof.Machine

/-! ## Well-formedness: an ill-formed term for each check -/

theorem test_wf_refuses_reserved_format :
    (∀ o, (Instr.xtr .reserved o).wellFormed = false) ∧ (Instr.spl .reserved).wellFormed = false ∧
    (Instr.knd .reserved).wellFormed = false ∧ (Instr.cls .reserved).wellFormed = false ∧
    (∀ o, (Instr.cln .reserved o).wellFormed = false) ∧ (Instr.ldc .reserved).wellFormed = false ∧
    (Instr.cvt .reserved).wellFormed = false :=
  ⟨fun _ => rfl, rfl, rfl, rfl, fun _ => rfl, rfl, rfl⟩

theorem test_wf_accepts :
    (Instr.xtr .extended .big).wellFormed = true ∧ (Instr.spl .single).wellFormed = true ∧
    Instr.min.wellFormed = true ∧ (Instr.cvt .double).wellFormed = true ∧ Instr.cle.wellFormed = true := by decide

/-! ## Encoding: words written out from spec/30_encoding.md R101 (`0 ... 0 BE FMT OP`) -/

/-- One word of every command, bit by bit; the commands are those of the list in spec/30_encoding.md section 6. -/
theorem test_decode_every_command :
    decode 0b0000000000000000000000000_1_10_0001 = .command (.xtr .extended .big) ∧
    decode 0b0000000000000000000000000_0_01_0010 = .command (.spl .double) ∧
    decode 0b0000000000000000000000000_0_10_0011 = .command (.knd .extended) ∧
    decode 0b0000000000000000000000000_0_00_0100 = .command (.cls .single) ∧
    decode 0b0000000000000000000000000_1_01_0101 = .command (.cln .double .big) ∧
    decode 0b0000000000000000000000000_0_10_0110 = .command (.ldc .extended) ∧
    decode 0b0000000000000000000000000_0_00_0111 = .command .min ∧
    decode 0b0000000000000000000000000_0_00_1000 = .command .rfr ∧
    decode 0b0000000000000000000000000_0_00_1001 = .command .rre ∧
    decode 0b0000000000000000000000000_0_00_1010 = .command .dgt ∧
    decode 0b0000000000000000000000000_0_01_1011 = .command (.cvt .double) ∧
    decode 0b0000000000000000000000000_0_00_1111 = .command .cle := by decide

/-- One word for each cause of R107 and for R108 (vectors E1 to E6c of spec/95_test_vectors.md). -/
theorem test_decode_refuses :
    decode 0x00 = .illegal .opcode ∧ decode 0x0C = .illegal .opcode ∧ decode 0x0D = .illegal .opcode ∧
    decode 0x0E = .illegal .opcode ∧ decode 0x17 = .illegal .formatNotTaken ∧ decode 0x42 = .illegal .orderNotTaken ∧
    decode 0x81 = .illegal .highBits ∧ decode 0x80000005 = .illegal .highBits ∧
    decode 0x3F = .illegal .formatNotTaken ∧ decode 0x31 = .badFormat (.xtr .reserved .little) ∧
    decode 0x3B = .badFormat (.cvt .reserved) := by decide

theorem test_decodeTableWord :
    decodeTableWord 32 0x51 = some (.xtr .double .big) ∧ decodeTableWord 32 0x0F = some .cle ∧
    decodeTableWord 32 0x47 = none := by decide

/-! ## Steps on small states -/

/-- The state an outcome answers; the reset state where it answers none. -/
def after : Host.Outcome State Fault Refusal → State
  | .next t => t
  | .fault _ => State.reset
  | .refused _ => State.reset

/-- The state after the listed events, one step each, from `s`. -/
def play (s : State) (es : List Event) : State := after (core.run es.length { s with agenda := es })

/-- A state with the given fields and nothing else. -/
def fieldsState (sexp : BitVec 16) (m : BitVec 64) : State := { State.reset with sexp := sexp, manf := m }

/-- A state with the given converter input (spec/44_exact_converter.md R197). -/
def inputState (m : BitVec 64) (b : BitVec 16) : State :=
  { State.reset with cmant := m, binexp := b, phase := .loaded }

/-- A busy state whose CW holds the word `w`. -/
def busyWith (w : BitVec 7) (s : State) : State := { s with cw := w, busy := true }

/-- The operand image of vectors X10 to X15: byte `a` holds `0x10 + a`. -/
def image : State := { State.reset with opb := 0x1F1E1D1C1B1A19181716151413121110 }

/-- X11: single, big-endian; the stale upper bits of X17 are cleared. -/
theorem test_xtr_single_big :
    (after (exec (.xtr .single .big) { image with bits := 0xFFFFFFFFFFFFFFFFFFFF })).bits = 0x10111213 := by
  decide +kernel

/-- X14 and X15: extended in both orders. -/
theorem test_xtr_extended :
    (after (exec (.xtr .extended .little) image)).bits = 0x19181716151413121110 ∧
    (after (exec (.xtr .extended .big) image)).bits = 0x10111213141516171819 := by decide +kernel

/-- K48: the record's bits above bit 63 are ignored. -/
theorem test_spl_double :
    let t := after (exec (.spl .double) { State.reset with bits := 0xFFFFFFFFFFFF3F800000 })
    t.sexp = 0x87FF ∧ t.manf = 0xFFFFF3F800000 := by decide +kernel

/-- K49: extended keeps the explicit bit in the mantissa field. -/
theorem test_spl_extended :
    let t := after (exec (.spl .extended) { State.reset with bits := 0xFFFFFFFFFFFF3F800000 })
    t.sexp = 0xFFFF ∧ t.manf = 0xFFFFFFFF3F800000 := by decide +kernel

/-- K40, K42, K43: the same fields under two formats, and with the sign set. -/
theorem test_knd_formats :
    (after (exec (.knd .single) (fieldsState 0x00FF 0))).kind = .infinity ∧
    (after (exec (.knd .extended) (fieldsState 0x00FF 0))).kind = .denormal ∧
    (after (exec (.knd .single) (fieldsState 0x80FF 0))).kind = .infinity := by decide +kernel

/-- E7: an exponent field too wide for single. -/
theorem test_knd_range :
    (after (exec (.knd .single) (fieldsState 0x0100 0))).err = .range := by decide +kernel

/-- K18: the double -1.5. -/
theorem test_cls_double :
    let t := after (exec (.cls .double) { State.reset with bits := 0xBFF8000000000000 })
    t.sexp = 0x83FF ∧ t.manf = 0x8000000000000 ∧ t.kind = .normal := by decide +kernel

/-- X2 with K-style fields: the double 1.0 as a big-endian image. -/
theorem test_cln_big :
    let t := after (exec (.cln .double .big) { State.reset with opb := 0x0000F03F })
    t.bits = 0x3FF0000000000000 ∧ t.sexp = 0x03FF ∧ t.manf = 0 ∧ t.kind = .normal := by decide +kernel

/-- V1's LDC: the double nearest 87.285. -/
theorem test_ldc_normal :
    let t := after (exec (.ldc .double) (fieldsState 0x0405 0x5D23D70A3D70A))
    t.cmant = 0x15D23D70A3D70A ∧ t.binExp = -46 ∧ t.cneg = false ∧ t.phase = .loaded := by decide +kernel

/-- P14's LDC: an unnormal with mantissa 0 is loaded. -/
theorem test_ldc_unnormal :
    let t := after (exec (.ldc .extended) (fieldsState 0x0005 0))
    t.kind = .denormal ∧ t.cmant = 0 ∧ t.binexp = 0xBFC7 ∧ t.phase = .loaded := by decide +kernel

/-- P28: the amount is limited by the exponent. -/
theorem test_min_limited :
    let t := after (exec .min (inputState 40 0xFFFE))
    t.adj = 2 ∧ t.cmant = 10 ∧ t.binexp = 0 ∧ t.phase = .minimized := by decide +kernel

/-- P10: no shift with exponent 0 though the mantissa is even. -/
theorem test_min_zero_exponent :
    let t := after (exec .min (inputState 4 0))
    t.adj = 0 ∧ t.cmant = 4 ∧ t.phase = .minimized := by decide +kernel

/-- P27's RFR: `(1, -3)`. -/
theorem test_rfr_negative :
    let t := after (exec .rfr { inputState 1 0xFFFD with phase := .minimized })
    t.acc = 125 ∧ t.p5n = 3 ∧ t.decexp = 0xFFFD ∧ t.binexp = 0 ∧ t.accnz = true ∧ t.phase = .defracted := by
  decide +kernel

/-- P24's RFR: `(6, 3)` keeps the exponent. -/
theorem test_rfr_positive :
    let t := after (exec .rfr { inputState 6 3 with phase := .minimized })
    t.acc = 6 ∧ t.p5n = 0 ∧ t.decexp = 0 ∧ t.binexp = 3 := by decide +kernel

/-- P9's RRE: `0xE1B1E6 x 2^104`. -/
theorem test_rre_shift :
    let t := after (exec .rre { State.reset with phase := .defracted, acc := 0xE1B1E6, binexp := 104, accnz := true })
    t.acc = 300000000549775575777803994281145270272 ∧ t.lshn = 104 ∧ t.binexp = 0 ∧ t.phase = .reduced := by
  decide +kernel

/-- V2's RRE: exponent 0, no request even of a silent engine. -/
theorem test_rre_zero :
    let t := after (exec .rre { State.reset with phase := .defracted, acc := 625, lshn := 7, engineReady := false })
    t.acc = 625 ∧ t.lshn = 0 ∧ t.phase = .reduced := by decide +kernel

/-- V2's first digit, (5,1,0). -/
theorem test_dgt_first :
    let t := after (exec .dgt { State.reset with phase := .reduced, acc := 625, decexp := 0xFFFC, p5n := 4 })
    t.acc = 62 ∧ t.dstream = [⟨5, true, false⟩] ∧ t.digit = 0x55 ∧ t.decexp = 0xFFFD ∧ t.ndig = 1 ∧
      t.phase = .digits := by decide +kernel

/-- V2's last digit, (0,0,1): the units digit 0 of a value below 1; `DIGIT` as B12 reads it. -/
theorem test_dgt_last :
    let t := after (exec .dgt { State.reset with phase := .digits, acc := 0, decexp := 0, p5n := 4, ndig := 4 })
    t.dstream = [⟨0, false, true⟩] ∧ t.digit = 0x60 ∧ t.decexp = 1 ∧ t.ndig = 5 ∧ t.phase = .finished := by
  decide +kernel

/-- E8: CVT of an unnormal with mantissa 0 loads, then raises PRECOND; `STATUS` is `0x000B0042`. -/
theorem test_cvt_precond :
    let t := play (fieldsState 0x0005 0) [.write 0x10 0x2B, .efu, .efu]
    statusWord t = 0x000B0042 ∧ t.binexp = 0xBFC7 ∧ t.dstream = [] := by decide +kernel

/-- V3 by CVT: the double 1.0 in 4 + 1 steps. -/
theorem test_cvt_one :
    let t := play (fieldsState 0x03FF 0) [.write 0x10 0x1B, .efu, .efu, .efu, .efu, .efu]
    t.dstream = [⟨1, false, true⟩] ∧ t.phase = .finished ∧ t.busy = false ∧ t.adj = 52 ∧ t.ndig = 1 := by
  decide +kernel

/-- E16: CLE in the reset state. -/
theorem test_cle_reset : statusWord (play State.reset [.write 0x10 0x0F]) = 0x000F0000 := by decide +kernel

/-- E12, E13, E13c, E13d: faulted, refused, written, cleared. -/
theorem test_cle_faulted :
    let t := play State.reset [.write 0x34 0, .write 0x10 0x07, .efu, .write 0x10 0x07]
    statusWord t = 0x00070042 ∧ t.rsp = some ⟨0, true⟩ ∧
    statusWord (play t [.write 0x34 3, .write 0x10 0x0F]) = 0x000F0002 := by decide +kernel

/-- E9, E3, E6: SEQ before PRECOND, CMD before SEQ, FORMAT. -/
theorem test_error_order :
    statusWord (play State.reset [.write 0x10 0x07, .efu]) = 0x00070050 ∧
    statusWord (play State.reset [.write 0x10 0x17]) = 0x00070010 ∧
    statusWord (play State.reset [.write 0x10 0x31]) = 0x00010020 := by decide +kernel

/-- B1, B4, B3: reads of CMD, of a misaligned and of an unmapped offset. -/
theorem test_bus_errors :
    (play State.reset [.read 0x10]).rsp = some ⟨0, true⟩ ∧ (play State.reset [.read 0x15]).rsp = some ⟨0, true⟩ ∧
    (play State.reset [.read 0x5C]).rsp = some ⟨0, true⟩ ∧ (play State.reset [.read 0x58]).rsp = some ⟨0, false⟩ := by
  decide +kernel

/-- B8 and B6: sign extension of BINEXP, PHASE, and the named bits of SEXP. -/
theorem test_read_back :
    (play State.reset [.write 0x3C 0x00018000, .read 0x3C]).rsp = some ⟨0xFFFF8000, false⟩ ∧
    (play State.reset [.write 0x3C 0x00018000]).phase = .loaded ∧
    (play State.reset [.write 0x2C 0xFFFFFFFF, .read 0x2C]).rsp = some ⟨0x0000FFFF, false⟩ := by decide +kernel

/-- 20_memory.md R80: the word at the lower offset is the less significant one, of MANF and of CMANT. -/
theorem test_word_order :
    (play State.reset [.write 0x24 0x89ABCDEF, .write 0x28 0x01234567]).manf = 0x0123456789ABCDEF ∧
    (play State.reset [.write 0x34 0x89ABCDEF, .write 0x38 0x01234567]).cmant = 0x0123456789ABCDEF ∧
    (play (fieldsState 0 0x0123456789ABCDEF) [.read 0x28]).rsp = some ⟨0x01234567, false⟩ := by decide +kernel

/-- B15 and Z2: a write during a CVT is refused; a reset abandons it and keeps the stream. -/
theorem test_busy_and_reset :
    let t := play (fieldsState 0x03FB 0) [.write 0x10 0x1B, .efu, .efu, .efu, .efu, .efu, .write 0x34 7]
    t.rsp = some ⟨0, true⟩ ∧ t.busy = true ∧
    play t [.reset] = { State.reset with dstream := [⟨5, true, false⟩] } := by decide +kernel

/-- The placed word runs at the next step: XTR of a big-endian double (X13's word), an illegal word, and CLE. -/
theorem test_withFetchWord :
    (after (step ({ image with busy := false }.withFetchWord 32 0x51))).bits = 0x1011121314151617 ∧
    (after (step (State.reset.withFetchWord 32 0x0C))).err = .cmd ∧
    statusWord (after (step ({ State.reset with err := .range }.withFetchWord 32 0x0F))) = 0x000F0000 := by decide +kernel

/-- F3 and F1 (host formatter): V5 padded on the left, V6 grouped. -/
theorem test_formatter (p : Config.FormatterParams) :
    padText p ⟨false, false, [], ',', '.', 9, '&', .right⟩ ['-'] ['1', '.', '0', '6', '2', '5']
      = ['&', '&', '-', '1', '.', '0', '6', '2', '5'] ∧
    (groupDigits 255 ',' [3] 0 ['0', '9', '8', '7', '6']).reverse = ['6', '7', ',', '8', '9', '0'] := by
  constructor <;> rfl

/-- F12 with `SEXP.NEG` set: the sign of an Infinity comes from `SEXP`, not from `CNEG`. -/
theorem test_formatter_sign (p : Config.FormatterParams) :
    formatState p ⟨false, false, [], ',', '.', 0, ' ', .right⟩
      { fieldsState 0x80FF 0 with kind := .infinity, cneg := false } = "-Infinity".toList := by rfl

/-! ## A case that meets the hypotheses of each statement -/

/-- `StepRunsTheLatchedCommand` and the invariants: a CVT in progress. -/
def cvtState : State := busyWith 0x1B (fieldsState 0x03FB 0)

theorem cvtState_runs : cvtState.runs (.cvt .double) := by unfold State.runs; decide

theorem witness_StepRunsTheLatchedCommand :
    (Instr.cvt .double).wellFormed = true ∧ cvtState.busy = true ∧ cvtState.cw = (encode (.cvt .double)).setWidth 7 := by
  decide

/-- Both sides of the write clauses meet at CMD: CLE written while idle, CLE while busy, another word, another offset. -/
theorem witness_StepPerformsTheNextEvent :
    State.reset.busy = false ∧ cvtState.busy = true ∧ (0x14 : Offset) ≠ 0x10 ∧ (0x1F : Word) ≠ 0x0000000F := by decide

theorem witness_PlacedCommandRunsNext :
    (Instr.dgt).wellFormed = true ∧ Instr.dgt ≠ .cle ∧ (Instr.cvt .extended).wellFormed = true ∧
      (encode (.cvt .extended)).extractLsb' 0 4 = 0xB := by decide

theorem witness_CommandWriteIsHandledInOrder :
    cvtState.busy = true ∧
    (let s : State := { State.reset with err := .seq };
      s.busy = false ∧ s.err ≠ .noError ∧ (0x1F : Word) ≠ 0x0000000F) ∧
    (State.reset.busy = false ∧ State.reset.err = .noError ∧ decode 0x7F = .illegal .formatNotTaken ∧
      decode 0x80 = .illegal .highBits ∧ decode 0x31 = .badFormat (.xtr .reserved .little) ∧
      decode 0x0F = .command .cle) := by decide

theorem witness_XtrWritesTheRecord :
    (Fmt.single, 4) ∈ [(Fmt.single, 4), (.double, 8), (.extended, 10)] ∧
    (Fmt.extended, 10) ∈ [(Fmt.single, 4), (.double, 8), (.extended, 10)] := by decide

/-- The images of vectors X14 and its reversal. -/
theorem witness_XtrIsIndependentOfByteOrder :
    ∀ j, j < 10 → opbByte ({ image with opb := 0x10111213141516171819 } : State).opb (10 - 1 - j) = opbByte image.opb j := by
  decide +kernel

theorem witness_KndDecidesByTheTables :
    (fieldsState 0x00FF 0x7FFFFF).manf.toNat < 2 ^ 23 ∧ (fieldsState 0x00FF 0x7FFFFF).expf.toNat < 2 ^ 8 ∧
    (fieldsState 0x07FF 0xFFFFFFFFFFFFF).manf.toNat < 2 ^ 52 ∧ (fieldsState 0x07FF 0xFFFFFFFFFFFFF).expf.toNat < 2 ^ 11 := by
  decide +kernel

theorem witness_SplSplitsTheRecord :
    (Fmt.extended, 80, 64, 15) ∈ [(Fmt.single, 32, 23, 8), (.double, 64, 52, 11), (.extended, 80, 64, 15)] := by decide

/-- For `ClsIsSplThenKnd`, `ClnIsXtrThenSplThenKnd` and `IndefiniteArisesForExtendedOnly`. -/
theorem witness_formatSupported : Fmt.single ≠ .reserved ∧ Fmt.double ≠ .reserved ∧ Fmt.extended ≠ .reserved := by
  decide

theorem witness_ClassificationCommandsLeaveOtherOffsets :
    (∃ t, exec (.xtr .single .little) image = .next t ∧ (0x34 : Offset) ∉ [0x14, 0x18, 0x1C, 0x20]) ∧
    (∃ t, exec (.spl .single) image = .next t ∧ (0x18 : Offset) ∉ [0x14, 0x24, 0x28, 0x2C]) ∧
    (∃ t, exec (.knd .single) image = .next t ∧ (0x24 : Offset) ∉ [0x14, 0x30]) ∧
    (∃ t, exec (.cls .single) image = .next t ∧ (0x18 : Offset) ∉ [0x14, 0x24, 0x28, 0x2C, 0x30]) ∧
    (∃ t, exec (.cln .single .big) image = .next t ∧
      (0x58 : Offset) ∉ [0x14, 0x18, 0x1C, 0x20, 0x24, 0x28, 0x2C, 0x30]) :=
  ⟨⟨_, rfl, by decide⟩, ⟨_, rfl, by decide⟩, ⟨_, rfl, by decide⟩, ⟨_, rfl, by decide⟩, ⟨_, rfl, by decide⟩⟩

/-- Each bound exceeded by one, in the mantissa and in the exponent field. -/
theorem witness_RangeCheckComesFirst :
    2 ^ 23 ≤ (fieldsState 0 0x800000).manf.toNat ∧ 2 ^ 8 ≤ (fieldsState 0x0100 0).expf.toNat ∧
    2 ^ 52 ≤ (fieldsState 0 0x10000000000000).manf.toNat ∧ 2 ^ 11 ≤ (fieldsState 0x0800 0).expf.toNat ∧
    (fieldsState 0x0800 0).ustep = .sLdc := by decide +kernel

theorem witness_ReservedFormatRaisesFormat : State.reset.ustep = .sLdc := rfl

theorem witness_WrongPhaseRaisesSeq :
    State.reset.phase ≠ .loaded ∧ State.reset.phase ≠ .minimized ∧ State.reset.phase ≠ .defracted ∧
    ({ State.reset with phase := .finished } : State).phase ≠ .reduced ∧
    ({ State.reset with phase := .finished } : State).phase ≠ .digits := by decide

theorem witness_ZeroMantissaRaisesPrecond :
    let s : State := { inputState 0 0xBFC7 with ustep := .sMin }
    s.phase = .loaded ∧ s.cmant = 0 ∧ s.ustep = .sMin := by decide

theorem witness_RaisingStepWritesNothingElse :
    ∃ t, exec .min State.reset = .next t ∧ t.err ≠ .noError ∧ t.err ≠ State.reset.err :=
  ⟨_, rfl, by decide, by decide⟩

/-- A CVT whose first sub-step raises RANGE. -/
def cvtRangeState : State := busyWith 0x0B (fieldsState 0x0100 0)

/-- A CVT whose second sub-step raises PRECOND. -/
def cvtPrecondState : State := busyWith 0x2B { inputState 0 0xBFC7 with ustep := .sMin }

theorem witness_CvtRaisesRangeOrPrecondOnly :
    (cvtRangeState.controlInv ∧ cvtRangeState.busy = true ∧ cvtRangeState.runs (.cvt .single) ∧
      ∃ t, exec (.cvt .single) cvtRangeState = .next t ∧ t.err = .range) ∧
    (cvtPrecondState.controlInv ∧ cvtPrecondState.busy = true ∧ cvtPrecondState.runs (.cvt .extended) ∧
      ∃ t, exec (.cvt .extended) cvtPrecondState = .next t ∧ t.err = .precond) :=
  ⟨⟨fun _ => ⟨⟨.cvt .single, rfl, by decide⟩, rfl, fun _ => trivial⟩, rfl, ⟨rfl, by decide⟩, _,
      rfl, by decide +kernel⟩,
    ⟨fun _ => ⟨⟨.cvt .extended, rfl, by decide⟩, rfl, fun _ => rfl⟩, rfl, ⟨rfl, by decide⟩, _,
      rfl, by decide +kernel⟩⟩

theorem witness_NoCommandReadsKindOrLastop :
    (∃ t, exec .dgt State.reset = .next t) ∧ ∃ t, exec (.ldc .double) cvtState = .next t := ⟨⟨_, rfl⟩, _, rfl⟩

/-- A faulted EFU, not busy. -/
def faultedState : State := { State.reset with err := .range }

/-- CLE and a neighbouring word written to it, a data register written and read, and an event that answers. -/
theorem witness_FaultedStateAdmitsOnlyCle :
    faultedState.busy = false ∧ faultedState.err ≠ .noError ∧ (0x1F : Word) ≠ 0x0000000F ∧ (0x34 : Offset) ≠ 0x10 ∧
      (0x34 : Offset) ≠ 0x14 ∧ ∃ t, step { faultedState with agenda := [.efu] } = .next t :=
  ⟨rfl, by decide, by decide, by decide, by decide, _, rfl⟩

/-- The smallest and largest exponent field of a Normal, and a Denormal; the same for extended. -/
theorem witness_LdcLoadsTheConverterInput :
    (let s := fieldsState 0x0001 0x7FFFFF;
      s.manf.toNat < 2 ^ 23 ∧ 0 < s.expf.toNat ∧ s.expf.toNat < 2 ^ 8 - 1) ∧
    (let s := fieldsState 0x07FE 0xFFFFFFFFFFFFF;
      s.manf.toNat < 2 ^ 52 ∧ 0 < s.expf.toNat ∧ s.expf.toNat < 2 ^ 11 - 1) ∧
    (let s := fieldsState 0x8000 1;
      s.manf.toNat < 2 ^ 23 ∧ s.expf = 0 ∧ s.manf ≠ 0) ∧
    (let s := fieldsState 0x7FFE 0;
      s.expf.toNat ≠ 0x7FFF ∧ (s.expf ≠ 0 ∨ s.manf ≠ 0)) ∧
    (let s := fieldsState 0 0xFFFFFFFFFFFFFFFF;
      s.expf.toNat ≠ 0x7FFF ∧ (s.expf ≠ 0 ∨ s.manf ≠ 0)) := by decide +kernel

theorem witness_OtherKindsBypassTheConverter :
    (let s := fieldsState 0x00FF 0x400000;
      s.manf.toNat < 2 ^ 23 ∧ s.expf.toNat < 2 ^ 8 ∧ s.ustep = .sLdc ∧
      ∃ u, exec (.knd .single) s = .next u ∧ u.kind ∈ [Kind.zero, .infinity, .quietNaN, .signalingNaN, .indefinite]) ∧
    (let s := fieldsState 0x7FFF 0xC000000000000000;
      s.manf.toNat < 2 ^ 64 ∧ s.expf.toNat < 2 ^ 15 ∧
      ∃ u, exec (.knd .extended) s = .next u ∧
        u.kind ∈ [Kind.zero, .infinity, .quietNaN, .signalingNaN, .indefinite]) :=
  ⟨⟨by decide, by decide, rfl, _, rfl, by decide +kernel⟩, ⟨by decide, by decide, _, rfl, by decide +kernel⟩⟩

/-- P23 (largest amount), P11 (exponent -1) and P10 (exponent 0). -/
theorem witness_MinRemovesTheCommonTwos :
    (∀ s ∈ [inputState 0x8000000000000000 0xFFC1, inputState 12 0xFFFF], s.phase = .loaded ∧ s.cmant ≠ 0 ∧ s.binExp < 0) ∧
    (inputState 4 0).phase = .loaded ∧ (inputState 4 0).cmant ≠ 0 ∧ 0 ≤ (inputState 4 0).binExp := by decide +kernel

/-- RFR's input: a minimized mantissa 1 with the given exponent. -/
def minimizedState (b : BitVec 16) : State := { inputState 1 b with phase := .minimized }

/-- P17's and P18's exponents, the ends of the register's range, and the two next to zero. -/
theorem witness_RfrRemovesTheFraction :
    (∀ s ∈ [minimizedState 0x8000, minimizedState 0xFFFF],
      s.phase = .minimized ∧ s.engineReady = true ∧ s.binExp < 0) ∧
    (∀ s ∈ [minimizedState 0, minimizedState 0x7FFF],
      s.phase = .minimized ∧ s.engineReady = true ∧ 0 ≤ s.binExp) := by decide +kernel

/-- RRE's input: accumulator 1 with the given exponent. -/
def defractedState (b : BitVec 16) : State :=
  { State.reset with binexp := b, acc := 1, accnz := true, phase := .defracted }

theorem witness_RreReducesTheExponent :
    (∀ s ∈ [defractedState 1, defractedState 0x7FFF], s.phase = .defracted ∧ 0 < s.binExp ∧ s.engineReady = true) ∧
    (defractedState 0).phase = .defracted ∧ (defractedState 0).binExp ≤ 0 := by decide +kernel

/-- A digit state whose engine no longer answers, and whose beat is held (spec/20_memory.md R89). -/
def heldState (u : UStep) : State :=
  { State.reset with phase := .digits, engineReady := false, beat := some ⟨0, false, true⟩, ustep := u }

theorem witness_DgtDrawsOneDigit :
    (∀ p ∈ [Phase.reduced, .digits], let s : State := { State.reset with phase := p }
      (s.phase = .reduced ∨ s.phase = .digits) ∧ s.engineReady = true ∧ s.sinkReady = true) ∧
    (let s := heldState .sLdc; s.phase = .digits ∧ s.engineReady = false ∧ s.beat ≠ none ∧ s.sinkReady = true) := by
  decide

theorem witness_EveryConverterStepKeepsTheValue :
    (∃ t, exec .min (inputState 12 0xFFFF) = .next t) ∧ (inputState 12 0xFFFF).cmant ≠ 0 ∧
    (∃ t, exec .rfr { inputState 3 0xFFFF with phase := .minimized } = .next t) ∧
    (∃ t, exec .rre { inputState 3 1 with phase := .defracted } = .next t) ∧
    (∃ t, exec .dgt { State.reset with phase := .reduced, decexp := 0x7FFE } = .next t) ∧
    ({ State.reset with decexp := 0x7FFE } : State).binExp = 0 ∧
    ({ State.reset with decexp := 0x7FFE } : State).decExp < 32767 ∧
    (∃ t, exec .rre { inputState 3 0 with phase := .defracted, engineReady := false } = .next t) ∧
    (inputState 3 0).binExp ≤ 0 ∧ (∃ t, exec .dgt (heldState .sLdc) = .next t) ∧ (heldState .sLdc).beat ≠ none :=
  ⟨⟨_, rfl⟩, by decide, ⟨_, rfl⟩, ⟨_, rfl⟩, ⟨_, rfl⟩, by decide, by decide, ⟨_, rfl⟩, by decide, ⟨_, rfl⟩, by decide⟩

theorem witness_CvtSubStepsAreTheCommands :
    descOf .double = some descDouble ∧
    (cvtState.ustep = .sLdc ∧ fieldsInRange descDouble cvtState.expf cvtState.manf = true) ∧
    (let s : State := { inputState 1 0 with ustep := .sMin };
      s.ustep = .sMin ∧ s.phase = .loaded ∧ s.cmant ≠ 0) ∧
    (let s : State := { State.reset with ustep := .sRfr, phase := .minimized };
      s.ustep = .sRfr ∧ s.phase = .minimized ∧ s.engineReady = true) ∧
    (let s : State := { State.reset with ustep := .sRre, phase := .defracted };
      s.ustep = .sRre ∧ s.phase = .defracted ∧ s.engineReady = true) ∧
    (let s : State := { State.reset with ustep := .sRre, phase := .defracted, engineReady := false };
      s.ustep = .sRre ∧ s.phase = .defracted ∧ s.binExp ≤ 0) ∧
    (let s : State := { State.reset with ustep := .sDgt, phase := .digits };
      s.ustep = .sDgt ∧ (s.phase = .reduced ∨ s.phase = .digits) ∧ s.engineReady = true ∧ s.sinkReady = true) ∧
    (let s := heldState .sDgt;
      s.ustep = .sDgt ∧ (s.phase = .reduced ∨ s.phase = .digits) ∧ s.engineReady = false ∧ s.beat ≠ none
        ∧ s.sinkReady = true) := by
  decide +kernel

/-- V2 at REDUCED, in the middle of a CVT. -/
def reducedState : State :=
  busyWith 0x1B { State.reset with
    phase := .reduced, acc := 625, accnz := true, decexp := 0xFFFC, p5n := 4, ustep := .sDgt }

theorem reducedState_converterInv : reducedState.converterInv :=
  ⟨⟨by decide, by decide, by decide, by decide +kernel, by decide, by decide, by decide, by decide⟩, by decide, by decide⟩

theorem witness_DigitStepsDrawTheAccumulator :
    reducedState.converterInv ∧ reducedState.phase = .reduced ∧ reducedState.busy = true ∧
    reducedState.runs (.cvt .double) ∧ reducedState.ustep = .sDgt ∧ reducedState.agenda = [] ∧
    reducedState.engineReady = true ∧ reducedState.sinkReady = true :=
  ⟨reducedState_converterInv, rfl, rfl, ⟨rfl, by decide⟩, rfl, rfl, rfl, rfl⟩

/-- V2's fields. -/
theorem witness_CvtConvertsTheExactValue :
    descOf .double = some descDouble ∧ cvtState.busy = true ∧ cvtState.runs (.cvt .double) ∧ cvtState.ustep = .sLdc ∧
    cvtState.agenda = [] ∧ cvtState.engineReady = true ∧ cvtState.sinkReady = true ∧
    fieldsInRange descDouble cvtState.expf cvtState.manf = true ∧
    (kindOf descDouble cvtState.expf cvtState.manf).converts = true ∧ descDouble.impliedOne = true :=
  ⟨rfl, rfl, cvtState_runs, rfl, rfl, rfl, rfl, by decide +kernel, by decide +kernel, rfl⟩

/-- One state for each clause: E7's fields (RANGE), the single Infinity of K40 (bypass), the zero mantissa of E8 (PRECOND),
and the extended pseudo-denormal of P13. -/
theorem witness_CvtEqualsTheCommandSequence :
    (∀ s ∈ [fieldsState 0x0100 0, fieldsState 0x00FF 0, fieldsState 0x0005 0, fieldsState 0 0x8000000000000000],
      s.busy = false ∧ s.err = .noError ∧ s.engReq = none ∧ s.beat = none ∧ s.engineReady = true ∧ s.sinkReady = true) ∧
    descOf .single = some descSingle ∧ descOf .extended = some descExtended ∧
    (let s := fieldsState 0x0100 0; fieldsInRange descSingle s.expf s.manf = false) ∧
    (let s := fieldsState 0x00FF 0;
      fieldsInRange descSingle s.expf s.manf = true ∧ (kindOf descSingle s.expf s.manf).converts = false) ∧
    (let s := fieldsState 0x0005 0;
      fieldsInRange descExtended s.expf s.manf = true ∧ (kindOf descExtended s.expf s.manf).converts = true ∧
      descExtended.impliedOne = false ∧ s.manf = 0) ∧
    (let s := fieldsState 0 0x8000000000000000;
      fieldsInRange descExtended s.expf s.manf = true ∧ (kindOf descExtended s.expf s.manf).converts = true ∧
      s.manf ≠ 0) := by decide +kernel

/-- Each step that asks the engine, as a command and as CVT's sub-step, with a silent engine. -/
theorem witness_SilentEngineHangsTheCommand :
    (∀ w ∈ [0x08, 0x0B],
      let s := busyWith (BitVec.ofNat 7 w)
        { State.reset with phase := .minimized, engineReady := false, ustep := .sRfr };
      s.busy = true ∧ s.agenda = [] ∧ s.engineReady = false ∧ s.beat = none ∧ s.phase = .minimized ∧
        (s.runs .rfr ∨ (s.runs (.cvt .single) ∧ s.ustep = .sRfr))) ∧
    (∀ w ∈ [0x09, 0x1B],
      let s := busyWith (BitVec.ofNat 7 w)
        { State.reset with phase := .defracted, binexp := 1, engineReady := false, ustep := .sRre };
      s.phase = .defracted ∧ 0 < s.binExp ∧ (s.runs .rre ∨ (s.runs (.cvt .double) ∧ s.ustep = .sRre))) ∧
    (∀ w ∈ [0x0A, 0x2B],
      let s := busyWith (BitVec.ofNat 7 w) { State.reset with phase := .digits, engineReady := false, ustep := .sDgt };
      s.phase = .digits ∧ (s.runs .dgt ∨ (s.runs (.cvt .extended) ∧ s.ustep = .sDgt))) := by
  unfold State.runs; decide +kernel

/-- DGT and a CVT's digit sub-step at a sink that does not take the beat, with an engine that answers and, the beat
being held, with a silent one. -/
theorem witness_SilentSinkHoldsTheBeat :
    (let s := busyWith 0x0A { State.reset with phase := .reduced, sinkReady := false };
      s.busy = true ∧ s.agenda = [] ∧ s.engineReady = true ∧ s.sinkReady = false ∧ s.runs .dgt ∧ s.phase = .reduced) ∧
    (let s := busyWith 0x1B { heldState .sDgt with sinkReady := false };
      s.busy = true ∧ s.agenda = [] ∧ s.engineReady = false ∧ s.beat ≠ none ∧ s.sinkReady = false ∧
        s.runs (.cvt .double) ∧ s.ustep = .sDgt ∧ s.phase = .digits) := by unfold State.runs; decide +kernel

/-- The two counts at which the rules of MULP5 and SHL end. -/
theorem witness_EngineRequestsAreExact : (32768#16).toNat ≤ 32768 ∧ (32767#16).toNat ≤ 32767 := by decide

theorem witness_BusErrorChangesNoState :
    (portWrite State.reset 0x14 1).rsp = some ⟨0, true⟩ ∧ (portRead State.reset 0x10).rsp = some ⟨0, true⟩ ∧
    (portWrite State.reset 0x38 1).rsp = some ⟨0, false⟩ ∧ (portRead State.reset 0x58).rsp = some ⟨0, false⟩ := by
  decide +kernel

/-- The offsets where the clauses meet: 0x58 is mapped, 0x59 misaligned, 0x5C unmapped, 0xFC the last word. -/
theorem witness_ForbiddenAccessesAreBusErrors :
    (0x59 : Offset).toNat % 4 ≠ 0 ∧ 0x5C ≤ (0x5C : Offset).toNat ∧ 0x5C ≤ (0xFC : Offset).toNat ∧
    (0x58 : Offset).toNat % 4 = 0 ∧ ¬ 0x5C ≤ (0x58 : Offset).toNat ∧
    (0x58 : Offset) ∈ [0x14, 0x30, 0x44, 0x48, 0x4C, 0x50, 0x54, (0x58 : Offset)] := by decide

theorem witness_WritesWhileBusyAreRefused : cvtState.busy = true := rfl

/-- The last mapped word, the first unmapped one, and the write-only register. -/
theorem witness_ReadsChangeNoState :
    State.reset.wordAt 0x58 = some 0 ∧ State.reset.wordAt 0x5C = none ∧ State.reset.wordAt 0x10 = none ∧
      (0x18 : Offset) ≠ 0x14 := by decide +kernel

theorem witness_WrittenRegistersReadBack :
    State.reset.busy = false ∧
    (0x38 : Offset) ∈ [0x00, 0x04, 0x08, 0x0C, 0x18, 0x1C, 0x24, 0x28, 0x34, (0x38 : Offset)] ∧
    (0x2C : Offset) ∈ [0x20, (0x2C : Offset)] := by decide

theorem witness_WritesChangeTheirRegisterOnly :
    (0x38 : Offset) ≠ 0x10 ∧ (0x34 : Offset) ≠ 0x38 ∧ (0x34 : Offset) ≠ 0x14 ∧
    (0x40 : Offset) ∉ [0x34, 0x38, (0x3C : Offset)] ∧ (0x3C : Offset) ∈ [0x34, 0x38, (0x3C : Offset)] ∧
    State.reset.busy = false := by decide

theorem witness_LittleEndianRecordsAreTheOperandWords :
    (∃ t, exec (.xtr .single .little) image = .next t) ∧ (∃ t, exec (.xtr .double .little) image = .next t) ∧
    (∃ t, exec (.xtr .extended .little) image = .next t) := ⟨⟨_, rfl⟩, ⟨_, rfl⟩, ⟨_, rfl⟩⟩

theorem witness_ResetAbandonsTheCommand :
    ({ cvtState with agenda := [.reset, .efu] } : State).agenda = .reset :: [.efu] := rfl

theorem witness_EveryStepKeepsTheConverterInvariant :
    reducedState.converterInv ∧ ∃ t, step reducedState = .next t := ⟨reducedState_converterInv, _, rfl⟩

theorem reducedState_controlInv : reducedState.controlInv := fun _ =>
  ⟨⟨.cvt .double, rfl, by decide⟩, rfl, fun _ => .inl rfl⟩

theorem witness_EveryStepKeepsTheControlInvariant :
    reducedState.controlInv ∧ ∃ t, step reducedState = .next t := ⟨reducedState_controlInv, _, rfl⟩

/-- A digit step whose beat the sink has not taken, and one whose request the engine has not answered. -/
theorem witness_EveryStepKeepsWhatIsInFlight :
    (({ reducedState with beat := some ⟨5, true, false⟩ } : State).inFlightInv ∧
      ∃ t, step { reducedState with beat := some ⟨5, true, false⟩ } = .next t) ∧
    (({ reducedState with engReq := some .divmod10 } : State).inFlightInv ∧
      ∃ t, step { reducedState with engReq := some .divmod10 } = .next t) := by
  refine ⟨⟨⟨fun r h => (nomatch h), fun b h => ?_⟩, _, rfl⟩, ⟨fun r h => ?_, fun b h => (nomatch h)⟩, _, rfl⟩
  · cases h
    exact ⟨rfl, by decide, .inl rfl, by decide +kernel, rfl⟩
  · cases h
    exact ⟨rfl, by decide, .inl rfl, rfl⟩

theorem witness_NoStepStopsTheMachine : reducedState.controlInv := reducedState_controlInv

/-- CLE's write, and a reset, about to come in the faulted state. -/
theorem witness_FirstErrorStaysUntilCleared :
    ∀ e ∈ [Event.write 0x10 0x0F, .reset],
      ({ faultedState with agenda := [e] } : State).controlInv ∧ faultedState.err ≠ .noError ∧
        ∃ t, step { faultedState with agenda := [e] } = .next t ∧ t.err ≠ faultedState.err := by
  intro e he
  refine ⟨fun h => absurd h (by simp [faultedState, State.reset]), by decide, ?_⟩
  rcases List.mem_pair.mp he with rfl | rfl
  · exact ⟨_, rfl, by decide⟩
  · exact ⟨_, rfl, by decide⟩

/-- A digit step, a host write of a converter input, and a reset. -/
theorem witness_PhaseMovesOnlyAlongTheTable :
    (∃ t, step reducedState = .next t ∧ t.phase ≠ reducedState.phase) ∧
    (∃ t, step { State.reset with agenda := [.write 0x3C 1] } = .next t ∧ t.phase ≠ State.reset.phase) ∧
    (∃ t, step { inputState 1 1 with agenda := [.reset] } = .next t ∧ t.phase ≠ (inputState 1 1).phase) :=
  ⟨⟨_, rfl, by decide +kernel⟩, ⟨_, rfl, by decide +kernel⟩, ⟨_, rfl, by decide +kernel⟩⟩

theorem witness_StreamOnlyGrowsByDigitSteps :
    ∃ t, step reducedState = .next t ∧ t.dstream ≠ reducedState.dstream := ⟨_, rfl, by decide +kernel⟩

theorem witness_GroupingOnlyInsertsSeparators : ',' ∉ ['0', '9', '8'] := by decide

end Sys2Proof.Tests
end

/-! The register port seen as a memory of named words (spec/10_state.md R24, R45, R46): where each register stands,
which words a write leaves alone, and what a written register reads back. -/

namespace Sys2Proof.Machine

/-! ### The map is a bijection between its 23 offsets and the registers -/

/-- The place of a register in the map; its offset is four times this (spec/10_state.md R24). -/
def Reg.index (r : Reg) : Nat := registerMap.idxOf r

theorem registerMap_index (r : Reg) : registerMap[r.index]? = some r := by cases r <;> rfl

theorem index_registerMap {k : Nat} (hk : k < registerMap.length) : registerMap[k].index = k :=
  List.Nodup.idxOf_getElem (by decide) k hk

theorem locate_eq_ok_iff {a : Offset} {r : Reg} : locate a = .ok r ↔ a.toNat = 4 * r.index := by
  constructor
  · intro h
    unfold locate at h
    split at h
    · simp at h
    · next hal =>
      split at h
      · simp at h
      · next r' hr' =>
        obtain rfl : r' = r := by simpa using h
        obtain ⟨hk, rfl⟩ := List.getElem?_eq_some_iff.mp hr'
        rw [index_registerMap hk]
        omega
  · intro h
    have hdiv : a.toNat / 4 = r.index := by omega
    simp [locate, h, registerMap_index]

/-- Two offsets of one register are the same offset. -/
theorem locate_inj {a b : Offset} {r : Reg} (ha : locate a = .ok r) (hb : locate b = .ok r) : a = b :=
  BitVec.eq_of_toNat_eq ((locate_eq_ok_iff.mp ha).trans (locate_eq_ok_iff.mp hb).symm)

theorem Reg.index_inj {r r' : Reg} (h : r.index = r'.index) : r = r' :=
  Option.some.inj ((registerMap_index r).symm.trans (h ▸ registerMap_index r'))

/-- Word `k` of the register space (spec/10_state.md R24). -/
theorem locate_word {k : Nat} (hk : k < registerMap.length) :
    locate (BitVec.ofNat 8 (4 * k)) = .ok registerMap[k] := by
  have h23 : k < 23 := hk
  rw [locate_eq_ok_iff, index_registerMap hk, BitVec.toNat_ofNat]
  omega

/-- CMD is word 4 of the map, and the only register that cannot be read (spec/10_state.md R24, R39). -/
theorem access_ne_writeOnly {r : Reg} (h : r.index ≠ 4) : r.access ≠ .writeOnly := by
  cases r with
  | cmd => exact absurd rfl h
  | _ => decide

/-! ### What the host reads at an offset -/

theorem wordAt_of_locate {s : State} {a : Offset} {r : Reg} (hl : locate a = .ok r) (hr : r.access ≠ .writeOnly) :
    s.wordAt a = some (readReg s r) := by
  simp [State.wordAt, readTarget, hl, hr]

/-- Two states show the same word at an offset when they agree on the register there. -/
theorem wordAt_congr {s t : State} {a : Offset} (h : ∀ r, locate a = .ok r → readReg t r = readReg s r) :
    t.wordAt a = s.wordAt a := by
  unfold State.wordAt readTarget
  cases hl : locate a with
  | error c => rfl
  | ok r => by_cases hr : r.access = .writeOnly <;> simp [hr, h r hl]

@[simp] theorem readReg_respond (s : State) (x : Response) (r : Reg) : readReg (s.respond x) r = readReg s r := by
  cases r <;> rfl

@[simp] theorem wordAt_respond (s : State) (x : Response) (a : Offset) : (s.respond x).wordAt a = s.wordAt a :=
  wordAt_congr fun r _ => readReg_respond s x r

/-! ### Which writes are stored, and which are refused -/

/-- A write to a RW register of an EFU that is not busy is stored (spec/20_memory.md R75, R79). -/
theorem portWrite_readWrite {s : State} {a : Offset} {r : Reg} (v : Word) (hl : locate a = .ok r)
    (hr : r.access = .readWrite) (hb : s.busy = false) : portWrite s a v = (writeReg s v r).respond ⟨0, false⟩ := by
  have hcmd : r ≠ .cmd := by rintro rfl; simp at hr
  simp [portWrite, writeTarget, performWrite, hl, hr, hb, hcmd]

/-- A write to a RO register is refused (spec/20_memory.md R74). -/
theorem portWrite_readOnly {a : Offset} {r : Reg} (hl : locate a = .ok r) (hr : r.access = .readOnly) (s : State)
    (v : Word) : portWrite s a v = { s with rsp := some ⟨0, true⟩ } := by
  simp [portWrite, writeTarget, hl, hr]

/-- A write anywhere but at CMD is refused, or stored in the register of its offset. -/
theorem portWrite_data_cases (s : State) {a : Offset} (v : Word) (ha : a ≠ 0x10) :
    portWrite s a v = s.respond ⟨0, true⟩ ∨
      ∃ r, locate a = .ok r ∧ portWrite s a v = (writeReg s v r).respond ⟨0, false⟩ := by
  obtain ⟨_, _, hw⟩ | ⟨r, hok, hw⟩ := portWrite_cases s a v
  · exact .inl hw
  · have hl := (writeTarget_ok hok).1
    have hcmd : r ≠ .cmd := by rintro rfl; exact ha (locate_inj hl locate_cmd)
    exact .inr ⟨r, hl, by simpa [performWrite, hcmd] using hw⟩

/-- spec/20_memory.md R78. -/
theorem portRead_frame (s : State) (a : Offset) : ∃ r, portRead s a = { s with rsp := r } := by
  obtain ⟨_, _, h⟩ | ⟨_, _, h⟩ := portRead_cases s a
  · exact ⟨_, h⟩
  · exact ⟨_, h⟩

/-! ### The words of a wide register -/

/-- A replaced word reads back, cut to the bits the register has there (spec/20_memory.md R80). -/
theorem wordOf_replaceWord_same {n : Nat} (x : BitVec n) (k : Nat) (v : Word) :
    wordOf (replaceWord x k v) k = (v.setWidth (n - 32 * k)).setWidth 32 := by
  apply BitVec.eq_of_getLsbD_eq
  intro i hi
  have hlt : 32 * k + i < n ↔ i < n - 32 * k := by omega
  simp [wordOf, replaceWord_getLsbD, hi, hlt]

/-- A word that lies wholly in the register reads back as written. -/
theorem wordOf_replaceWord_full {n k : Nat} (x : BitVec n) (v : Word) (h : 32 * k + 32 ≤ n) :
    wordOf (replaceWord x k v) k = v := by
  rw [wordOf_replaceWord_same, BitVec.setWidth_setWidth_of_le _ (by omega), BitVec.setWidth_eq]

theorem wordOf_replaceWord_ne {n j k : Nat} (x : BitVec n) (v : Word) (h : j ≠ k) :
    wordOf (replaceWord x k v) j = wordOf x j := by
  apply BitVec.eq_of_getLsbD_eq
  intro i hi
  have hout : ¬(32 * k ≤ 32 * j + i ∧ 32 * j + i < 32 * k + 32) := by omega
  simp [wordOf, replaceWord_getLsbD, hi, hout]

/-- The top word of a register shows the bits that are left. -/
theorem wordOf_top {n k j : Nat} (x : BitVec n) (h : n ≤ 32 * k + j) :
    wordOf x k = (x.extractLsb' (32 * k) j).setWidth 32 := by
  apply BitVec.eq_of_getLsbD_eq
  intro i hi
  by_cases hj : i < j
  · simp [wordOf, hi, hj]
  · simp [wordOf, hi, hj, BitVec.getLsbD_of_ge x (32 * k + i) (by omega)]

/-! ### A stored write changes the word it names, and no other -/

theorem readReg_hostOpb_ne (s : State) (v : Word) {k : Nat} {r : Reg} (h : r.index ≠ k) :
    readReg (s.hostOpb (replaceWord s.opb k v)) r = readReg s r := by
  cases r with
  | opb0 | opb1 | opb2 | opb3 => exact wordOf_replaceWord_ne _ _ h
  | _ => rfl

theorem readReg_hostBits_ne (s : State) (v : Word) {k : Nat} {r : Reg} (h : r.index ≠ 6 + k) :
    readReg (s.hostBits (replaceWord s.bits k v)) r = readReg s r := by
  cases r with
  | bits0 | bits1 | bits2 => exact wordOf_replaceWord_ne _ _ fun hk => h (hk ▸ rfl)
  | _ => rfl

theorem readReg_hostManf_ne (s : State) (v : Word) {k : Nat} {r : Reg} (h : r.index ≠ 9 + k) :
    readReg (s.hostManf (replaceWord s.manf k v)) r = readReg s r := by
  cases r with
  | manf0 | manf1 => exact wordOf_replaceWord_ne _ _ fun hk => h (hk ▸ rfl)
  | _ => rfl

/-- STATUS is left out: its PHASE moves (spec/10_state.md R46). -/
theorem readReg_hostCmant_ne (s : State) (v : Word) {k : Nat} {r : Reg} (h : r.index ≠ 13 + k) (hst : r ≠ .status) :
    readReg (s.hostCmant (replaceWord s.cmant k v)) r = readReg s r := by
  cases r with
  | cmant0 | cmant1 => exact wordOf_replaceWord_ne _ _ fun hk => h (hk ▸ rfl)
  | status => exact absurd rfl hst
  | _ => rfl

theorem readReg_hostBinexp_ne (s : State) (b : BitVec 16) {r : Reg} (h : r ≠ .binexp) (hst : r ≠ .status) :
    readReg (s.hostBinexp b) r = readReg s r := by
  cases r with
  | binexp => exact absurd rfl h
  | status => exact absurd rfl hst
  | _ => rfl

theorem readReg_hostSexp_ne (s : State) (x : BitVec 16) {r : Reg} (h : r ≠ .sexp) :
    readReg (s.hostSexp x) r = readReg s r := by
  cases r with
  | sexp => exact absurd rfl h
  | _ => rfl

theorem readReg_hostCneg_ne (s : State) (x : Bool) {r : Reg} (h : r ≠ .cneg) :
    readReg (s.hostCneg x) r = readReg s r := by
  cases r with
  | cneg => exact absurd rfl h
  | _ => rfl

/-- A stored write is seen at no other register, but in STATUS by its PHASE (spec/10_state.md R46). -/
theorem readReg_writeReg_ne (s : State) (v : Word) {r r' : Reg} (h : r' ≠ r) (hst : r' ≠ .status) :
    readReg (writeReg s v r) r' = readReg s r' := by
  have hidx : r'.index ≠ r.index := fun he => h (Reg.index_inj he)
  cases r with
  | opb0 | opb1 | opb2 | opb3 => exact readReg_hostOpb_ne s v hidx
  | bits0 => exact readReg_hostBits_ne s v (k := 0) hidx
  | bits1 => exact readReg_hostBits_ne s v (k := 1) hidx
  | bits2 => exact readReg_hostBits_ne s v (k := 2) hidx
  | manf0 => exact readReg_hostManf_ne s v (k := 0) hidx
  | manf1 => exact readReg_hostManf_ne s v (k := 1) hidx
  | cmant0 => exact readReg_hostCmant_ne s v (k := 0) hidx hst
  | cmant1 => exact readReg_hostCmant_ne s v (k := 1) hidx hst
  | sexp => exact readReg_hostSexp_ne s _ h
  | binexp => exact readReg_hostBinexp_ne s _ h hst
  | cneg => exact readReg_hostCneg_ne s _ h
  | cmd | status | kind | decexp | adj | p5n | lshn | digit | ndig => rfl

/-- The converter inputs are the registers whose write sets `PHASE <- LOADED` (spec/10_state.md R46). -/
theorem writeReg_phase (s : State) (v : Word) (r : Reg) :
    (writeReg s v r).phase = if r ∈ [.cmant0, .cmant1, .binexp] then .loaded else s.phase := by
  cases r <;> rfl

/-- Of the fields of STATUS a stored write can change PHASE only. -/
theorem statusWord_writeReg (s : State) (v : Word) (r : Reg) :
    statusWord (writeReg s v r) = statusWord { s with phase := (writeReg s v r).phase } := by
  cases r <;> rfl

/-- The fields that are no RW register's, nor PHASE, are as before a stored write. -/
theorem writeReg_frame (s : State) (v : Word) (r : Reg) :
    writeReg s v r = { s with
      opb := (writeReg s v r).opb, bits := (writeReg s v r).bits, manf := (writeReg s v r).manf,
      sexp := (writeReg s v r).sexp, cmant := (writeReg s v r).cmant, binexp := (writeReg s v r).binexp,
      cneg := (writeReg s v r).cneg, phase := (writeReg s v r).phase } := by
  cases r <;> rfl

/-! ### Writes at the port -/

/-- A write shows at its own offset and in STATUS, and nowhere else (spec/10_state.md R46). -/
theorem wordAt_portWrite_ne (s : State) {a b : Offset} (v : Word) (ha : a ≠ 0x10) (hab : b ≠ a) (hst : b ≠ 0x14) :
    (portWrite s a v).wordAt b = s.wordAt b := by
  obtain hw | ⟨r, hl, hw⟩ := portWrite_data_cases s v ha
  · rw [hw, wordAt_respond]
  · rw [hw, wordAt_respond]
    refine wordAt_congr fun r' hl' => readReg_writeReg_ne s v ?_ ?_
    · rintro rfl; exact hab (locate_inj hl' hl)
    · rintro rfl; exact hst (locate_inj hl' locate_status)

/-- A write that is not to a converter input leaves PHASE and STATUS as they were (spec/10_state.md R46). -/
theorem portWrite_keeps_status (s : State) {a : Offset} (v : Word) (ha : a ≠ 0x10)
    (hin : a ∉ [0x34#8, 0x38#8, 0x3C#8]) :
    (portWrite s a v).wordAt 0x14 = s.wordAt 0x14 ∧ (portWrite s a v).phase = s.phase := by
  obtain hw | ⟨r, hl, hw⟩ := portWrite_data_cases s v ha
  · rw [hw]
    exact ⟨wordAt_respond .., rfl⟩
  · have hr : r ∉ [.cmant0, .cmant1, .binexp] := by
      intro hr
      simp only [List.mem_cons, List.not_mem_nil, or_false] at hr
      obtain rfl | rfl | rfl := hr
      · exact hin (by rw [locate_inj hl locate_cmant0]; decide)
      · exact hin (by rw [locate_inj hl locate_cmant1]; decide)
      · exact hin (by rw [locate_inj hl locate_binexp]; decide)
    have hph : (writeReg s v r).phase = s.phase := (writeReg_phase s v r).trans (if_neg hr)
    have hsw : statusWord (writeReg s v r) = statusWord s := by rw [statusWord_writeReg, hph]
    rw [hw, wordAt_respond]
    refine ⟨wordAt_congr fun r' hl' => ?_, hph⟩
    obtain rfl : r' = .status := by simpa using hl'.symm
    exact hsw

/-- A converter input's offset is that of a RW register whose write sets `PHASE <- LOADED`. -/
theorem portWrite_input_phase {s : State} {a : Offset} (v : Word) (hin : a ∈ [0x34#8, 0x38#8, 0x3C#8])
    (hb : s.busy = false) : (portWrite s a v).phase = .loaded := by
  simp only [List.mem_cons, List.not_mem_nil, or_false] at hin
  obtain rfl | rfl | rfl := hin
  · rw [portWrite_readWrite v locate_cmant0 rfl hb]; rfl
  · rw [portWrite_readWrite v locate_cmant1 rfl hb]; rfl
  · rw [portWrite_readWrite v locate_binexp rfl hb]; rfl

theorem portWrite_frame (s : State) {a : Offset} (v : Word) (ha : a ≠ 0x10) :
    portWrite s a v = { s with
      opb := (portWrite s a v).opb, bits := (portWrite s a v).bits, manf := (portWrite s a v).manf,
      sexp := (portWrite s a v).sexp, cmant := (portWrite s a v).cmant, binexp := (portWrite s a v).binexp,
      cneg := (portWrite s a v).cneg, phase := (portWrite s a v).phase, rsp := (portWrite s a v).rsp } := by
  obtain hw | ⟨r, _, hw⟩ := portWrite_data_cases s v ha
  · rw [hw]; rfl
  · rw [hw]
    exact congrArg (State.respond · ⟨0, false⟩) (writeReg_frame s v r)

/-- Settles O46: a write is refused or stored, and a stored write is seen only in its own register's word and, for a
converter input, in PHASE. -/
theorem writesChangeTheirRegisterOnly : Obligations.WritesChangeTheirRegisterOnly := by
  rintro s t a b v ha hab rfl
  exact ⟨wordAt_portWrite_ne s v ha hab, portWrite_keeps_status s v ha, portWrite_input_phase v, portWrite_frame s v ha,
    portRead_frame s a⟩

/-! ### Bits that are not named -/

theorem lowMask_getLsbD (k : Nat) {i : Nat} (hi : i < 32) :
    (BitVec.ofNat 32 (2 ^ k - 1)).getLsbD i = decide (i < k) := by
  rw [BitVec.getLsbD_ofNat, Nat.testBit_two_pow_sub_one, decide_eq_true hi, Bool.true_and]

/-- Masking a word to its low `k` bits cuts it to that width. -/
theorem and_lowMask (v : Word) (k : Nat) :
    v &&& BitVec.ofNat 32 (2 ^ k - 1) = (v.setWidth k).setWidth 32 := by
  apply BitVec.eq_of_getLsbD_eq
  intro i hi
  rw [BitVec.getLsbD_and, lowMask_getLsbD k hi]
  simp [hi, Bool.and_comm]

/-- A register of `k` bits reads 0 above them (spec/10_state.md R45). -/
theorem setWidth_and_not_lowMask {k : Nat} (x : BitVec k) :
    x.setWidth 32 &&& ~~~BitVec.ofNat 32 (2 ^ k - 1) = 0 := by
  apply BitVec.eq_of_getLsbD_eq
  intro i hi
  rw [BitVec.getLsbD_and, BitVec.getLsbD_not, lowMask_getLsbD k hi]
  by_cases hk : i < k
  · simp [hk]
  · simp [BitVec.getLsbD_of_ge x i (by omega)]

theorem and_append_eq_zero {n m : Nat} {x a : BitVec n} {y b : BitVec m} (hx : x &&& a = 0#n) (hy : y &&& b = 0#m) :
    (x ++ y) &&& (a ++ b) = 0#(n + m) := by
  rw [BitVec.and_append, hx, hy, BitVec.zero_append_zero]

/-- The mask is cut at the borders of the fields of STATUS: each field meets zeros, each unnamed part is zero
(spec/10_state.md R40). -/
theorem statusWord_and_not_mask (s : State) : statusWord s &&& ~~~0x000F01FF#32 = 0 := by
  have hmask : ~~~0x000F01FF#32 = BitVec.allOnes 12 ++ 0#4 ++ BitVec.allOnes 7 ++ 0#1 ++ 0#4 ++ 0#3 ++ 0#1 := by decide
  rw [hmask]
  exact and_append_eq_zero (and_append_eq_zero (and_append_eq_zero (and_append_eq_zero (and_append_eq_zero
    (and_append_eq_zero BitVec.zero_and BitVec.and_zero) BitVec.zero_and) BitVec.and_zero) BitVec.and_zero)
    BitVec.and_zero) BitVec.and_zero

/-! ### Reading back -/

/-- What a write to a RW register stores is what its offset then reads. -/
theorem wordAt_portWrite_same {s : State} {a : Offset} {r : Reg} {v w : Word} (hl : locate a = .ok r)
    (hr : r.access = .readWrite) (hb : s.busy = false) (hw : readReg (writeReg s v r) r = w) :
    (portWrite s a v).wordAt a = some w := by
  rw [portWrite_readWrite v hl hr hb, wordAt_respond, wordAt_of_locate hl (by simp [hr]), hw]

theorem fullWord_reads_back {s : State} {a : Offset} (v : Word) (hb : s.busy = false)
    (ha : a ∈ [0x00#8, 0x04, 0x08, 0x0C, 0x18, 0x1C, 0x24, 0x28, 0x34, 0x38]) :
    (portWrite s a v).wordAt a = some v := by
  simp only [List.mem_cons, List.not_mem_nil, or_false] at ha
  obtain rfl | rfl | rfl | rfl | rfl | rfl | rfl | rfl | rfl | rfl := ha <;>
    exact wordAt_portWrite_same rfl rfl hb (wordOf_replaceWord_full _ v (by decide))

theorem halfWord_reads_back {s : State} {a : Offset} (v : Word) (hb : s.busy = false) (ha : a ∈ [0x20#8, 0x2C]) :
    (portWrite s a v).wordAt a = some (v &&& 0x0000FFFF) := by
  have hcut : v &&& 0x0000FFFF = (v.setWidth 16).setWidth 32 := and_lowMask v 16
  simp only [List.mem_cons, List.not_mem_nil, or_false] at ha
  obtain rfl | rfl := ha
  · exact wordAt_portWrite_same locate_bits2 rfl hb ((wordOf_replaceWord_same s.bits 2 v).trans hcut.symm)
  · exact wordAt_portWrite_same locate_sexp rfl hb hcut.symm

theorem cneg_reads_back {s : State} (v : Word) (hb : s.busy = false) :
    (portWrite s 0x40 v).wordAt 0x40 = some (v &&& 0x00000001) := by
  have hcut : v &&& 0x00000001 = (v.setWidth 1).setWidth 32 := and_lowMask v 1
  refine wordAt_portWrite_same locate_cneg rfl hb (Eq.trans ?_ hcut.symm)
  rw [BitVec.setWidth_one]
  rfl

theorem unnamed_bits_read_zero (s : State) {a : Offset} {m : Word}
    (h : (a, m) ∈ [(0x14#8, 0x000F01FF#32), (0x20#8, 0xFFFF#32), (0x2C#8, 0xFFFF#32), (0x30#8, 0x7#32),
      (0x40#8, 0x1#32), (0x48#8, 0x3F#32), (0x4C#8, 0xFFFF#32), (0x50#8, 0x7FFF#32), (0x54#8, 0x7F#32),
      (0x58#8, 0xFFFF#32)]) : ∃ w, s.wordAt a = some w ∧ w &&& ~~~m = 0 := by
  simp only [List.mem_cons, List.not_mem_nil, or_false, Prod.mk.injEq] at h
  obtain ⟨rfl, rfl⟩ | ⟨rfl, rfl⟩ | ⟨rfl, rfl⟩ | ⟨rfl, rfl⟩ | ⟨rfl, rfl⟩ | ⟨rfl, rfl⟩ | ⟨rfl, rfl⟩ | ⟨rfl, rfl⟩ |
    ⟨rfl, rfl⟩ | ⟨rfl, rfl⟩ := h
  · exact ⟨_, rfl, statusWord_and_not_mask s⟩
  · refine ⟨wordOf s.bits 2, rfl, ?_⟩
    rw [wordOf_top s.bits (j := 16) (by decide)]
    exact setWidth_and_not_lowMask _
  all_goals exact ⟨_, rfl, setWidth_and_not_lowMask _⟩

/-- Settles O45: a stored word reads back cut to the register's width, and above its width a register reads 0. -/
theorem writtenRegistersReadBack : Obligations.WrittenRegistersReadBack := by
  intro s a v hb
  refine ⟨fullWord_reads_back v hb, halfWord_reads_back v hb, ?_, ?_, fun m => unnamed_bits_read_zero s⟩
  · rintro rfl
    exact wordAt_portWrite_same locate_binexp rfl hb rfl
  · rintro rfl
    exact cneg_reads_back v hb

/-! ### STATUS -/

theorem toNat_append_eq_add {n m : Nat} (x : BitVec n) (y : BitVec m) :
    (x ++ y).toNat = 2 ^ m * x.toNat + y.toNat := by
  rw [BitVec.toNat_append, ← Nat.shiftLeft_add_eq_or_of_lt y.isLt, Nat.shiftLeft_eq, Nat.mul_comm]

/-- STATUS as a number: each field times the weight of its lowest bit (spec/10_state.md R40). -/
theorem statusWord_toNat (s : State) :
    (statusWord s).toNat = (if s.busy then 1 else 0) + 2 * s.phase.code.toNat + 16 * s.err.code.toNat
      + 256 * (if s.accnz then 1 else 0) + 65536 * s.lastop.toNat := by
  simp only [statusWord, toNat_append_eq_add, BitVec.toNat_ofBool, Bool.toNat, Bool.cond_eq_ite]
  simp only [BitVec.ofNat_eq_ofNat, BitVec.toNat_ofNat]
  omega

theorem ErrCode.code_le (e : ErrCode) : e.code.toNat ≤ 5 := by cases e <;> decide

/-- Settles O47: the word is the sum of its parts, and a RO register takes no write. -/
theorem statusShowsItsFields : Obligations.StatusShowsItsFields :=
  ⟨fun s => ⟨statusWord s, wordAt_of_locate locate_status (by decide), statusWord_toNat s, s.err.code_le,
    portWrite_readOnly locate_status rfl s⟩, rfl, rfl⟩

/-! ### Reset -/

theorem readReg_reset (r : Reg) : readReg State.reset r = 0 := by cases r <;> decide

/-- Settles O50: every register reads 0 after reset, and every offset but CMD's reads its register. -/
theorem resetLeavesEveryRegisterZero : Obligations.ResetLeavesEveryRegisterZero := by
  refine ⟨fun k hk h4 => ?_, rfl, rfl, rfl, rfl, rfl⟩
  have hidx : registerMap[k].index ≠ 4 := (index_registerMap hk).symm ▸ h4
  exact (wordAt_of_locate (locate_word hk) (access_ne_writeOnly hidx)).trans (congrArg some (readReg_reset _))

end Sys2Proof.Machine

/-! The answers of the register port (spec/20_memory.md R70 to R78): which transactions are refused, and that a
`BusError` or a read leaves nothing behind but its answer. -/

namespace Sys2Proof.Machine

/-! ### Which offsets hold a register, and with which right -/

/-- The register space ends at 0x5B, and its registers stand at whole words (spec/20_memory.md R72, R73). -/
theorem locate_error_iff {a : Offset} : (∃ c, locate a = .error c) ↔ a.toNat % 4 ≠ 0 ∨ 0x5C ≤ a.toNat := by
  constructor
  · rintro ⟨c, hc⟩
    by_contra! hfree
    obtain ⟨halign, hmap⟩ := hfree
    have hk : a.toNat / 4 < registerMap.length := by simp [registerMap]; omega
    simp [locate, halign, List.getElem?_eq_getElem hk] at hc
  · intro h
    by_cases halign : a.toNat % 4 = 0
    · exact ⟨_, locate_unmapped halign (h.resolve_left fun hne => hne halign)⟩
    · exact ⟨_, locate_misaligned halign⟩

theorem locate_cmd_iff {a : Offset} : locate a = .ok .cmd ↔ a = 0x10 :=
  ⟨fun h => locate_inj h locate_cmd, fun h => h ▸ locate_cmd⟩

theorem access_writeOnly_iff {r : Reg} : r.access = .writeOnly ↔ r = .cmd := by
  cases r <;> simp

/-- The offsets of the RO registers (spec/10_state.md R24, spec/20_memory.md R74). -/
theorem readOnly_offset_iff {a : Offset} :
    (∃ r, locate a = .ok r ∧ r.access = .readOnly) ↔
      a ∈ [0x14#8, 0x30#8, 0x44#8, 0x48#8, 0x4C#8, 0x50#8, 0x54#8, 0x58#8] := by
  constructor
  · rintro ⟨r, hl, hr⟩
    have at_offset {b : Offset} (hb : locate b = .ok r) : a = b := locate_inj hl hb
    cases r with
    | status => simp [at_offset locate_status]
    | kind => simp [at_offset locate_kind]
    | decexp => simp [at_offset locate_decexp]
    | adj => simp [at_offset locate_adj]
    | p5n => simp [at_offset locate_p5n]
    | lshn => simp [at_offset locate_lshn]
    | digit => simp [at_offset locate_digit]
    | ndig => simp [at_offset locate_ndig]
    | _ => simp at hr
  · intro h
    simp only [List.mem_cons, List.not_mem_nil, or_false] at h
    obtain rfl | rfl | rfl | rfl | rfl | rfl | rfl | rfl := h <;> exact ⟨_, rfl, rfl⟩

/-! ### Reads -/

/-- A read is answered with the word at its offset, or refused where there is none, and leaves nothing else behind
(spec/20_memory.md R70, R75, R78). -/
theorem portRead_eq_respond (s : State) (a : Offset) :
    portRead s a = s.respond ((s.wordAt a).elim ⟨0, true⟩ fun w => ⟨w, false⟩) := by
  unfold portRead State.wordAt
  cases readTarget a <;> rfl

/-- The causes that refuse a read (spec/20_memory.md R72, R73, R74). -/
theorem wordAt_eq_none_iff {s : State} {a : Offset} :
    s.wordAt a = none ↔ a.toNat % 4 ≠ 0 ∨ 0x5C ≤ a.toNat ∨ a = 0x10 := by
  rw [← or_assoc, ← locate_error_iff, ← locate_cmd_iff]
  unfold State.wordAt readTarget
  cases locate a with
  | error c => simp
  | ok r => by_cases hr : r = .cmd <;> simp [access_writeOnly_iff, hr]

theorem portRead_refused {s : State} {a : Offset} (h : s.wordAt a = none) :
    portRead s a = { s with rsp := some ⟨0, true⟩ } := by
  rw [portRead_eq_respond, h]; rfl

theorem portRead_answered {s : State} {a : Offset} {w : Word} (h : s.wordAt a = some w) :
    portRead s a = { s with rsp := some ⟨w, false⟩ } := by
  rw [portRead_eq_respond, h]; rfl

/-- `BUSY` shows in STATUS alone (spec/20_memory.md R77). -/
theorem readReg_withBusy (s : State) (b : Bool) {r : Reg} (h : r ≠ .status) :
    readReg { s with busy := b } r = readReg s r := by
  cases r with
  | status => exact absurd rfl h
  | _ => rfl

theorem wordAt_withBusy (s : State) (b : Bool) {a : Offset} (h : a ≠ 0x14) :
    State.wordAt { s with busy := b } a = s.wordAt a :=
  wordAt_congr fun _ hl => readReg_withBusy s b fun hr => h (locate_inj (hr ▸ hl) locate_status)

/-- Settles O44: a read's answer is the word at its offset, and of the registers only STATUS shows `BUSY`. -/
theorem readsChangeNoState : Obligations.ReadsChangeNoState := by
  refine fun s a => ⟨fun _ => portRead_answered, portRead_refused, fun ha b => ?_⟩
  rw [portRead_eq_respond, portRead_eq_respond, wordAt_withBusy s b ha]
  rfl

/-! ### Writes -/

/-- The causes that refuse a write to a mapped register (spec/20_memory.md R74, R76, spec/60_exceptions.md R267). -/
theorem writeTarget_error_iff_of_locate {s : State} {a : Offset} {v : Word} {r : Reg} (hl : locate a = .ok r) :
    (∃ c, writeTarget s a v = .error c) ↔
      r.access = .readOnly ∨ s.busy = true ∨ (r = .cmd ∧ s.err ≠ .noError ∧ v ≠ cleWord) := by
  simp only [writeTarget, hl]
  split_ifs with hacc hbusy hfault
  · simp [hacc]
  · simp [hbusy]
  · simp [hfault]
  · simp [hacc, hbusy, hfault]

/-- The five causes that refuse a write (spec/20_memory.md R75). -/
theorem writeTarget_error_iff {s : State} {a : Offset} {v : Word} :
    (∃ c, writeTarget s a v = .error c) ↔
      a.toNat % 4 ≠ 0 ∨ 0x5C ≤ a.toNat ∨ a ∈ [0x14#8, 0x30#8, 0x44#8, 0x48#8, 0x4C#8, 0x50#8, 0x54#8, 0x58#8] ∨
        s.busy = true ∨ (a = 0x10 ∧ s.err ≠ .noError ∧ v ≠ cleWord) := by
  rw [← or_assoc, ← locate_error_iff, ← readOnly_offset_iff, ← locate_cmd_iff]
  cases hl : locate a with
  | error c => simp [writeTarget, hl]
  | ok r => simp [writeTarget_error_iff_of_locate hl]

theorem portWrite_refused {s : State} {a : Offset} {v : Word} (h : ∃ c, writeTarget s a v = .error c) :
    portWrite s a v = { s with rsp := some ⟨0, true⟩ } := by
  obtain ⟨c, hc⟩ := h
  simp [portWrite, hc]

/-- A write is answered with data 0, and with an error exactly when it is refused (spec/20_memory.md R70, R75). -/
theorem portWrite_rsp_cases (s : State) (a : Offset) (v : Word) :
    ((∃ c, writeTarget s a v = .error c) ∧ (portWrite s a v).rsp = some ⟨0, true⟩) ∨
    ((¬∃ c, writeTarget s a v = .error c) ∧ (portWrite s a v).rsp = some ⟨0, false⟩) := by
  obtain ⟨c, hc, hw⟩ | ⟨r, hr, hw⟩ := portWrite_cases s a v
  · exact .inl ⟨⟨c, hc⟩, by rw [hw]; rfl⟩
  · exact .inr ⟨by simp [hr], by rw [hw]; rfl⟩

theorem portWrite_rsp_busError_iff {s : State} {a : Offset} {v : Word} :
    (portWrite s a v).rsp = some ⟨0, true⟩ ↔ ∃ c, writeTarget s a v = .error c := by
  obtain ⟨href, hrsp⟩ | ⟨hacc, hrsp⟩ := portWrite_rsp_cases s a v
  · exact iff_of_true hrsp href
  · exact iff_of_false (by simp [hrsp]) hacc

/-- Settles O43: `BUSY` is a cause of refusal at every offset. -/
theorem writesWhileBusyAreRefused : Obligations.WritesWhileBusyAreRefused :=
  fun _ _ _ hb => portWrite_refused (writeTarget_error_iff.mpr (.inr (.inr (.inr (.inl hb)))))

/-- Settles O42: each named access meets one of the causes of refusal. -/
theorem forbiddenAccessesAreBusErrors : Obligations.ForbiddenAccessesAreBusErrors := by
  refine fun s a v => ⟨fun h => ⟨?_, ?_⟩, fun h => ?_, ?_⟩
  · exact portWrite_refused (writeTarget_error_iff.mpr (or_assoc.mp (.inl h)))
  · exact portRead_refused (wordAt_eq_none_iff.mpr (or_assoc.mp (.inl h)))
  · exact portWrite_refused (writeTarget_error_iff.mpr (.inr (.inr (.inl h))))
  · exact portRead_refused (wordAt_eq_none_iff.mpr (.inr (.inr rfl)))

/-! ### BusErrors -/

/-- A write answered with an error was refused, so it left nothing but the answer (spec/20_memory.md R75). -/
theorem portWrite_busError {s : State} {a : Offset} {v : Word} {r : Response} (hr : (portWrite s a v).rsp = some r)
    (herr : r.err = true) : r.data = 0 ∧ portWrite s a v = { s with rsp := some r } := by
  obtain ⟨href, hrsp⟩ | ⟨_, hrsp⟩ := portWrite_rsp_cases s a v
  · obtain rfl : ⟨0, true⟩ = r := Option.some.inj (hrsp.symm.trans hr)
    exact ⟨rfl, portWrite_refused href⟩
  · obtain rfl : ⟨0, false⟩ = r := Option.some.inj (hrsp.symm.trans hr)
    simp at herr

theorem portRead_busError {s : State} {a : Offset} {r : Response} (hr : (portRead s a).rsp = some r)
    (herr : r.err = true) : s.wordAt a = none ∧ r = ⟨0, true⟩ := by
  rw [portRead_eq_respond] at hr
  obtain rfl := Option.some.inj hr
  cases hw : s.wordAt a with
  | none => exact ⟨rfl, rfl⟩
  | some w => simp [hw] at herr

/-- Settles O41: an answer with an error is a refused transaction's, and the causes of refusal are those listed. -/
theorem busErrorChangesNoState : Obligations.BusErrorChangesNoState := by
  refine fun s a v => ⟨fun _ => portWrite_busError, fun r hr herr => ?_, ?_,
    portWrite_rsp_busError_iff.trans writeTarget_error_iff, fun h => ?_, fun h => ?_⟩
  · obtain ⟨hnone, rfl⟩ := portRead_busError hr herr
    exact ⟨rfl, portRead_refused hnone⟩
  · obtain ⟨_, hrsp⟩ | ⟨_, hrsp⟩ := portWrite_rsp_cases s a v <;> exact ⟨_, hrsp⟩
  · exact wordAt_eq_none_iff.mp (portRead_busError h rfl).1
  · rw [portRead_refused (wordAt_eq_none_iff.mpr h)]

end Sys2Proof.Machine


/-! The three classes of words (spec/30_encoding.md R107 to R109): what the decoder says of each combination of
`OP`, `FMT` and `BE`. -/

namespace Sys2Proof

/-! ### Command words and their fields -/

/-- A word whose bits [31:7] are 0 is put together again from its three fields (spec/30_encoding.md R101). -/
theorem commandWord_fields {w : Word} (h : w.extractLsb' 7 25 = 0) :
    commandWord (w.extractLsb' 0 4) (w.extractLsb' 4 2) (w.extractLsb' 6 1) = w := by
  have hbe : w.extractLsb' 7 25 ++ w.extractLsb' 6 1 = w.extractLsb' 6 26 :=
    BitVec.extractLsb'_append_extractLsb'_eq_extractLsb' rfl
  have hfmt : w.extractLsb' 6 26 ++ w.extractLsb' 4 2 = w.extractLsb' 4 28 :=
    BitVec.extractLsb'_append_extractLsb'_eq_extractLsb' rfl
  rw [commandWord, ← h, hbe, hfmt]
  exact BitVec.extractLsb'_append_extractLsb'

theorem fmtOfCode_code (c : BitVec 2) : (fmtOfCode c).code = c := by
  revert c; decide

theorem orderOfCode_code (c : BitVec 1) : (orderOfCode c).code = c := by
  revert c; decide

/-- spec/30_encoding.md R108. -/
theorem fmtOfCode_unsupported_iff (c : BitVec 2) : (fmtOfCode c).supported = false ↔ c = 3 := by
  revert c; decide

/-! ### The class of a combination of fields -/

/-- The operation codes of the commands that take `FMT` (spec/30_encoding.md R105). -/
abbrev TakesFmt (op : BitVec 4) : Prop := op ∈ [0x1#4, 0x2#4, 0x3#4, 0x4#4, 0x5#4, 0x6#4, 0xB#4]

/-- The operation codes of the commands that take `BE` (spec/30_encoding.md R105). -/
abbrev TakesBe (op : BitVec 4) : Prop := op ∈ [0x1#4, 0x5#4]

/-- The operation codes of no command (spec/30_encoding.md R107). -/
abbrev Unassigned (op : BitVec 4) : Prop := op ∈ [0x0#4, 0xC#4, 0xD#4, 0xE#4]

/-- The causes of R107 that show in the fields: an unassigned code, or a field that the command does not take. -/
def IllegalFields (op : BitVec 4) (fmt : BitVec 2) (be : BitVec 1) : Prop :=
  Unassigned op ∨ (¬ TakesFmt op ∧ fmt ≠ 0) ∨ (¬ TakesBe op ∧ be ≠ 0)

/-- The cause of R108. -/
def ReservedFormat (op : BitVec 4) (fmt : BitVec 2) : Prop := TakesFmt op ∧ fmt = 3

/-- An answer of the decoder that is right for the fields: its class is the one R107 to R109 give them, and a command
is the one whose word these fields make. -/
inductive RightClass (op : BitVec 4) (fmt : BitVec 2) (be : BitVec 1) : Decoded → Prop where
  | illegal (r : IllegalWord) (hill : IllegalFields op fmt be) : RightClass op fmt be (.illegal r)
  | badFormat (i : Instr) (hill : ¬ IllegalFields op fmt be) (hres : ReservedFormat op fmt) :
      RightClass op fmt be (.badFormat i)
  | command (i : Instr) (hill : ¬ IllegalFields op fmt be) (hres : ¬ ReservedFormat op fmt)
      (hwf : i.wellFormed = true) (henc : encode i = commandWord op fmt be) : RightClass op fmt be (.command i)

section
variable {op : BitVec 4} {fmt : BitVec 2} {be : BitVec 1}

/-- The classes exclude each other, and each holds exactly when its causes do. -/
theorem RightClass.class_iff {d : Decoded} (h : RightClass op fmt be d) :
    ((∃ r, d = .illegal r) ↔ IllegalFields op fmt be) ∧
    ((∃ i, d = .badFormat i) ↔ ¬ IllegalFields op fmt be ∧ ReservedFormat op fmt) ∧
    ((∃ i, d = .command i ∧ i.wellFormed = true ∧ encode i = commandWord op fmt be) ↔
      ¬ IllegalFields op fmt be ∧ ¬ ReservedFormat op fmt) ∧
    ((∃ i, d = .command i) ↔ ¬ IllegalFields op fmt be ∧ ¬ ReservedFormat op fmt) := by
  cases h with
  | illegal r hill => simp [hill]
  | badFormat i hill hres => simp [hill, hres]
  | command i hill hres hwf henc => simp [hill, hres, hwf, henc]

theorem not_illegalFields (hu : ¬ Unassigned op) (hf : TakesFmt op ∨ fmt = 0) (hb : TakesBe op ∨ be = 0) :
    ¬ IllegalFields op fmt be := by
  rintro (h | ⟨hnf, hfmt⟩ | ⟨hnb, hbe⟩)
  · exact hu h
  · exact hf.elim hnf hfmt
  · exact hb.elim hnb hbe

theorem classifyInstr_rightClass {i : Instr} (hill : ¬ IllegalFields op fmt be)
    (hwf : i.wellFormed = false ↔ ReservedFormat op fmt) (henc : encode i = commandWord op fmt be) :
    RightClass op fmt be (classifyInstr i) := by
  unfold classifyInstr
  split
  · next h => exact .command i hill (by simp [← hwf, h]) h henc
  · next h => exact .badFormat i hill (by simpa [← hwf] using h)

theorem unsupported_iff_reservedFormat (hf : TakesFmt op) :
    (fmtOfCode fmt).supported = false ↔ ReservedFormat op fmt :=
  (fmtOfCode_unsupported_iff fmt).trans (and_iff_right hf).symm

/-- A command that takes both fields: no value of them is illegal. -/
theorem bothFields_rightClass (c : Fmt → ByteOrder → Instr) (hop : TakesFmt op ∧ TakesBe op ∧ ¬ Unassigned op)
    (hwf : ∀ f o, (c f o).wellFormed = f.supported) (henc : ∀ f o, encode (c f o) = commandWord op f.code o.code) :
    RightClass op fmt be (classifyInstr (c (fmtOfCode fmt) (orderOfCode be))) := by
  obtain ⟨hf, hb, hu⟩ := hop
  refine classifyInstr_rightClass (not_illegalFields hu (.inl hf) (.inl hb)) ?_ ?_
  · rw [hwf, unsupported_iff_reservedFormat hf]
  · rw [henc, fmtOfCode_code, orderOfCode_code]

theorem formatOnly_rightClass (c : Fmt → Instr) (hop : TakesFmt op ∧ ¬ TakesBe op ∧ ¬ Unassigned op)
    (hwf : ∀ f, (c f).wellFormed = f.supported) (henc : ∀ f, encode (c f) = commandWord op f.code 0) :
    RightClass op fmt be (formatOnly be (c (fmtOfCode fmt))) := by
  obtain ⟨hf, hb, hu⟩ := hop
  unfold formatOnly
  split
  · next hbe =>
    subst hbe
    refine classifyInstr_rightClass (not_illegalFields hu (.inl hf) (.inr rfl)) ?_ ?_
    · rw [hwf, unsupported_iff_reservedFormat hf]
    · rw [henc, fmtOfCode_code]
  · next hbe => exact .illegal _ (.inr (.inr ⟨hb, hbe⟩))

theorem noFields_rightClass {i : Instr} (hop : ¬ TakesFmt op ∧ ¬ TakesBe op ∧ ¬ Unassigned op)
    (hwf : i.wellFormed = true) (henc : encode i = commandWord op 0 0) :
    RightClass op fmt be (noFields fmt be i) := by
  obtain ⟨hf, hb, hu⟩ := hop
  unfold noFields
  split
  · next hfmt =>
    split
    · next hbe =>
      subst hfmt hbe
      exact classifyInstr_rightClass (not_illegalFields hu (.inr rfl) (.inr rfl)) (by simp [hwf, ReservedFormat]) henc
    · next hbe => exact .illegal _ (.inr (.inr ⟨hb, hbe⟩))
  · next hfmt => exact .illegal _ (.inr (.inl ⟨hf, hfmt⟩))

end

/-- The decoder's answer is right for every combination of fields, operation code by operation code. -/
theorem decodeFields_rightClass (op : BitVec 4) (fmt : BitVec 2) (be : BitVec 1) :
    RightClass op fmt be (decodeFields op fmt be) := by
  have hcode (k : BitVec 4) (h : op.toNat = k.toNat) : op = k := BitVec.eq_of_toNat_eq h
  unfold decodeFields
  split
  · next h =>
    obtain rfl := hcode 0x1 h
    exact bothFields_rightClass .xtr (by decide) (fun _ _ => rfl) fun _ _ => rfl
  · next h =>
    obtain rfl := hcode 0x2 h
    exact formatOnly_rightClass .spl (by decide) (fun _ => rfl) fun _ => rfl
  · next h =>
    obtain rfl := hcode 0x3 h
    exact formatOnly_rightClass .knd (by decide) (fun _ => rfl) fun _ => rfl
  · next h =>
    obtain rfl := hcode 0x4 h
    exact formatOnly_rightClass .cls (by decide) (fun _ => rfl) fun _ => rfl
  · next h =>
    obtain rfl := hcode 0x5 h
    exact bothFields_rightClass .cln (by decide) (fun _ _ => rfl) fun _ _ => rfl
  · next h =>
    obtain rfl := hcode 0x6 h
    exact formatOnly_rightClass .ldc (by decide) (fun _ => rfl) fun _ => rfl
  · next h =>
    obtain rfl := hcode 0x7 h
    exact noFields_rightClass (by decide) rfl rfl
  · next h =>
    obtain rfl := hcode 0x8 h
    exact noFields_rightClass (by decide) rfl rfl
  · next h =>
    obtain rfl := hcode 0x9 h
    exact noFields_rightClass (by decide) rfl rfl
  · next h =>
    obtain rfl := hcode 0xA h
    exact noFields_rightClass (by decide) rfl rfl
  · next h =>
    obtain rfl := hcode 0xB h
    exact formatOnly_rightClass .cvt (by decide) (fun _ => rfl) fun _ => rfl
  · next h =>
    obtain rfl := hcode 0xF h
    exact noFields_rightClass (by decide) rfl rfl
  · have hun : Unassigned op := by
      have hlt : op.toNat < 16 := op.isLt
      simp only [Unassigned, List.mem_cons, ← BitVec.toNat_inj, BitVec.reduceToNat]
      grind
    exact .illegal _ (.inl hun)

/-! ### The class of a word -/

/-- Bits [31:7] are looked at first (spec/30_encoding.md R107). -/
theorem decode_highBits {w : Word} (h : w.extractLsb' 7 25 ≠ 0) : decode w = .illegal .highBits := if_neg h

theorem decode_rightClass {w : Word} (h : w.extractLsb' 7 25 = 0) :
    RightClass (w.extractLsb' 0 4) (w.extractLsb' 4 2) (w.extractLsb' 6 1) (decode w) := by
  rw [decode, if_pos h]
  exact decodeFields_rightClass _ _ _

/-- Settles O4: a word with a high bit is illegal, and any other has the class of its fields. -/
theorem everyWordHasExactlyOneClass : Obligations.EveryWordHasExactlyOneClass := by
  intro w op fmt be takesFmt takesBe illegal
  by_cases hhigh : w.extractLsb' 7 25 = 0
  · have hill : illegal ↔ IllegalFields op fmt be := or_iff_right (not_not_intro hhigh)
    have hclass := (decode_rightClass hhigh).class_iff
    rw [commandWord_fields hhigh] at hclass
    rw [hill]
    exact hclass
  · have hill : illegal := .inl hhigh
    simp [decode_highBits hhigh, hill]

end Sys2Proof

/-! A write of a word to CMD (spec/30_encoding.md R112, steps 1 to 6). -/

namespace Sys2Proof.Machine

/-- Steps 1 and 2 refuse nothing of an EFU that is neither busy nor faulted, nor CLE of one that is faulted. -/
theorem portWrite_cmd_taken {s : State} {w : Word} (hb : s.busy = false) (he : s.err = .noError ∨ w = cleWord) :
    portWrite s 0x10 w = (takeCommand s w).respond ⟨0, false⟩ := by
  have hfault : ¬(s.err ≠ .noError ∧ w ≠ cleWord) := by tauto
  have htarget : writeTarget s 0x10 w = .ok .cmd := by simp [writeTarget, hb, hfault]
  rw [portWrite, htarget]
  rfl

theorem takeCommand_illegal {w : Word} {r : IllegalWord} (h : decode w = .illegal r) (s : State) :
    takeCommand s w = (s.take w).raise .cmd := by
  rw [takeCommand, h]

theorem takeCommand_badFormat {w : Word} {i : Instr} (h : decode w = .badFormat i) (s : State) :
    takeCommand s w = (s.take w).raise .format := by
  rw [takeCommand, h]

theorem takeCommand_command {w : Word} {i : Instr} (h : decode w = .command i) (s : State) :
    takeCommand s w = (s.take w).accept w := by
  rw [takeCommand, h]

/-- An error raised while the EFU is idle writes `ERR` alone (spec/60_exceptions.md R266). -/
theorem raise_of_not_busy {s : State} (hb : s.busy = false) (e : ErrCode) : s.raise e = { s with err := e } := by
  rw [State.raise, ← hb]

/-- Settles O8: steps 1 and 2 are the causes that refuse a write, steps 3 to 6 the classes of the word. -/
theorem commandWriteIsHandledInOrder : Obligations.CommandWriteIsHandledInOrder := by
  refine fun s w => ⟨writesWhileBusyAreRefused s 0x10 w, fun _ he hw => ?_, fun hb he => ⟨?_, ?_, ?_⟩⟩
  · exact portWrite_refused (writeTarget_error_iff.mpr (.inr (.inr (.inr (.inr ⟨rfl, he, hw⟩)))))
  · intro r hr
    rw [portWrite_cmd_taken hb he, takeCommand_illegal hr, raise_of_not_busy (s := s.take w) hb]
    rfl
  · intro i hi
    rw [portWrite_cmd_taken hb he, takeCommand_badFormat hi, raise_of_not_busy (s := s.take w) hb]
    rfl
  · intro i hi
    rw [portWrite_cmd_taken hb he, takeCommand_command hi]
    rfl

end Sys2Proof.Machine


/-! The range check of KND, LDC and CVT (spec/42_classifier.md R139). -/

namespace Sys2Proof.Machine

/-! ### When the range check fails -/

theorem fieldsInRange_eq_false_iff {d : Descriptor} {e : BitVec 15} {m : BitVec 64} :
    fieldsInRange d e m = false ↔ 2 ^ d.mantissaBits ≤ m.toNat ∨ 2 ^ d.exponentBits ≤ e.toNat := by
  simp [fieldsInRange, imp_iff_not_or]

/-- The extended fields are exactly as wide as the registers. -/
theorem fieldsInRange_extended (e : BitVec 15) (m : BitVec 64) : fieldsInRange descExtended e m = true := by
  have hm : m.toNat < 2 ^ descExtended.mantissaBits := m.isLt
  have he : e.toNat < 2 ^ descExtended.exponentBits := e.isLt
  simp [fieldsInRange, hm, he]

/-! ### What a failed range check ends in -/

section
variable {f : Fmt} {d : Descriptor} {s : State}

theorem ldcBody_outOfRange (h : fieldsInRange d s.expf s.manf = false) : ldcBody d s = .raised .range := by
  simp [ldcBody, h]

theorem exec_knd_outOfRange (hd : descOf f = some d) (h : fieldsInRange d s.expf s.manf = false) :
    exec (.knd f) s = .next (s.raise .range) := by
  rw [exec, execKnd, withFormat_of_desc hd, h]
  rfl

theorem exec_ldc_outOfRange (hd : descOf f = some d) (h : fieldsInRange d s.expf s.manf = false) :
    exec (.ldc f) s = .next (s.raise .range) := by
  rw [exec, execLdc, withFormat_of_desc hd, ldcBody_outOfRange h, runSingle_raised]

theorem exec_cvt_outOfRange (hd : descOf f = some d) (h : fieldsInRange d s.expf s.manf = false)
    (hu : s.ustep = .sLdc) : exec (.cvt f) s = .next (s.raise .range) := by
  simp [exec, execCvt, hu, withFormat_of_desc hd, ldcBody_outOfRange h]

end

/-- Settles O17: fields that exceed their widths fail the range check, which is the first thing all three commands do
and which the extended format never fails. -/
theorem rangeCheckComesFirst : Obligations.RangeCheckComesFirst := by
  intro f M E s hf hwide
  obtain ⟨d, hd, rfl, rfl⟩ : ∃ d, descOf f = some d ∧ d.mantissaBits = M ∧ d.exponentBits = E := by
    simp only [List.mem_cons, Prod.mk.injEq, List.not_mem_nil, or_false] at hf
    obtain ⟨rfl, rfl, rfl⟩ | ⟨rfl, rfl, rfl⟩ | ⟨rfl, rfl, rfl⟩ := hf <;> exact ⟨_, rfl, rfl, rfl⟩
  have hout : fieldsInRange d s.expf s.manf = false := fieldsInRange_eq_false_iff.mpr hwide
  refine ⟨?_, exec_knd_outOfRange hd hout, exec_ldc_outOfRange hd hout, exec_cvt_outOfRange hd hout⟩
  rintro rfl
  obtain rfl : descExtended = d := Option.some.inj hd
  simp [fieldsInRange_extended] at hout

end Sys2Proof.Machine


/-! The four requests to the engine (spec/43_bigint_engine.md R163 to R166): what a request carries on its argument
bits, and what the answer says beside the accumulator. -/

namespace Sys2Proof.Machine

/-! ### The argument bits -/

/-- A count travels in bits [15:0] (spec/20_memory.md R87). -/
theorem extractLsb'_count_arg (n : BitVec 16) : (n.setWidth 64).extractLsb' 0 16 = n := by
  rw [← BitVec.setWidth_eq_extractLsb' (by decide)]
  exact BitVec.setWidth_setWidth_of_le n (by decide)

@[simp] theorem mulp5_arg_count (n : BitVec 16) : (EngineRequest.mulp5 n).arg.extractLsb' 0 16 = n :=
  extractLsb'_count_arg n

@[simp] theorem shl_arg_count (n : BitVec 16) : (EngineRequest.shl n).arg.extractLsb' 0 16 = n :=
  extractLsb'_count_arg n

/-! ### The remainder -/

/-- Four bits hold every remainder of a division by ten (spec/43_bigint_engine.md R166). -/
@[simp] theorem run_divmod10_rem_toNat (a : Nat) : (EngineRequest.divmod10.run a).rem.toNat = a % 10 := by
  have hlt : a % 10 < 10 := Nat.mod_lt a (by decide)
  rw [run_divmod10_rem, BitVec.toNat_ofNat]
  omega

/-- Only DIVMOD10 answers with a remainder (spec/20_memory.md R87). -/
theorem run_rem_eq_zero {r : EngineRequest} (hr : r ≠ .divmod10) (a : Nat) : (r.run a).rem = 0 := by
  cases r with
  | divmod10 => exact absurd rfl hr
  | load v => rfl
  | mulp5 n => rfl
  | shl n => rfl

/-- Settles O39: the accumulator and the zero flag are those of `run`'s equations; the quotient and the remainder
recombine because the remainder's four bits lose nothing, and a count comes back from its argument bits. -/
theorem engineRequestsAreExact : Obligations.EngineRequestsAreExact := by
  intro a v n
  refine ⟨run_load_acc a v, fun _ => run_mulp5_acc a n, fun _ => run_shl_acc a n, ?recombine, ?remainder,
    fun r => run_nz r a, ⟨rfl, rfl, run_rem_eq_zero (by simp) a⟩,
    ⟨rfl, mulp5_arg_count n, run_rem_eq_zero (by simp) a⟩,
    ⟨rfl, shl_arg_count n, run_rem_eq_zero (by simp) a⟩, rfl⟩
  case recombine =>
    rw [run_divmod10_acc, run_divmod10_rem_toNat]
    exact (Nat.div_add_mod a 10).symm
  case remainder =>
    rw [run_divmod10_rem_toNat]
    exact Nat.le_of_lt_succ (Nat.mod_lt a (by decide))

end Sys2Proof.Machine


/-! The kinds that bypass the Exact Converter (spec/44_exact_converter.md R183, R192). -/

namespace Sys2Proof.Machine

/-- The five kinds that do not convert. -/
theorem converts_eq_false_iff {k : Kind} :
    k.converts = false ↔ k ∈ [Kind.zero, .infinity, .quietNaN, .signalingNaN, .indefinite] := by
  cases k <;> decide

/-- The three formats and the widths of their fields. -/
theorem exists_desc_of_widths {f : Fmt} {M E : Nat}
    (hf : (f, M, E) ∈ [(Fmt.single, 23, 8), (.double, 52, 11), (.extended, 64, 15)]) :
    ∃ d, descOf f = some d ∧ d.mantissaBits = M ∧ d.exponentBits = E := by
  simp only [List.mem_cons, Prod.mk.injEq, List.not_mem_nil, or_false] at hf
  obtain ⟨rfl, rfl, rfl⟩ | ⟨rfl, rfl, rfl⟩ | ⟨rfl, rfl, rfl⟩ := hf <;> exact ⟨_, rfl, rfl, rfl⟩

section
variable {f : Fmt} {d : Descriptor} {s : State}

/-! ### What the commands do once the range check holds -/

theorem ldcBody_inRange (h : fieldsInRange d s.expf s.manf = true) :
    ldcBody d s = .done (ldcState d (kindOf d s.expf s.manf) s) := if_pos h

theorem exec_knd_inRange (hd : descOf f = some d) (h : fieldsInRange d s.expf s.manf = true) :
    exec (.knd f) s = .next (kndState d s).finish := by
  rw [exec, execKnd, withFormat_of_desc hd, if_pos h, runSingle_done]

theorem exec_ldc_inRange (hd : descOf f = some d) (h : fieldsInRange d s.expf s.manf = true) :
    exec (.ldc f) s = .next (ldcState d (kindOf d s.expf s.manf) s).finish := by
  rw [exec, execLdc, withFormat_of_desc hd, ldcBody_inRange h, runSingle_done]

theorem exec_cvt_inRange (hd : descOf f = some d) (h : fieldsInRange d s.expf s.manf = true) (hu : s.ustep = .sLdc) :
    exec (.cvt f) s = .next (afterLdc (ldcState d (kindOf d s.expf s.manf) s)) := by
  simp only [exec, execCvt, hu, withFormat_of_desc hd, ldcBody_inRange h, settle_done]

/-! ### LDC on a bypassed kind -/

theorem ldcState_of_not_converts {k : Kind} (hk : k.converts = false) (d : Descriptor) (s : State) :
    ldcState d k s = (s.writeKind k).setPhase .bypass := by
  simp [ldcState, hk]

/-- The phase BYPASS ends a CVT as the end of LDC ends LDC (spec/44_exact_converter.md R192). -/
theorem afterLdc_of_bypass {t : State} (h : t.phase = .bypass) : afterLdc t = t.finish := if_pos h

end

/-- Settles O27: KND's answer names the kind that LDC computes afresh, and on a kind that does not convert LDC writes
that kind and BYPASS, the phase on which CVT ends too. -/
theorem otherKindsBypassTheConverter : Obligations.OtherKindsBypassTheConverter := by
  intro f M E s u hf hM hE hknd hkind
  obtain ⟨d, hd, rfl, rfl⟩ := exists_desc_of_widths hf
  have hin : fieldsInRange d s.expf s.manf = true := by simp [fieldsInRange, hM, hE]
  obtain rfl : (kndState d s).finish = u := by
    simpa using (exec_knd_inRange hd hin).symm.trans hknd
  have hbypass : ldcState d (kindOf d s.expf s.manf) s = (s.writeKind (kindOf d s.expf s.manf)).setPhase .bypass :=
    ldcState_of_not_converts (converts_eq_false_iff.mpr hkind) d s
  refine ⟨?ldc, fun hu => ?cvt⟩
  case ldc =>
    rw [exec_ldc_inRange hd hin, hbypass]
    rfl
  case cvt =>
    rw [exec_cvt_inRange hd hin hu, hbypass, afterLdc_of_bypass (State.setPhase_phase _ _)]
    rfl

end Sys2Proof.Machine

/-! The one system command, CLE (spec/45_system.md R220). -/

namespace Sys2Proof.Machine

/-- CLE is one step that nothing can raise in or hold up: its step clears the error, and it ends as every such command
does. -/
theorem exec_cle (s : State) : exec .cle s = .next s.clearErr.finish := by
  rw [exec, execCle, runSingle_done]

/-- Settles O24: clearing the error writes `ERR` alone, and ending the command writes `BUSY` alone. -/
theorem cleClearsTheErrorAlone : Obligations.CleClearsTheErrorAlone := fun s =>
  calc exec .cle s
    _ = .next s.clearErr.finish := exec_cle s
    _ = .next { s with err := .noError, busy := false } := by rw [State.clearErr, State.finish]

end Sys2Proof.Machine

/-! Raising an error (spec/60_exceptions.md R264, R266): what a step of a command can do to `ERR`, and the zero
mantissa. -/

namespace Sys2Proof.Machine

/-! ### The zero mantissa -/

theorem minBody_zeroMantissa {s : State} (hp : s.phase = .loaded) (hm : s.cmant = 0) :
    minBody s = .raised .precond := by
  simp [minBody, hp, hm]

/-- Settles O20: MIN and CVT's MIN sub-step run the same body, which raises before it writes. -/
theorem zeroMantissaRaisesPrecond : Obligations.ZeroMantissaRaisesPrecond := by
  intro f s hp hm
  have hbody : minBody s = .raised .precond := minBody_zeroMantissa hp hm
  refine ⟨?min, fun hu => ?cvt⟩
  case min => rw [exec, execMin, hbody, runSingle_raised, State.raise]
  case cvt => simp only [exec, execCvt, hu, hbody, settle_raised, State.raise]

/-! ### The writes of the commands leave `ERR` alone -/

section
variable (d : Descriptor) (s : State)

@[simp] theorem xtrState_err (o : ByteOrder) : (xtrState d o s).err = s.err := rfl
@[simp] theorem splState_err : (splState d s).err = s.err := rfl
@[simp] theorem kndState_err : (kndState d s).err = s.err := rfl
@[simp] theorem clsState_err : (clsState d s).err = s.err := rfl
@[simp] theorem minState_err : (minState s).err = s.err := rfl
@[simp] theorem dgtState_err : (dgtState s).err = s.err := rfl

@[simp] theorem ldcState_err (k : Kind) : (ldcState d k s).err = s.err := by
  unfold ldcState
  split <;> rfl

@[simp] theorem rfrState_err : (rfrState s).err = s.err := by
  unfold rfrState
  split <;> rfl

@[simp] theorem rreState_err : (rreState s).err = s.err := by
  unfold rreState
  split <;> rfl

@[simp] theorem afterLdc_err : (afterLdc s).err = s.err := by
  unfold afterLdc
  split <;> rfl

@[simp] theorem afterDgt_err : (afterDgt s).err = s.err := by
  unfold afterDgt
  split <;> rfl

end

/-! ### A step keeps `ERR`, or raises -/

/-- A step begun in `s` that completes or waits leaves `ERR` as it stood in `s`. -/
def SubStep.KeepsErr (s : State) : SubStep → Prop
  | .done t => t.err = s.err
  | .raised _ => True
  | .waiting t => t.err = s.err

section
variable {s t : State}

@[simp] theorem keepsErr_done : (SubStep.done t).KeepsErr s ↔ t.err = s.err := Iff.rfl
@[simp] theorem keepsErr_raised (e : ErrCode) : (SubStep.raised e).KeepsErr s := trivial
@[simp] theorem keepsErr_waiting : (SubStep.waiting t).KeepsErr s ↔ t.err = s.err := Iff.rfl

theorem withFormat_keepsErr {body : Descriptor → SubStep} (f : Fmt) (h : ∀ d, (body d).KeepsErr s) :
    (withFormat f body).KeepsErr s := by
  obtain ⟨d, -, hd⟩ | ⟨-, hr⟩ := withFormat_cases f body
  · exact hd ▸ h d
  · exact hr ▸ keepsErr_raised .format

theorem ldcBody_keepsErr (d : Descriptor) (s : State) : (ldcBody d s).KeepsErr s := by
  obtain ⟨-, h⟩ | ⟨-, h⟩ := ldcBody_cases d s <;> simp [h]

theorem minBody_keepsErr (s : State) : (minBody s).KeepsErr s := by
  obtain ⟨-, h⟩ | ⟨-, -, h⟩ | ⟨-, -, h⟩ := minBody_cases s <;> simp [h]

theorem rfrBody_keepsErr (s : State) : (rfrBody s).KeepsErr s := by
  obtain ⟨-, h⟩ | ⟨-, -, h⟩ | ⟨-, -, h⟩ := rfrBody_cases s <;> simp [h]

theorem rreBody_keepsErr (s : State) : (rreBody s).KeepsErr s := by
  obtain ⟨-, h⟩ | ⟨-, -, -, h⟩ | ⟨-, -, h⟩ := rreBody_cases s <;> simp [h]

theorem dgtBody_keepsErr (s : State) : (dgtBody s).KeepsErr s := by
  obtain ⟨-, -, h⟩ | ⟨-, -, -, h⟩ | ⟨-, -, -, h⟩ | ⟨-, -, -, h⟩ := dgtBody_cases s <;> simp [h]

/-- When what follows its completion keeps `ERR`, a step that keeps `ERR` does so in the end, or is the raising of an
error and nothing else. -/
theorem settle_keepsErr_or_raises {k : State → State} {r : SubStep} (hk : ∀ u, (k u).err = u.err)
    (hr : r.KeepsErr s) (h : settle s k r = .next t) : t.err = s.err ∨ ∃ e, t = s.raise e := by
  obtain ⟨u, rfl, rfl⟩ | ⟨e, -, rfl⟩ | rfl := settle_eq_next h
  · exact .inl ((hk u).trans hr)
  · exact .inr ⟨e, rfl⟩
  · exact .inl hr

theorem runSingle_keepsErr_or_raises {r : SubStep} (hr : r.KeepsErr s) (h : runSingle s r = .next t) :
    t.err = s.err ∨ ∃ e, t = s.raise e :=
  settle_keepsErr_or_raises State.finish_err hr h

/-- The commands that check nothing beside the format: XTR, SPL, CLS and CLN. -/
theorem formatOnly_keepsErr_or_raises {f : Fmt} {w : Descriptor → State} (hw : ∀ d, (w d).err = s.err)
    (h : runSingle s (withFormat f fun d => .done (w d)) = .next t) : t.err = s.err ∨ ∃ e, t = s.raise e :=
  runSingle_keepsErr_or_raises (withFormat_keepsErr f fun d => keepsErr_done.mpr (hw d)) h

theorem execKnd_keepsErr_or_raises {f : Fmt} (h : execKnd f s = .next t) : t.err = s.err ∨ ∃ e, t = s.raise e := by
  refine runSingle_keepsErr_or_raises (withFormat_keepsErr f fun d => ?_) h
  split
  · exact kndState_err d s
  · exact keepsErr_raised .range

theorem execCvt_keepsErr_or_raises {f : Fmt} (h : execCvt f s = .next t) : t.err = s.err ∨ ∃ e, t = s.raise e := by
  unfold execCvt at h
  cases hu : s.ustep <;> simp only [hu] at h
  case sLdc => exact settle_keepsErr_or_raises afterLdc_err (withFormat_keepsErr f (ldcBody_keepsErr · s)) h
  case sMin => exact settle_keepsErr_or_raises (State.advance_err · .sRfr) (minBody_keepsErr s) h
  case sRfr => exact settle_keepsErr_or_raises (State.advance_err · .sRre) (rfrBody_keepsErr s) h
  case sRre => exact settle_keepsErr_or_raises (State.advance_err · .sDgt) (rreBody_keepsErr s) h
  case sDgt => exact settle_keepsErr_or_raises afterDgt_err (dgtBody_keepsErr s) h

/-- Everything a command's step can do to `ERR`: CLE clears it, and a step of any other command keeps it or is the
raising of an error and nothing else. -/
theorem exec_err_cases {i : Instr} (h : exec i s = .next t) :
    (i = .cle ∧ t.err = .noError) ∨ t.err = s.err ∨ ∃ e, t = s.raise e := by
  cases i with
  | xtr f o => exact .inr (formatOnly_keepsErr_or_raises (xtrState_err · s o) h)
  | spl f => exact .inr (formatOnly_keepsErr_or_raises (splState_err · s) h)
  | knd f => exact .inr (execKnd_keepsErr_or_raises h)
  | cls f => exact .inr (formatOnly_keepsErr_or_raises (clsState_err · s) h)
  | cln f o => exact .inr (formatOnly_keepsErr_or_raises (fun d => clsState_err d (xtrState d o s)) h)
  | ldc f => exact .inr (runSingle_keepsErr_or_raises (withFormat_keepsErr f (ldcBody_keepsErr · s)) h)
  | min => exact .inr (runSingle_keepsErr_or_raises (minBody_keepsErr s) h)
  | rfr => exact .inr (runSingle_keepsErr_or_raises (rfrBody_keepsErr s) h)
  | rre => exact .inr (runSingle_keepsErr_or_raises (rreBody_keepsErr s) h)
  | dgt => exact .inr (runSingle_keepsErr_or_raises (dgtBody_keepsErr s) h)
  | cvt f => exact .inr (execCvt_keepsErr_or_raises h)
  | cle =>
    obtain rfl : s.clearErr.finish = t := Host.Outcome.next.inj ((exec_cle s).symm.trans h)
    exact .inl ⟨rfl, rfl⟩

end

/-- Settles O21: a step that leaves a new error neither cleared nor kept `ERR`, so it is `State.raise`, which writes
`ERR` and `BUSY` alone. -/
theorem raisingStepWritesNothingElse : Obligations.RaisingStepWritesNothingElse := by
  intro i s t h hnew hne
  obtain ⟨-, hclear⟩ | hkeep | ⟨e, rfl⟩ := exec_err_cases h
  · exact absurd hclear hnew
  · exact absurd hkeep hne
  · rw [State.raise_err, State.raise]

end Sys2Proof.Machine

/-! Decoding and encoding agree (spec/30_encoding.md R101 to R109), and the words of the table in section 6. -/

namespace Sys2Proof

/-- The encoder's word decodes to its command, in the command's class. -/
theorem decode_encode (i : Instr) : decode (encode i) = classifyInstr i := by
  cases i with
  | xtr f o => exact Laws.RoundTrip.xtr f o
  | spl f => exact Laws.RoundTrip.spl f
  | knd f => exact Laws.RoundTrip.knd f
  | cls f => exact Laws.RoundTrip.cls f
  | cln f o => exact Laws.RoundTrip.cln f o
  | ldc f => exact Laws.RoundTrip.ldc f
  | min => exact Laws.RoundTrip.min
  | rfr => exact Laws.RoundTrip.rfr
  | rre => exact Laws.RoundTrip.rre
  | dgt => exact Laws.RoundTrip.dgt
  | cvt f => exact Laws.RoundTrip.cvt f
  | cle => exact Laws.RoundTrip.cle

theorem decode_encode_wellFormed {i : Instr} (h : i.wellFormed = true) : decode (encode i) = .command i := by
  rw [decode_encode, classifyInstr, if_pos h]

/-- A word that decodes to a command is the word of that command, which is well formed. -/
theorem encode_of_decode_command {w : Word} {i : Instr} (h : decode w = .command i) :
    i.wellFormed = true ∧ encode i = w := by
  have hhigh : w.extractLsb' 7 25 = 0 := by
    by_contra hne
    simp [decode_highBits hne] at h
  have hright := decode_rightClass hhigh
  rw [h] at hright
  cases hright with
  | command _ _ _ hwf henc => exact ⟨hwf, henc.trans (commandWord_fields hhigh)⟩

/-- Settles O3: a legal word is put together again from its fields, and the encoder's word is read back. -/
theorem decodeAndEncodeAgree : Obligations.DecodeAndEncodeAgree := by
  intro w i
  constructor
  · intro h
    obtain ⟨hwf, henc⟩ := encode_of_decode_command h
    exact ⟨hwf, henc.symm⟩
  · rintro ⟨hwf, rfl⟩
    exact decode_encode_wellFormed hwf

/-- Settles O1: the decoder's answer to each of the 32 words, by evaluation. -/
theorem listedWordsDecodeToTheirCommands : Obligations.ListedWordsDecodeToTheirCommands := by
  unfold Obligations.ListedWordsDecodeToTheirCommands
  decide

/-- The commands of the table in spec/30_encoding.md section 6, in its order. -/
def listedCommands : List Instr :=
  [.xtr .single .little, .xtr .double .little, .xtr .extended .little, .xtr .single .big, .xtr .double .big,
    .xtr .extended .big, .spl .single, .spl .double, .spl .extended, .knd .single, .knd .double, .knd .extended,
    .cls .single, .cls .double, .cls .extended, .cln .single .little, .cln .double .little, .cln .extended .little,
    .cln .single .big, .cln .double .big, .cln .extended .big, .ldc .single, .ldc .double, .ldc .extended,
    .cvt .single, .cvt .double, .cvt .extended, .min, .rfr, .rre, .dgt, .cle]

/-- The listed commands are the well-formed ones: each command with each of the three formats and each order. -/
theorem mem_listedCommands_iff {i : Instr} : i ∈ listedCommands ↔ i.wellFormed = true := by
  constructor
  · have hall : ∀ i ∈ listedCommands, i.wellFormed = true := by decide
    exact hall i
  · intro h
    cases i with
    | xtr f o | cln f o =>
      cases f with
      | reserved => cases h
      | single | double | extended => cases o <;> decide
    | spl f | knd f | cls f | ldc f | cvt f =>
      cases f with
      | reserved => cases h
      | single | double | extended => decide
    | min | rfr | rre | dgt | cle => decide

/-- Settles O2: a legal word is the encoder's word of a well-formed command, and the 32 words are those of the listed
commands. -/
theorem legalWordsAreTheListedThirtyTwo : Obligations.LegalWordsAreTheListedThirtyTwo := by
  intro w
  calc (∃ i, decode w = .command i)
    _ ↔ ∃ i, i.wellFormed = true ∧ w = encode i := exists_congr (decodeAndEncodeAgree w)
    _ ↔ ∃ i ∈ listedCommands, encode i = w := by simp only [mem_listedCommands_iff, eq_comm]
    _ ↔ w ∈ listedCommands.map encode := List.mem_map.symm

end Sys2Proof

/-! What one step of a command can do: the command whose body the step runs, how that body can end, and where the step
goes from there (spec/30_encoding.md R112, spec/44_exact_converter.md R191). -/

namespace Sys2Proof.Machine

/-! ### The body of a step, and what follows it -/

/-- The command whose body a step of `i` runs: a CVT's is that of its sub-step. -/
def bodyCommand (i : Instr) (u : UStep) : Instr :=
  match i with
  | .cvt f => subCommand f u
  | i => i

/-- What follows a completed body: a CVT goes on or ends, every other command ends. -/
def follow (i : Instr) (u : UStep) : State → State :=
  match i, u with
  | .cvt _, .sLdc => afterLdc
  | .cvt _, .sMin => (State.advance · .sRfr)
  | .cvt _, .sRfr => (State.advance · .sRre)
  | .cvt _, .sRre => (State.advance · .sDgt)
  | .cvt _, .sDgt => afterDgt
  | _, _ => State.finish

/-- The phases that spec/44_exact_converter.md R193 lists for a command. -/
def listsPhase : Instr → Phase → Prop
  | .min, p => p = .loaded
  | .rfr, p => p = .minimized
  | .rre, p => p = .defracted
  | .dgt, p => p = .reduced ∨ p = .digits
  | _, _ => True

/-- The commands of the extractor and the classifier. -/
def classifies : Instr → Prop
  | .xtr _ _ => True
  | .spl _ => True
  | .knd _ => True
  | .cls _ => True
  | .cln _ _ => True
  | _ => False

/-- Every way in which the body of a command can end, begun in `s`. -/
inductive BodyOutcome (s : State) : Instr → SubStep → Prop where
  | noFormat {i : Instr} (h : i.wellFormed = false) : BodyOutcome s i (.raised .format)
  | kndRange (f : Fmt) : BodyOutcome s (.knd f) (.raised .range)
  | ldcRange (f : Fmt) : BodyOutcome s (.ldc f) (.raised .range)
  | wrongPhase {i : Instr} (h : ¬ listsPhase i s.phase) : BodyOutcome s i (.raised .seq)
  | zeroMantissa (hp : s.phase = .loaded) (hm : s.cmant = 0) : BodyOutcome s .min (.raised .precond)
  | classified {i : Instr} (hi : classifies i) (b : BitVec 80) (x : BitVec 16) (m : BitVec 64) (k : Kind) :
      BodyOutcome s i (.done (((s.writeBits b).writeFields x m).writeKind k))
  | cleared : BodyOutcome s .cle (.done s.clearErr)
  | loaded (f : Fmt) (d : Descriptor) (k : Kind) : BodyOutcome s (.ldc f) (.done (ldcState d k s))
  | minimized (hp : s.phase = .loaded) (hm : s.cmant ≠ 0) : BodyOutcome s .min (.done (minState s))
  | rfrWaits (hp : s.phase = .minimized) (he : s.engineReady = false) :
      BodyOutcome s .rfr (.waiting (s.awaitEngine (.load s.cmant)))
  | rfrDone (hp : s.phase = .minimized) (he : s.engineReady = true) : BodyOutcome s .rfr (.done (rfrState s))
  | rreWaits (hp : s.phase = .defracted) (hb : 0 < s.binExp) (he : s.engineReady = false) :
      BodyOutcome s .rre (.waiting (s.awaitEngine (.shl (shiftAmount s))))
  | rreDone (hp : s.phase = .defracted) (he : s.binExp ≤ 0 ∨ s.engineReady = true) :
      BodyOutcome s .rre (.done (rreState s))
  | dgtWaitsEngine (hp : s.phase = .reduced ∨ s.phase = .digits) (hb : s.beat = none) (he : s.engineReady = false) :
      BodyOutcome s .dgt (.waiting (s.awaitEngine .divmod10))
  | dgtWaitsSink (hp : s.phase = .reduced ∨ s.phase = .digits) (he : s.beat ≠ none ∨ s.engineReady = true)
      (hk : s.sinkReady = false) : BodyOutcome s .dgt (.waiting (s.awaitSink (nextBeat s)))
  | dgtDone (hp : s.phase = .reduced ∨ s.phase = .digits) (he : s.beat ≠ none ∨ s.engineReady = true)
      (hk : s.sinkReady = true) : BodyOutcome s .dgt (.done (dgtState s))

section
variable {s : State}

/-- A body that needs a format: with the reserved one the command is not well formed. -/
theorem withFormat_outcome {i : Instr} {f : Fmt} {body : Descriptor → SubStep} (hwf : i.wellFormed = f.supported)
    (h : ∀ d, BodyOutcome s i (body d)) : BodyOutcome s i (withFormat f body) := by
  obtain ⟨d, -, hd⟩ | ⟨rfl, hr⟩ := withFormat_cases f body
  · rw [hd]; exact h d
  · rw [hr]; exact .noFormat hwf

theorem knd_outcome (f : Fmt) : BodyOutcome s (.knd f) (withFormat f fun d =>
    if fieldsInRange d s.expf s.manf then .done (kndState d s) else .raised .range) := by
  refine withFormat_outcome rfl fun d => ?_
  split
  · exact .classified (i := .knd f) trivial s.bits s.sexp s.manf _
  · exact .kndRange f

theorem ldc_outcome (f : Fmt) : BodyOutcome s (.ldc f) (withFormat f fun d => ldcBody d s) := by
  refine withFormat_outcome rfl fun d => ?_
  obtain ⟨-, h⟩ | ⟨-, h⟩ := ldcBody_cases d s <;> rw [h]
  · exact .loaded f d _
  · exact .ldcRange f

theorem min_outcome : BodyOutcome s .min (minBody s) := by
  obtain ⟨hp, h⟩ | ⟨hp, hm, h⟩ | ⟨hp, hm, h⟩ := minBody_cases s <;> rw [h]
  · exact .wrongPhase hp
  · exact .zeroMantissa hp hm
  · exact .minimized hp hm

theorem rfr_outcome : BodyOutcome s .rfr (rfrBody s) := by
  obtain ⟨hp, h⟩ | ⟨hp, he, h⟩ | ⟨hp, he, h⟩ := rfrBody_cases s <;> rw [h]
  · exact .wrongPhase hp
  · exact .rfrWaits hp he
  · exact .rfrDone hp he

theorem rre_outcome : BodyOutcome s .rre (rreBody s) := by
  obtain ⟨hp, h⟩ | ⟨hp, hb, he, h⟩ | ⟨hp, he, h⟩ := rreBody_cases s <;> rw [h]
  · exact .wrongPhase hp
  · exact .rreWaits hp hb he
  · exact .rreDone hp he

theorem dgt_outcome : BodyOutcome s .dgt (dgtBody s) := by
  obtain ⟨hr, hd, h⟩ | ⟨hp, hb, he, h⟩ | ⟨hp, he, hk, h⟩ | ⟨hp, he, hk, h⟩ := dgtBody_cases s <;> rw [h]
  · exact .wrongPhase (i := .dgt) fun hp => hp.elim hr hd
  · exact .dgtWaitsEngine hp hb he
  · exact .dgtWaitsSink hp he hk
  · exact .dgtDone hp he hk

end

/-- A step of a command is its body, begun and settled: the one inversion of `exec`. -/
theorem exec_eq_settle (i : Instr) (s : State) :
    ∃ r, BodyOutcome s (bodyCommand i s.ustep) r ∧ exec i s = settle s (follow i s.ustep) r := by
  cases i with
  | xtr f o =>
    refine ⟨_, withFormat_outcome (i := .xtr f o) rfl fun d => ?_, rfl⟩
    exact .classified (i := .xtr f o) trivial (xtrState d o s).bits s.sexp s.manf s.kind
  | spl f =>
    refine ⟨_, withFormat_outcome (i := .spl f) rfl fun d => ?_, rfl⟩
    exact .classified (i := .spl f) trivial s.bits (splState d s).sexp (splState d s).manf s.kind
  | knd f => exact ⟨_, knd_outcome f, rfl⟩
  | cls f =>
    refine ⟨_, withFormat_outcome (i := .cls f) rfl fun _ => ?_, rfl⟩
    exact .classified (i := .cls f) trivial s.bits _ _ _
  | cln f o =>
    refine ⟨_, withFormat_outcome (i := .cln f o) rfl fun _ => ?_, rfl⟩
    exact .classified (i := .cln f o) trivial _ _ _ _
  | ldc f => exact ⟨_, ldc_outcome f, rfl⟩
  | min => exact ⟨_, min_outcome, rfl⟩
  | rfr => exact ⟨_, rfr_outcome, rfl⟩
  | rre => exact ⟨_, rre_outcome, rfl⟩
  | dgt => exact ⟨_, dgt_outcome, rfl⟩
  | cle => exact ⟨_, .cleared, rfl⟩
  | cvt f =>
    show ∃ r, BodyOutcome s (subCommand f s.ustep) r ∧ execCvt f s = settle s (follow (.cvt f) s.ustep) r
    unfold execCvt
    cases s.ustep with
    | sLdc => exact ⟨_, ldc_outcome f, rfl⟩
    | sMin => exact ⟨_, min_outcome, rfl⟩
    | sRfr => exact ⟨_, rfr_outcome, rfl⟩
    | sRre => exact ⟨_, rre_outcome, rfl⟩
    | sDgt => exact ⟨_, dgt_outcome, rfl⟩

/-- A step of a command raised an error, was completed, or waits, as its body did. -/
theorem exec_cases {i : Instr} {s t : State} (h : exec i s = .next t) :
    (∃ e, BodyOutcome s (bodyCommand i s.ustep) (.raised e) ∧ t = s.raise e) ∨
    (∃ u, BodyOutcome s (bodyCommand i s.ustep) (.done u) ∧ t = follow i s.ustep u) ∨
    BodyOutcome s (bodyCommand i s.ustep) (.waiting t) := by
  obtain ⟨r, hr, hexec⟩ := exec_eq_settle i s
  obtain ⟨u, rfl, rfl⟩ | ⟨e, rfl, rfl⟩ | rfl := settle_eq_next (hexec.symm.trans h)
  · exact .inr (.inl ⟨u, hr, rfl⟩)
  · exact .inl ⟨e, hr, rfl⟩
  · exact .inr (.inr hr)

/-- Whatever follows a body writes `BUSY` and `USTEP` alone. -/
theorem follow_frame (i : Instr) (u : UStep) (t : State) :
    ∃ b v, follow i u t = { t with busy := b, ustep := v } := by
  unfold follow
  split
  · unfold afterLdc
    split <;> exact ⟨_, _, rfl⟩
  · exact ⟨_, _, rfl⟩
  · exact ⟨_, _, rfl⟩
  · exact ⟨_, _, rfl⟩
  · unfold afterDgt
    split <;> exact ⟨_, _, rfl⟩
  · exact ⟨_, _, rfl⟩

section
variable (i : Instr) (u : UStep) (t : State)

@[simp] theorem follow_phase : (follow i u t).phase = t.phase := by
  obtain ⟨_, _, h⟩ := follow_frame i u t
  rw [h]

@[simp] theorem follow_dstream : (follow i u t).dstream = t.dstream := by
  obtain ⟨_, _, h⟩ := follow_frame i u t
  rw [h]

@[simp] theorem follow_err : (follow i u t).err = t.err := by
  obtain ⟨_, _, h⟩ := follow_frame i u t
  rw [h]

@[simp] theorem follow_cw : (follow i u t).cw = t.cw := by
  obtain ⟨_, _, h⟩ := follow_frame i u t
  rw [h]

@[simp] theorem follow_engReq : (follow i u t).engReq = t.engReq := by
  obtain ⟨_, _, h⟩ := follow_frame i u t
  rw [h]

@[simp] theorem follow_beat : (follow i u t).beat = t.beat := by
  obtain ⟨_, _, h⟩ := follow_frame i u t
  rw [h]

end

/-! ### The command in progress -/

/-- The current command is the one whose body the next step runs. -/
theorem currentCommand?_of_command? {s : State} {i : Instr} (h : s.command? = some i) :
    s.currentCommand? = some (bodyCommand i s.ustep) := by
  rw [State.currentCommand?, h]
  cases i <;> rfl

/-- The EFU's own step while busy is a step of the current command. -/
theorem efuStep_cases {s t : State} (h : efuStep s = .next t) :
    (s.busy = false ∧ t = s) ∨
      (s.busy = true ∧ ∃ i, s.command? = some i ∧ s.currentCommand? = some (bodyCommand i s.ustep) ∧
        exec i s = .next t) := by
  obtain hidle | ⟨hb, i, hi, hexec⟩ := efuStep_eq_next h
  · exact .inl hidle
  · exact .inr ⟨hb, i, hi, currentCommand?_of_command? hi, hexec⟩

/-! ### What a host write leaves -/

/-- Everything a host write can leave behind, begun in `s`. -/
inductive WriteOutcome (s : State) (a : Offset) (v : Word) : State → Prop where
  | refused (hf : s.err ≠ .noError → s.busy = false → a = 0x10 → v ≠ cleWord) :
      WriteOutcome s a v (s.respond ⟨0, true⟩)
  | cle (hb : s.busy = false) (ha : a = 0x10) (hv : v = cleWord) : WriteOutcome s a v
      { s with lastop := 0xF, cw := 0x0F, err := .noError, busy := false, rsp := some ⟨0, false⟩ }
  | word (e : ErrCode) (hb : s.busy = false) (he : s.err = .noError) (ha : a = 0x10) :
      WriteOutcome s a v (((s.take v).raise e).respond ⟨0, false⟩)
  | command (i : Instr) (hb : s.busy = false) (he : s.err = .noError) (ha : a = 0x10) (hi : decode v = .command i) :
      WriteOutcome s a v (((s.take v).accept v).respond ⟨0, false⟩)
  | data (r : Reg) (hb : s.busy = false) (hl : locate a = .ok r) (hr : r.access = .readWrite) :
      WriteOutcome s a v ((writeReg s v r).respond ⟨0, false⟩)

/-- The one inversion of a host write. -/
theorem writeEvent_outcome {s t : State} {a : Offset} {v : Word} (h : writeEvent s a v = .next t) :
    WriteOutcome s a v t := by
  obtain ⟨⟨hb, rfl, rfl⟩, -⟩ | ⟨hncle, hw⟩ := writeEvent_cases s a v
  · obtain rfl := Host.Outcome.next.inj ((writeEvent_cle hb).symm.trans h)
    exact .cle hb rfl rfl
  · obtain rfl := Host.Outcome.next.inj (hw.symm.trans h)
    obtain ⟨c, -, hp⟩ | ⟨r, hok, hp⟩ := portWrite_cases s a v
    · rw [hp]
      exact .refused fun _ hb ha hv => hncle ⟨hb, ha, hv⟩
    · obtain ⟨hl, hacc, hb, hfault⟩ := writeTarget_ok hok
      rw [hp, performWrite]
      split
      · next hcmd =>
        subst hcmd
        have ha : a = 0x10 := locate_cmd_iff.mp hl
        have he : s.err = .noError := (hfault rfl).resolve_right fun hv => hncle ⟨hb, ha, hv⟩
        obtain ⟨_, -, ht⟩ | ⟨_, -, ht⟩ | ⟨i, hi, ht⟩ := takeCommand_cases s v <;> rw [ht]
        · exact .word .cmd hb he ha
        · exact .word .format hb he ha
        · exact .command i hb he ha hi
      · next hcmd =>
        have hr : r.access = .readWrite := by
          cases hra : r.access with
          | readWrite => rfl
          | readOnly => exact absurd hra hacc
          | writeOnly => exact absurd (access_writeOnly_iff.mp hra) hcmd
        exact .data r hb hl hr

/-! ### The machine's step -/

/-- A step that answers is the EFU's own, or an event of one of the other agents, in the state whose agenda no longer
lists it. -/
inductive StepOutcome (s : State) : State → Prop where
  | efu {t : State} (h : efuStep (s.withAgenda s.agenda.tail) = .next t) : StepOutcome s t
  | read (a : Offset) (x : Response) : StepOutcome s ((s.withAgenda s.agenda.tail).respond x)
  | write {t : State} (a : Offset) (v : Word) (he : s.agenda.head? = some (.write a v))
      (h : WriteOutcome (s.withAgenda s.agenda.tail) a v t) : StepOutcome s t
  | reset (he : s.agenda.head? = some .reset) : StepOutcome s (s.withAgenda s.agenda.tail).resetEvent
  | engine (b : Bool) : StepOutcome s ((s.withAgenda s.agenda.tail).setEngine b)
  | sink (b : Bool) : StepOutcome s ((s.withAgenda s.agenda.tail).setSink b)

theorem withAgenda_self (s : State) : s.withAgenda s.agenda = s := rfl

theorem step_outcome {s t : State} (h : step s = .next t) : StepOutcome s t := by
  obtain ⟨hnil, hefu⟩ | ⟨e, es, hcons, hevent⟩ := step_eq_next h
  · refine .efu ?_
    rwa [show s.agenda.tail = s.agenda by rw [hnil]; rfl, withAgenda_self]
  · have htail : s.agenda.tail = es := by rw [hcons]; rfl
    have hhead : s.agenda.head? = some e := by rw [hcons]; rfl
    rw [← htail] at hevent
    obtain ⟨a, rfl, rfl⟩ | ⟨a, v, rfl, hw⟩ | ⟨rfl, rfl⟩ | ⟨rfl, hefu⟩ | ⟨b, rfl, rfl⟩ | ⟨b, rfl, rfl⟩ := hevent
    · rw [portRead_eq_respond]
      exact .read a _
    · exact .write a v hhead (writeEvent_outcome hw)
    · exact .reset hhead
    · exact .efu hefu
    · exact .engine b
    · exact .sink b

end Sys2Proof.Machine

/-! The converter's commands when they complete: what MIN, RFR, RRE and DGT leave, field by field
(spec/44_exact_converter.md R184 to R188). -/

namespace Sys2Proof.Machine

/-! ### Where the four step commands complete -/

section
variable {s : State}

theorem minBody_done (hp : s.phase = .loaded) (hm : s.cmant ≠ 0) : minBody s = .done (minState s) := by
  simp only [minBody, hp, ne_eq, not_true_eq_false, if_false, if_neg hm]

theorem rfrBody_done (hp : s.phase = .minimized) (he : s.engineReady = true) : rfrBody s = .done (rfrState s) := by
  simp [rfrBody, hp, he]

theorem rreBody_done (hp : s.phase = .defracted) (he : s.engineReady = true ∨ s.binExp ≤ 0) :
    rreBody s = .done (rreState s) := by
  have hno : ¬(0 < s.binExp ∧ s.engineReady = false) := by
    rintro ⟨hpos, hsilent⟩
    obtain hr | hb := he
    · exact absurd hr (by simp [hsilent])
    · omega
  simp only [rreBody, hp, ne_eq, not_true_eq_false, if_false, if_neg hno]

theorem dgtBody_done (hp : s.phase = .reduced ∨ s.phase = .digits) (he : s.engineReady = true ∨ s.beat ≠ none)
    (hk : s.sinkReady = true) : dgtBody s = .done (dgtState s) := by
  have hph : ¬(s.phase ≠ .reduced ∧ s.phase ≠ .digits) := by tauto
  have heng : ¬(s.beat = none ∧ s.engineReady = false) := by
    rintro ⟨hnone, hsilent⟩
    obtain hr | hb := he
    · exact absurd hr (by simp [hsilent])
    · exact hb hnone
  simp [dgtBody, if_neg hph, if_neg heng, hk]

theorem exec_min_done (hp : s.phase = .loaded) (hm : s.cmant ≠ 0) : exec .min s = .next (minState s).finish := by
  rw [exec, execMin, minBody_done hp hm, runSingle_done]

theorem exec_rfr_done (hp : s.phase = .minimized) (he : s.engineReady = true) :
    exec .rfr s = .next (rfrState s).finish := by
  rw [exec, execRfr, rfrBody_done hp he, runSingle_done]

theorem exec_rre_done (hp : s.phase = .defracted) (he : s.engineReady = true ∨ s.binExp ≤ 0) :
    exec .rre s = .next (rreState s).finish := by
  rw [exec, execRre, rreBody_done hp he, runSingle_done]

theorem exec_dgt_done (hp : s.phase = .reduced ∨ s.phase = .digits) (he : s.engineReady = true ∨ s.beat ≠ none)
    (hk : s.sinkReady = true) : exec .dgt s = .next (dgtState s).finish := by
  rw [exec, execDgt, dgtBody_done hp he hk, runSingle_done]

/-! ### The sub-steps of a CVT (spec/44_exact_converter.md R191) -/

theorem exec_cvt_min (f : Fmt) (hu : s.ustep = .sMin) :
    exec (.cvt f) s = settle s (follow (.cvt f) .sMin) (minBody s) := by
  rw [exec, execCvt, hu]; rfl

theorem exec_cvt_rfr (f : Fmt) (hu : s.ustep = .sRfr) :
    exec (.cvt f) s = settle s (follow (.cvt f) .sRfr) (rfrBody s) := by
  rw [exec, execCvt, hu]; rfl

theorem exec_cvt_rre (f : Fmt) (hu : s.ustep = .sRre) :
    exec (.cvt f) s = settle s (follow (.cvt f) .sRre) (rreBody s) := by
  rw [exec, execCvt, hu]; rfl

theorem exec_cvt_dgt (f : Fmt) (hu : s.ustep = .sDgt) :
    exec (.cvt f) s = settle s (follow (.cvt f) .sDgt) (dgtBody s) := by
  rw [exec, execCvt, hu]; rfl

/-! ### The exponent registers -/

theorem binExp_range (s : State) : -32768 ≤ s.binExp ∧ s.binExp ≤ 32767 := by
  have hlo := BitVec.le_toInt s.binexp
  have hhi := BitVec.toInt_lt (x := s.binexp)
  unfold State.binExp
  omega

theorem decExp_range (s : State) : -32768 ≤ s.decExp ∧ s.decExp ≤ 32767 := by
  have hlo := BitVec.le_toInt s.decexp
  have hhi := BitVec.toInt_lt (x := s.decexp)
  unfold State.decExp
  omega

/-- A sixteen-bit register holds every number of its signed range. -/
theorem toInt_ofInt_16 {n : Int} (hlo : -32768 ≤ n) (hhi : n ≤ 32767) : (BitVec.ofInt 16 n).toInt = n := by
  rw [BitVec.toInt_ofInt]
  exact Int.bmod_eq_of_le (by omega) (by omega)

theorem toNat_ofNat_16 {n : Nat} (h : n < 65536) : (BitVec.ofNat 16 n).toNat = n := by
  rw [BitVec.toNat_ofNat]
  exact Nat.mod_eq_of_lt h

/-! ### MIN -/

@[simp] theorem minState_phase : (minState s).phase = .minimized := by simp [minState]
@[simp] theorem minState_acc : (minState s).acc = s.acc := by simp [minState]
@[simp] theorem minState_accnz : (minState s).accnz = s.accnz := by simp [minState]
@[simp] theorem minState_dstream : (minState s).dstream = s.dstream := by simp [minState]

theorem minState_adj (hm : s.cmant ≠ 0) : (minState s).adj.toNat = minimizeAmount s.cmant s.binExp := by
  have hlt := minimizeAmount_lt hm s.binExp
  show (BitVec.ofNat 6 (minimizeAmount s.cmant s.binExp)).toNat = _
  rw [BitVec.toNat_ofNat]
  exact Nat.mod_eq_of_lt (by omega)

theorem minState_cmant (s : State) :
    (minState s).cmant.toNat = s.cmant.toNat / 2 ^ minimizeAmount s.cmant s.binExp := by
  show (s.cmant >>> minimizeAmount s.cmant s.binExp).toNat = _
  rw [BitVec.toNat_ushiftRight, Nat.shiftRight_eq_div_pow]

theorem minState_binExp (hm : s.cmant ≠ 0) :
    (minState s).binExp = s.binExp + minimizeAmount s.cmant s.binExp := by
  have hrange := binExp_range s
  show (BitVec.ofInt 16 (s.binExp + minimizeAmount s.cmant s.binExp)).toInt = _
  rcases lt_or_ge s.binExp 0 with hneg | hnonneg
  · have hle := (minimizeAmount_of_neg hm hneg).1
    exact toInt_ofInt_16 (by omega) (by omega)
  · rw [minimizeAmount_of_nonneg s.cmant hnonneg]
    exact toInt_ofInt_16 (by omega) (by omega)

theorem minState_cmant_mul (hm : s.cmant ≠ 0) :
    s.cmant.toNat = (minState s).cmant.toNat * 2 ^ minimizeAmount s.cmant s.binExp := by
  rw [minState_cmant]
  exact (Nat.div_mul_cancel (minimizeAmount_dvd hm s.binExp)).symm

theorem minState_cmant_ne_zero (hm : s.cmant ≠ 0) : (minState s).cmant ≠ 0 := by
  intro hzero
  have hmul := minState_cmant_mul hm
  rw [hzero] at hmul
  exact hm (BitVec.eq_of_toNat_eq (by simpa using hmul))

/-- With a negative exponent, MIN ends at exponent 0 or at an odd mantissa. -/
theorem minState_of_neg (hm : s.cmant ≠ 0) (hb : s.binExp < 0) :
    (minState s).binExp ≤ 0 ∧ ((minState s).binExp = 0 ∨ (minState s).cmant.toNat % 2 = 1) := by
  rw [minState_binExp hm, minState_cmant]
  exact minimizeAmount_of_neg hm hb

end

/-- Settles O28: the amount divides the mantissa, is 0 with no negative exponent, and ends at exponent 0 or at an odd
mantissa with one. -/
theorem minRemovesTheCommonTwos : Obligations.MinRemovesTheCommonTwos := by
  intro s hp hm
  refine ⟨_, exec_min_done hp hm, rfl, ?_, ?_, ?_, minState_of_neg hm⟩
  · exact (minState_cmant_mul hm).trans (by rw [← minState_adj hm]; rfl)
  · exact (minState_binExp hm).trans (by rw [← minState_adj hm]; rfl)
  · intro hnonneg
    exact BitVec.eq_of_toNat_eq ((minState_adj hm).trans (minimizeAmount_of_nonneg _ hnonneg))

/-! ### LDC -/

section
variable (d : Descriptor) (k : Kind) (s : State)

theorem ldcState_phase : (ldcState d k s).phase = if k.converts then .loaded else .bypass := by
  unfold ldcState
  split <;> simp

@[simp] theorem ldcState_acc : (ldcState d k s).acc = s.acc := by
  unfold ldcState
  split <;> simp

@[simp] theorem ldcState_accnz : (ldcState d k s).accnz = s.accnz := by
  unfold ldcState
  split <;> simp

@[simp] theorem ldcState_dstream : (ldcState d k s).dstream = s.dstream := by
  unfold ldcState
  split <;> simp

end

section
variable {s : State}

/-! ### RFR -/

@[simp] theorem rfrState_phase (s : State) : (rfrState s).phase = .defracted := by
  unfold rfrState
  split <;> simp

@[simp] theorem rfrState_accnz (s : State) : (rfrState s).accnz = decide ((rfrState s).acc ≠ 0) := by
  unfold rfrState
  split <;> exact run_nz _ _

@[simp] theorem rfrState_dstream (s : State) : (rfrState s).dstream = s.dstream := by
  unfold rfrState
  split <;> simp

/-- The count that RFR sends fits its register. -/
theorem fractionShift_toNat (s : State) : (BitVec.ofNat 16 (-s.binExp).toNat).toNat = (-s.binExp).toNat := by
  have hrange := binExp_range s
  exact toNat_ofNat_16 (by omega)

theorem rfrState_of_neg (hb : s.binExp < 0) : rfrState s = { s with
    acc := s.cmant.toNat * 5 ^ (-s.binExp).toNat, accnz := decide (s.cmant ≠ 0),
    p5n := BitVec.ofNat 16 (-s.binExp).toNat, decexp := s.binexp, binexp := 0, digit := 0, ndig := 0,
    phase := .defracted, engReq := none } := by
  have hnz : (s.cmant.toNat * 5 ^ (-s.binExp).toNat ≠ 0) ↔ s.cmant ≠ 0 := by simp [BitVec.toNat_eq]
  simp only [rfrState, if_pos hb, State.engineStep, State.writeDefracted, State.setPhase, run_nz, run_mulp5_acc,
    run_load_acc, fractionShift_toNat, hnz]

theorem rfrState_of_nonneg (hb : 0 ≤ s.binExp) : rfrState s = { s with
    acc := s.cmant.toNat, accnz := decide (s.cmant ≠ 0), p5n := 0, decexp := 0, digit := 0, ndig := 0,
    phase := .defracted, engReq := none } := by
  have hnz : (s.cmant.toNat ≠ 0) ↔ s.cmant ≠ 0 := by simp [BitVec.toNat_eq]
  simp only [rfrState, if_neg (not_lt.mpr hb), State.engineStep, State.writeDefracted, State.setPhase, run_nz,
    run_load_acc, hnz]

end

/-- Settles O29: both branches of the body, ended as every single step is. -/
theorem rfrRemovesTheFraction : Obligations.RfrRemovesTheFraction := by
  intro s hp he
  refine ⟨fun hneg => ?_, fun hnonneg => ?_⟩
  · rw [exec_rfr_done hp he, rfrState_of_neg hneg]; rfl
  · rw [exec_rfr_done hp he, rfrState_of_nonneg hnonneg]; rfl

section
variable {s : State}

/-! ### RRE -/

@[simp] theorem rreState_phase (s : State) : (rreState s).phase = .reduced := by
  unfold rreState
  split <;> simp

theorem rreState_accnz (h : s.accnz = decide (s.acc ≠ 0)) : (rreState s).accnz = decide ((rreState s).acc ≠ 0) := by
  unfold rreState
  split
  · exact run_nz _ _
  · exact h

@[simp] theorem rreState_dstream (s : State) : (rreState s).dstream = s.dstream := by
  unfold rreState
  split <;> simp

theorem shiftAmount_toNat (s : State) : (shiftAmount s).toNat = s.binExp.toNat := by
  have hrange := binExp_range s
  exact toNat_ofNat_16 (by omega)

theorem rreState_of_pos (hb : 0 < s.binExp) : rreState s = { s with
    acc := s.acc * 2 ^ s.binExp.toNat, accnz := decide (s.acc ≠ 0), lshn := BitVec.ofNat 15 s.binExp.toNat,
    binexp := 0, phase := .reduced, engReq := none } := by
  have hnz : (s.acc * 2 ^ s.binExp.toNat ≠ 0) ↔ s.acc ≠ 0 := by simp
  simp only [rreState, if_pos hb, State.engineStep, State.writeReduced, State.setPhase, run_nz, run_shl_acc,
    shiftAmount_toNat, hnz]

theorem rreState_of_nonpos (hb : s.binExp ≤ 0) : rreState s = { s with lshn := 0, phase := .reduced } := by
  simp only [rreState, if_neg (not_lt.mpr hb), State.writeReduced, State.setPhase]

end

/-- Settles O30: both branches of the body, ended as every single step is. -/
theorem rreReducesTheExponent : Obligations.RreReducesTheExponent := by
  intro s hp
  refine ⟨fun hpos he => ?_, fun hnonpos => ?_⟩
  · rw [exec_rre_done hp (.inl he), rreState_of_pos hpos]; rfl
  · rw [exec_rre_done hp (.inr hnonpos), rreState_of_nonpos hnonpos]; rfl

section
variable {s : State}

/-! ### DGT -/

@[simp] theorem nextBeat_digit (s : State) : (nextBeat s).digit.toNat = s.acc % 10 := run_divmod10_rem_toNat s.acc

@[simp] theorem nextBeat_frac (s : State) : (nextBeat s).frac = decide (s.decExp < 0) := rfl

theorem nextBeat_last (s : State) : (nextBeat s).last = decide (¬(s.decExp + 1 ≤ 0 ∨ s.acc / 10 ≠ 0)) := by
  rw [Bool.eq_iff_iff]
  simp [nextBeat, moreDigits]

@[simp] theorem dgtState_phase (s : State) :
    (dgtState s).phase = if (nextBeat s).last then .finished else .digits := by simp [dgtState]
@[simp] theorem dgtState_acc (s : State) : (dgtState s).acc = s.acc / 10 := by simp [dgtState]
@[simp] theorem dgtState_accnz (s : State) : (dgtState s).accnz = decide (s.acc / 10 ≠ 0) := run_nz .divmod10 s.acc
@[simp] theorem dgtState_dstream (s : State) : (dgtState s).dstream = s.dstream ++ [nextBeat s] := by simp [dgtState]
@[simp] theorem dgtState_ndig (s : State) : (dgtState s).ndig = s.ndig + 1 := by simp [dgtState]
@[simp] theorem dgtState_digit (s : State) : (dgtState s).digit = digitRegister (nextBeat s) := by simp [dgtState]
@[simp] theorem dgtState_binExp (s : State) : (dgtState s).binExp = s.binExp := by simp [dgtState, State.binExp]
@[simp] theorem dgtState_p5n (s : State) : (dgtState s).p5n = s.p5n := by simp [dgtState]
@[simp] theorem dgtState_lshn (s : State) : (dgtState s).lshn = s.lshn := by simp [dgtState]

theorem ofInt_toInt_add_one (x : BitVec 16) : BitVec.ofInt 16 (x.toInt + 1) = x + 1 := by
  rw [BitVec.ofInt_add, BitVec.ofInt_toInt]
  rfl

theorem dgtState_decExp (h : s.decExp < 32767) : (dgtState s).decExp = s.decExp + 1 := by
  have hrange := decExp_range s
  exact toInt_ofInt_16 (by omega) (by omega)

theorem dgtState_eq (s : State) : dgtState s = { s with
    acc := s.acc / 10, accnz := decide (s.acc / 10 ≠ 0), decexp := s.decexp + 1, ndig := s.ndig + 1,
    digit := digitRegister (nextBeat s), dstream := s.dstream ++ [nextBeat s],
    phase := if (nextBeat s).last then .finished else .digits, engReq := none, beat := none } := by
  rw [← ofInt_toInt_add_one]
  rfl

/-- DIGIT as a number: DV, LAST, FRAC and the digit, each at its weight (spec/10_state.md R37). -/
theorem digitRegister_toNat (b : Beat) :
    (digitRegister b).toNat = 64 + (if b.last then 32 else 0) + (if b.frac then 16 else 0) + b.digit.toNat := by
  simp only [digitRegister, toNat_append_eq_add, BitVec.toNat_ofBool, Bool.toNat, Bool.cond_eq_ite]
  split_ifs <;> simp

theorem digitRegister_eq_ofNat {b : Beat} {n : Nat} (h : b.digit.toNat = n) : digitRegister b =
    BitVec.ofNat 7 (64 + (if b.last then 32 else 0) + (if b.frac then 16 else 0) + n) := by
  rw [← h, ← digitRegister_toNat, BitVec.ofNat_toNat, BitVec.setWidth_eq]

end

/-- Settles O31: the beat is the next one, whose digit is the remainder that DIGIT shows. -/
theorem dgtDrawsOneDigit : Obligations.DgtDrawsOneDigit := by
  intro s hp he hk
  refine ⟨nextBeat s, ?_, nextBeat_digit s, nextBeat_frac s, nextBeat_last s⟩
  rw [exec_dgt_done hp he hk, dgtState_eq, ← digitRegister_eq_ofNat (nextBeat_digit s)]
  rfl

end Sys2Proof.Machine

/-! The converter's invariant (spec/44_exact_converter.md R180, R187, R190): each step command leaves what the phase it
enters asks for, and no other event disturbs what the phase asked for before. -/

namespace Sys2Proof.Machine

/-! ### The room for the digits (spec/43_bigint_engine.md R171, spec/44_exact_converter.md R199) -/

theorem two_pow_lt_digitRoom {k : Nat} (h : k ≤ 32831) : 2 ^ k < 10 ^ digitRoom :=
  calc 2 ^ k
    _ ≤ 2 ^ (3 * digitRoom) := Nat.pow_le_pow_right (by decide) (by unfold digitRoom; omega)
    _ = (2 ^ 3) ^ digitRoom := pow_mul 2 3 digitRoom
    _ < 10 ^ digitRoom := Nat.pow_lt_pow_left (by decide) (by unfold digitRoom; omega)

/-- A mantissa shifted by the greatest exponent has room. -/
theorem shifted_lt_digitRoom (m : BitVec 64) {k : Nat} (h : k ≤ 32767) : m.toNat * 2 ^ k < 10 ^ digitRoom :=
  calc m.toNat * 2 ^ k
    _ ≤ 2 ^ 64 * 2 ^ k := Nat.mul_le_mul_right _ m.isLt.le
    _ = 2 ^ (64 + k) := (pow_add 2 64 k).symm
    _ < 10 ^ digitRoom := two_pow_lt_digitRoom (by omega)

/-- A mantissa times a power of five has room. -/
theorem product_lt_digitRoom (m : BitVec 64) (n : Nat) : m.toNat * 5 ^ n < 10 ^ (n + digitRoom) :=
  calc m.toNat * 5 ^ n
    _ ≤ m.toNat * 10 ^ n := Nat.mul_le_mul_left _ (Nat.pow_le_pow_left (by decide) n)
    _ < 10 ^ digitRoom * 10 ^ n :=
      Nat.mul_lt_mul_of_pos_right (by simpa using shifted_lt_digitRoom m (Nat.zero_le _)) (by positivity)
    _ = 10 ^ (n + digitRoom) := by rw [← pow_add, Nat.add_comm]

/-- An odd number times a positive power of five ends in the digit 5 (spec/44_exact_converter.md R190). -/
theorem odd_mul_five_pow_mod_ten {m n : Nat} (hm : m % 2 = 1) (hn : n ≠ 0) : m * 5 ^ n % 10 = 5 := by
  obtain ⟨k, rfl⟩ := Nat.exists_eq_succ_of_ne_zero hn
  have hodd : (m * 5 ^ k) % 2 = 1 := by simp [Nat.mul_mod, Nat.pow_mod, hm]
  rw [pow_succ, ← mul_assoc]
  omega

/-! ### The phase that MIN, RFR and RRE leave -/

section
variable {s : State}

theorem minState_phaseHolds (hm : s.cmant ≠ 0) : (minState s).phaseHolds := by
  refine ⟨minState_cmant_ne_zero hm, ?_⟩
  rcases lt_or_ge s.binExp 0 with hneg | hnonneg
  · exact (minState_of_neg hm hneg).2.imp (fun h => h.ge) id
  · left
    rw [minState_binExp hm]
    omega

theorem rfrState_phaseHolds (hp : s.phase = .minimized) (h : s.phaseHolds) : (rfrState s).phaseHolds := by
  rw [State.phaseHolds, hp] at h
  obtain ⟨hm, hodd⟩ := h
  have hm' : s.cmant.toNat ≠ 0 := fun h0 => hm (BitVec.eq_of_toNat_eq (by simpa using h0))
  have hrange := binExp_range s
  rcases lt_or_ge s.binExp 0 with hneg | hnonneg
  · have hcount := fractionShift_toNat s
    rw [rfrState_of_neg hneg]
    refine ⟨le_rfl, ?_, .inl rfl, ?_, ?_, fun _ => ?_, rfl, rfl⟩
    · show s.binExp = -((BitVec.ofNat 16 (-s.binExp).toNat).toNat : ℤ)
      omega
    · exact Nat.mul_ne_zero hm' (by positivity)
    · show s.cmant.toNat * 5 ^ (-s.binExp).toNat * 1 < 10 ^ ((BitVec.ofNat 16 (-s.binExp).toNat).toNat + digitRoom)
      rw [hcount, mul_one]
      exact product_lt_digitRoom _ _
    · exact odd_mul_five_pow_mod_ten (hodd.resolve_left (by omega)) (by omega)
  · rw [rfrState_of_nonneg hnonneg]
    refine ⟨hnonneg, rfl, .inr rfl, hm', ?_, fun hne => absurd rfl hne, rfl, rfl⟩
    show s.cmant.toNat * 2 ^ s.binExp.toNat < 10 ^ (0 + digitRoom)
    rw [Nat.zero_add]
    exact shifted_lt_digitRoom _ (by omega)

theorem rreState_phaseHolds (hp : s.phase = .defracted) (h : s.phaseHolds) : (rreState s).phaseHolds := by
  rw [State.phaseHolds, hp] at h
  obtain ⟨hnonneg, hdec, hexp, hacc, hroom, hfive, hndig, hdigit⟩ := h
  rcases lt_or_ge 0 s.binExp with hpos | hnonpos
  · have hp5n : s.p5n = 0 := hexp.resolve_left hpos.ne'
    rw [rreState_of_pos hpos]
    exact ⟨rfl, hdec, Nat.mul_ne_zero hacc (by positivity), hroom, fun hne => absurd hp5n hne, hndig, hdigit,
      .inl hp5n⟩
  · have hzero : s.binExp = 0 := le_antisymm hnonpos hnonneg
    rw [rreState_of_nonpos hnonpos]
    refine ⟨hzero, hdec, hacc, ?_, hfive, hndig, hdigit, .inr rfl⟩
    simpa [hzero] using hroom

/-! ### The digits -/

/-- What the phases REDUCED and DIGITS have in common (spec/44_exact_converter.md R187, R190). -/
structure State.DrawsDigits (s : State) : Prop where
  binExp : s.binExp = 0
  decExp : s.decExp = (s.ndig.toNat : ℤ) - s.p5n.toNat
  more : s.decExp ≤ 0 ∨ s.acc ≠ 0
  room : s.acc < 10 ^ (s.p5n.toNat + digitRoom - s.ndig.toNat)
  p5n : s.p5n.toNat ≤ 32768
  lshn : s.p5n = 0 ∨ s.lshn = 0

theorem drawsDigits_of_phaseHolds (hp : s.phase = .reduced ∨ s.phase = .digits) (h : s.phaseHolds) :
    s.DrawsDigits := by
  obtain hp | hp := hp <;> rw [State.phaseHolds, hp] at h
  · obtain ⟨hbin, hdec, hacc, hroom, -, hndig, -, hlshn⟩ := h
    have hrange := decExp_range s
    have hn : s.ndig.toNat = 0 := by rw [hndig]; rfl
    exact ⟨hbin, by omega, .inr hacc, by rwa [hn, Nat.sub_zero], by omega, hlshn⟩
  · obtain ⟨hbin, hdec, -, hmore, hroom, hp5n, -, -, hlshn⟩ := h
    exact ⟨hbin, hdec, hmore, hroom, hp5n, hlshn⟩

/-- While digits are left, neither DECEXP nor NDIG comes near its top (spec/44_exact_converter.md R199). -/
theorem State.DrawsDigits.counts_bounded (h : s.DrawsDigits) : s.decExp < 32767 ∧ s.ndig.toNat < 65535 := by
  obtain ⟨-, hdec, hmore, hroom, hp5n, -⟩ := h
  have hlt : s.ndig.toNat < s.p5n.toNat + digitRoom := by
    obtain hle | hacc := hmore
    · unfold digitRoom
      omega
    · by_contra hge
      rw [Nat.sub_eq_zero_of_le (not_lt.mp hge)] at hroom
      exact hacc (by simpa using hroom)
  unfold digitRoom at hlt
  omega

theorem dgtState_ndig_toNat (h : s.ndig.toNat < 65535) : (dgtState s).ndig.toNat = s.ndig.toNat + 1 := by
  rw [dgtState_ndig, BitVec.toNat_add]
  exact Nat.mod_eq_of_lt (by simpa using Nat.succ_lt_succ h)

theorem nextBeat_last_iff (s : State) : (nextBeat s).last = true ↔ 1 ≤ s.decExp + 1 ∧ s.acc / 10 = 0 := by
  rw [nextBeat_last, decide_eq_true_iff, not_or, not_not, not_le]
  exact and_congr_left' Int.lt_iff_add_one_le

theorem div_ten_lt {a k : Nat} (h : a < 10 ^ k) : a / 10 < 10 ^ (k - 1) := by
  cases k with
  | zero => simp_all
  | succ k => exact Nat.div_lt_of_lt_mul (by rw [Nat.add_sub_cancel, mul_comm, ← pow_succ]; exact h)

theorem digitRegister_flags (b : Beat) :
    (digitRegister b).getLsbD 6 = true ∧ (digitRegister b).getLsbD 5 = b.last := by
  obtain ⟨d, f, l⟩ := b
  revert d f l
  decide

theorem dgtState_phaseHolds (hp : s.phase = .reduced ∨ s.phase = .digits) (h : s.phaseHolds) :
    (dgtState s).phaseHolds := by
  have hdraw := drawsDigits_of_phaseHolds hp h
  obtain ⟨hdlt, hnlt⟩ := hdraw.counts_bounded
  obtain ⟨hbin, hdec, -, hroom, hp5n, hlshn⟩ := hdraw
  obtain ⟨hdv, hlastbit⟩ := digitRegister_flags (nextBeat s)
  have hdec' := dgtState_decExp hdlt
  have hndig' := dgtState_ndig_toNat hnlt
  have hdecndig : (dgtState s).decExp = ((dgtState s).ndig.toNat : ℤ) - s.p5n.toNat := by
    rw [hdec', hndig', hdec]
    push_cast
    ring
  cases hlast : (nextBeat s).last with
  | true =>
    obtain ⟨hone, hzero⟩ := (nextBeat_last_iff s).mp hlast
    simp only [State.phaseHolds, dgtState_phase, hlast, if_true, dgtState_binExp, dgtState_p5n, dgtState_lshn,
      dgtState_digit, dgtState_acc]
    exact ⟨hbin, hdecndig, hdec' ▸ hone, hzero, hdv, hlastbit.trans hlast, hlshn⟩
  | false =>
    have hnotlast : ¬(1 ≤ s.decExp + 1 ∧ s.acc / 10 = 0) := by rw [← nextBeat_last_iff, hlast]; decide
    have hndig_ne : (dgtState s).ndig ≠ 0 := by
      intro h0
      rw [h0] at hndig'
      exact absurd hndig'.symm (Nat.succ_ne_zero _)
    have hroom' : s.acc / 10 < 10 ^ (s.p5n.toNat + digitRoom - (dgtState s).ndig.toNat) := by
      rw [hndig', Nat.sub_add_eq]
      exact div_ten_lt hroom
    simp only [State.phaseHolds, dgtState_phase, hlast, Bool.false_eq_true, if_false, dgtState_binExp, dgtState_p5n,
      dgtState_lshn, dgtState_digit, dgtState_acc]
    exact ⟨hbin, hdecndig, hndig_ne, by omega, hroom', hp5n, hdv, hlastbit.trans hlast, hlshn⟩

/-! ### Every step -/

theorem ldcState_phaseHolds (d : Descriptor) (k : Kind) (s : State) : (ldcState d k s).phaseHolds := by
  rw [State.phaseHolds, ldcState_phase]
  cases k.converts <;> exact trivial

@[simp] theorem follow_converterInv (i : Instr) (u : UStep) (t : State) :
    (follow i u t).converterInv ↔ t.converterInv := by
  obtain ⟨_, _, h⟩ := follow_frame i u t
  rw [h]
  rfl

theorem ldcState_converterInv (d : Descriptor) (k : Kind) (h : s.converterInv) : (ldcState d k s).converterInv := by
  obtain ⟨-, hnz, hbeats⟩ := h
  exact ⟨ldcState_phaseHolds d k s, by simpa using hnz, by rwa [ldcState_dstream]⟩

theorem minState_converterInv (hm : s.cmant ≠ 0) (h : s.converterInv) : (minState s).converterInv := by
  obtain ⟨-, hnz, hbeats⟩ := h
  exact ⟨minState_phaseHolds hm, by simpa using hnz, by rwa [minState_dstream]⟩

theorem rfrState_converterInv (hp : s.phase = .minimized) (h : s.converterInv) : (rfrState s).converterInv := by
  obtain ⟨hphase, -, hbeats⟩ := h
  exact ⟨rfrState_phaseHolds hp hphase, rfrState_accnz s, by rwa [rfrState_dstream]⟩

theorem rreState_converterInv (hp : s.phase = .defracted) (h : s.converterInv) : (rreState s).converterInv := by
  obtain ⟨hphase, hnz, hbeats⟩ := h
  exact ⟨rreState_phaseHolds hp hphase, rreState_accnz hnz, by rwa [rreState_dstream]⟩

theorem dgtState_converterInv (hp : s.phase = .reduced ∨ s.phase = .digits) (h : s.converterInv) :
    (dgtState s).converterInv := by
  obtain ⟨hphase, -, hbeats⟩ := h
  refine ⟨dgtState_phaseHolds hp hphase, by rw [dgtState_accnz, dgtState_acc], ?_⟩
  rw [dgtState_dstream]
  intro b hb
  obtain hold | hnew := List.mem_append.mp hb
  · exact hbeats b hold
  · rw [List.mem_singleton.mp hnew, nextBeat_digit]
    exact Nat.mod_lt _ (by decide)

/-- A completed body leaves the invariant: the step commands by what they compute, the others by what they leave
alone. -/
theorem BodyOutcome.done_converterInv {i : Instr} {t : State} (h : BodyOutcome s i (.done t)) (hinv : s.converterInv) :
    t.converterInv := by
  cases h with
  | classified => exact hinv
  | cleared => exact hinv
  | loaded f d k => exact ldcState_converterInv d k hinv
  | minimized hp hm => exact minState_converterInv hm hinv
  | rfrDone hp => exact rfrState_converterInv hp hinv
  | rreDone hp => exact rreState_converterInv hp hinv
  | dgtDone hp => exact dgtState_converterInv hp hinv

theorem BodyOutcome.waiting_converterInv {i : Instr} {t : State} (h : BodyOutcome s i (.waiting t))
    (hinv : s.converterInv) : t.converterInv := by
  cases h <;> exact hinv

theorem exec_keeps_converterInv {i : Instr} {t : State} (h : exec i s = .next t) (hinv : s.converterInv) :
    t.converterInv := by
  obtain ⟨e, -, rfl⟩ | ⟨u, hu, rfl⟩ | hw := exec_cases h
  · exact hinv
  · exact (follow_converterInv ..).mpr (hu.done_converterInv hinv)
  · exact hw.waiting_converterInv hinv

theorem efuStep_keeps_converterInv {t : State} (h : efuStep s = .next t) (hinv : s.converterInv) :
    t.converterInv := by
  obtain ⟨-, rfl⟩ | ⟨-, i, -, -, hexec⟩ := efuStep_cases h
  · exact hinv
  · exact exec_keeps_converterInv hexec hinv

/-- A stored write leaves the phase's registers alone, or enters LOADED, which asks for nothing. -/
theorem writeReg_converterInv (v : Word) {r : Reg} (hr : r ≠ .cmd) (hinv : s.converterInv) :
    (writeReg s v r).converterInv := by
  have hw : performWrite s v r = writeReg s v r := if_neg hr
  rw [← hw]
  obtain ⟨rfl, -⟩ | ⟨m, h⟩ | ⟨b, h⟩ | ⟨x, h⟩ | ⟨x, h⟩ | ⟨x, h⟩ | ⟨x, h⟩ | ⟨x, h⟩ | ⟨-, h⟩ := performWrite_cases s v r
  · exact absurd rfl hr
  · rw [h]; exact ⟨trivial, hinv.2⟩
  · rw [h]; exact ⟨trivial, hinv.2⟩
  all_goals rw [h]; exact hinv

theorem respond_converterInv (s : State) (x : Response) : (s.respond x).converterInv ↔ s.converterInv := Iff.rfl

theorem raise_converterInv (s : State) (e : ErrCode) : (s.raise e).converterInv ↔ s.converterInv := Iff.rfl

/-- Taking a command over writes LASTOP, CW, BUSY and USTEP, of which the converter's registers know nothing. -/
theorem accept_converterInv (w : Word) : (s.accept w).converterInv ↔ s.converterInv := by
  obtain ⟨u, hu⟩ : ∃ u, s.accept w = { s with cw := w.setWidth 7, busy := true, ustep := u } := ⟨_, rfl⟩
  rw [hu]
  rfl

theorem WriteOutcome.converterInv {a : Offset} {v : Word} {t : State} (h : WriteOutcome s a v t)
    (hinv : s.converterInv) : t.converterInv := by
  cases h with
  | data r _ _ hr =>
    rw [respond_converterInv]
    exact writeReg_converterInv v (by rintro rfl; cases hr) hinv
  | command =>
    rw [respond_converterInv, accept_converterInv]
    exact hinv
  | word e =>
    rw [respond_converterInv, raise_converterInv]
    exact hinv
  | refused | cle => exact hinv

theorem resetEvent_converterInv (hinv : s.converterInv) : s.resetEvent.converterInv := ⟨trivial, rfl, hinv.2.2⟩

end

/-- Settles O53: of the events only the EFU's own step and a host write touch what the phase asks for. -/
theorem everyStepKeepsTheConverterInvariant : Obligations.EveryStepKeepsTheConverterInvariant := by
  intro s t hinv h
  have hinv' : (s.withAgenda s.agenda.tail).converterInv := hinv
  cases step_outcome h with
  | efu h => exact efuStep_keeps_converterInv h hinv'
  | write a v _ hw => exact hw.converterInv hinv'
  | reset => exact resetEvent_converterInv hinv'
  | read | engine | sink => exact hinv'

end Sys2Proof.Machine

/-! What a step can do to the stream and to PHASE (spec/20_memory.md R88, spec/44_exact_converter.md R193). -/

namespace Sys2Proof.Machine

section
variable {s t : State} {i j : Instr}

/-! ### A completed body -/

/-- Only DGT's body sends a beat, the next one. -/
theorem BodyOutcome.done_dstream (h : BodyOutcome s j (.done t)) :
    t.dstream = s.dstream ∨ (j = .dgt ∧ t.dstream = s.dstream ++ [nextBeat s]) := by
  cases h with
  | classified => exact .inl rfl
  | cleared => exact .inl rfl
  | loaded => exact .inl (ldcState_dstream ..)
  | minimized => exact .inl minState_dstream
  | rfrDone => exact .inl (rfrState_dstream s)
  | rreDone => exact .inl (rreState_dstream s)
  | dgtDone => exact .inr ⟨rfl, dgtState_dstream s⟩

/-- A row of the table of spec/44_exact_converter.md R193 that a command takes: LDC from every phase, the step commands
from the phases listed for them. -/
def PhaseRow (j : Instr) (p q : Phase) : Prop :=
  ((∃ f, j = .ldc f) ∧ (q = .loaded ∨ q = .bypass)) ∨
  (j = .min ∧ p = .loaded ∧ q = .minimized) ∨
  (j = .rfr ∧ p = .minimized ∧ q = .defracted) ∨
  (j = .rre ∧ p = .defracted ∧ q = .reduced) ∨
  (j = .dgt ∧ (p = .reduced ∨ p = .digits) ∧ (q = .digits ∨ q = .finished))

theorem BodyOutcome.done_phase (h : BodyOutcome s j (.done t)) : t.phase = s.phase ∨ PhaseRow j s.phase t.phase := by
  cases h with
  | classified => exact .inl rfl
  | cleared => exact .inl rfl
  | loaded f d k =>
    refine .inr (.inl ⟨⟨f, rfl⟩, ?_⟩)
    rw [ldcState_phase]
    cases k.converts <;> simp
  | minimized hp => exact .inr (.inr (.inl ⟨rfl, hp, minState_phase⟩))
  | rfrDone hp => exact .inr (.inr (.inr (.inl ⟨rfl, hp, rfrState_phase s⟩)))
  | rreDone hp => exact .inr (.inr (.inr (.inr (.inl ⟨rfl, hp, rreState_phase s⟩))))
  | dgtDone hp =>
    refine .inr (.inr (.inr (.inr (.inr ⟨rfl, hp, ?_⟩))))
    rw [dgtState_phase]
    cases (nextBeat s).last <;> simp

/-! ### A waiting body -/

/-- A body that waits changes what is in flight and nothing else. -/
theorem BodyOutcome.waiting_frame (h : BodyOutcome s j (.waiting t)) :
    t = { s with engReq := t.engReq, beat := t.beat } := by
  cases h <;> rfl

/-! ### A step of a command -/

theorem exec_dstream (h : exec i s = .next t) :
    t.dstream = s.dstream ∨ (bodyCommand i s.ustep = .dgt ∧ t.dstream = s.dstream ++ [nextBeat s]) := by
  obtain ⟨e, -, rfl⟩ | ⟨u, hu, rfl⟩ | hw := exec_cases h
  · exact .inl rfl
  · rw [follow_dstream]
    exact hu.done_dstream
  · rw [hw.waiting_frame]
    exact .inl rfl

theorem exec_phase (h : exec i s = .next t) :
    t.phase = s.phase ∨ PhaseRow (bodyCommand i s.ustep) s.phase t.phase := by
  obtain ⟨e, -, rfl⟩ | ⟨u, hu, rfl⟩ | hw := exec_cases h
  · exact .inl rfl
  · rw [follow_phase]
    exact hu.done_phase
  · rw [hw.waiting_frame]
    exact .inl rfl

/-! ### The EFU's own step -/

theorem efuStep_dstream (h : efuStep s = .next t) :
    t.dstream = s.dstream ∨
      (s.busy = true ∧ s.currentCommand? = some .dgt ∧ t.dstream = s.dstream ++ [nextBeat s]) := by
  obtain ⟨-, rfl⟩ | ⟨hb, i, -, hcur, hexec⟩ := efuStep_cases h
  · exact .inl rfl
  · rw [hcur, Option.some_inj]
    exact (exec_dstream hexec).imp_right fun hgrow => ⟨hb, hgrow⟩

theorem efuStep_phase (h : efuStep s = .next t) :
    t.phase = s.phase ∨ (s.busy = true ∧ ∃ j, s.currentCommand? = some j ∧ PhaseRow j s.phase t.phase) := by
  obtain ⟨-, rfl⟩ | ⟨hb, i, -, hcur, hexec⟩ := efuStep_cases h
  · exact .inl rfl
  · exact (exec_phase hexec).imp_right fun hrow => ⟨hb, _, hcur, hrow⟩

/-! ### A host write -/

@[simp] theorem writeReg_dstream (v : Word) (r : Reg) : (writeReg s v r).dstream = s.dstream := by
  rw [writeReg_frame]

theorem WriteOutcome.dstream {a : Offset} {v : Word} (h : WriteOutcome s a v t) : t.dstream = s.dstream := by
  cases h with
  | data => exact writeReg_dstream ..
  | refused | cle | word | command => rfl

/-- A converter input's offset is one of three (spec/10_state.md R46). -/
theorem input_offset {a : Offset} {r : Reg} (hl : locate a = .ok r) (hr : r ∈ [Reg.cmant0, .cmant1, .binexp]) :
    a ∈ [0x34#8, 0x38#8, 0x3C#8] := by
  simp only [List.mem_cons, List.not_mem_nil, or_false] at hr
  obtain rfl | rfl | rfl := hr
  · rw [locate_inj hl locate_cmant0]; decide
  · rw [locate_inj hl locate_cmant1]; decide
  · rw [locate_inj hl locate_binexp]; decide

theorem WriteOutcome.phase {a : Offset} {v : Word} (h : WriteOutcome s a v t) :
    t.phase = s.phase ∨ (a ∈ [0x34#8, 0x38#8, 0x3C#8] ∧ s.busy = false ∧ t.phase = .loaded) := by
  cases h with
  | data r hb hl =>
    rw [State.respond_phase, writeReg_phase]
    split
    · next hr => exact .inr ⟨input_offset hl hr, hb, rfl⟩
    · exact .inl rfl
  | refused | cle | word | command => exact .inl rfl

end

/-- Settles O59: of all events only the EFU's own step sends a beat, and of the bodies only DGT's. -/
theorem streamOnlyGrowsByDigitSteps : Obligations.StreamOnlyGrowsByDigitSteps := by
  intro s t h hne
  cases step_outcome h with
  | efu h =>
    obtain hsame | ⟨hb, hcur, hgrow⟩ := efuStep_dstream h
    · exact absurd hsame hne
    · exact ⟨hb, hcur, _, hgrow⟩
  | write a v _ hw => exact absurd hw.dstream hne
  | read | reset | engine | sink => exact absurd rfl hne

/-- Settles O58: of all events only the EFU's own step, a host write and a reset move PHASE, the first by a row of the
table. -/
theorem phaseMovesOnlyAlongTheTable : Obligations.PhaseMovesOnlyAlongTheTable := by
  intro s t h hne
  cases step_outcome h with
  | efu h =>
    obtain hsame | ⟨hb, j, hcur, hrow⟩ := efuStep_phase h
    · exact absurd hsame hne
    · have hcur' : s.currentCommand? = some j := hcur
      rw [hcur']
      obtain ⟨⟨f, rfl⟩, hq⟩ | ⟨rfl, hp, hq⟩ | ⟨rfl, hp, hq⟩ | ⟨rfl, hp, hq⟩ | ⟨rfl, hp, hq⟩ := hrow
      · exact .inl ⟨hb, ⟨f, rfl⟩, hq⟩
      · exact .inr (.inl ⟨hb, rfl, hp, hq⟩)
      · exact .inr (.inr (.inl ⟨hb, rfl, hp, hq⟩))
      · exact .inr (.inr (.inr (.inl ⟨hb, rfl, hp, hq⟩)))
      · exact .inr (.inr (.inr (.inr (.inl ⟨hb, rfl, hp, hq⟩))))
  | write a v he hw =>
    obtain hsame | ⟨ha, hb, hload⟩ := hw.phase
    · exact absurd hsame hne
    · exact .inr (.inr (.inr (.inr (.inr (.inl ⟨⟨a, v, he, ha⟩, hb, hload⟩)))))
  | reset he => exact .inr (.inr (.inr (.inr (.inr (.inr ⟨he, rfl⟩)))))
  | read | engine | sink => exact absurd rfl hne

end Sys2Proof.Machine

/-! The control invariant (spec/10_state.md R53, spec/60_exceptions.md R267): a busy EFU holds one of the twelve commands
and no error, and a CVT's sub-step fits its phase; and what errors this leaves to a CVT. -/

namespace Sys2Proof.Machine

section
variable {s t : State} {i j : Instr} {f : Fmt}

/-! ### A step keeps the invariant -/

theorem controlInv_of_idle (h : t.busy = false) : t.controlInv := by
  intro hb
  rw [h] at hb
  cases hb

/-- A completed body touches neither CW nor USTEP. -/
theorem BodyOutcome.done_cw (h : BodyOutcome s j (.done t)) : t.cw = s.cw := by
  cases h with
  | classified | cleared => rfl
  | loaded => unfold ldcState; split <;> simp
  | minimized => simp [minState]
  | rfrDone => unfold rfrState; split <;> simp
  | rreDone => unfold rreState; split <;> simp
  | dgtDone => simp [dgtState]

/-- A completed body leaves `ERR` alone, CLE's apart. -/
theorem BodyOutcome.done_err (h : BodyOutcome s j (.done t)) (hj : j ≠ .cle) : t.err = s.err := by
  cases h with
  | classified => rfl
  | cleared => exact absurd rfl hj
  | loaded d k => exact ldcState_err ..
  | minimized => exact minState_err s
  | rfrDone => exact rfrState_err s
  | rreDone => exact rreState_err s
  | dgtDone => exact dgtState_err s

theorem subCommand_wellFormed (f : Fmt) (hf : f.supported = true) (u : UStep) : (subCommand f u).wellFormed = true := by
  cases u with
  | sLdc => exact hf
  | _ => rfl

theorem not_classifies_subCommand (f : Fmt) (u : UStep) : ¬ classifies (subCommand f u) := by
  cases u <;> exact id

theorem subCommand_ne_cle (f : Fmt) (u : UStep) : subCommand f u ≠ .cle := by
  cases u <;> exact Instr.noConfusion

/-- After LDC a CVT goes on in LOADED only. -/
theorem afterLdc_ustepAgrees (h : t.phase = .loaded ∨ t.phase = .bypass) (hb : (afterLdc t).busy = true) :
    (afterLdc t).ustepAgrees := by
  unfold afterLdc at hb ⊢
  split at hb
  · cases hb
  · next hnb =>
    rw [if_neg hnb]
    exact h.resolve_right hnb

/-- After a digit step a CVT goes on in DIGITS only. -/
theorem afterDgt_ustepAgrees (hb : (afterDgt t).busy = true) : (afterDgt t).ustepAgrees := by
  unfold afterDgt at hb ⊢
  split at hb
  · next hd =>
    rw [if_pos hd]
    exact .inr hd
  · cases hb

/-- A CVT that goes on stands at a sub-step that fits the phase its body has left (spec/44_exact_converter.md R191). -/
theorem follow_cvt_ustepAgrees {u : UStep} (h : BodyOutcome s (subCommand f u) (.done t))
    (hb : (follow (.cvt f) u t).busy = true) : (follow (.cvt f) u t).ustepAgrees := by
  cases u with
  | sLdc =>
    refine afterLdc_ustepAgrees ?_ hb
    cases h with
    | classified hi => exact absurd hi (not_classifies_subCommand f .sLdc)
    | loaded d k =>
      rw [ldcState_phase]
      split <;> simp
  | sMin =>
    cases h with
    | classified hi => exact absurd hi (not_classifies_subCommand f .sMin)
    | minimized => exact minState_phase (s := s)
  | sRfr =>
    cases h with
    | classified hi => exact absurd hi (not_classifies_subCommand f .sRfr)
    | rfrDone => exact rfrState_phase s
  | sRre =>
    cases h with
    | classified hi => exact absurd hi (not_classifies_subCommand f .sRre)
    | rreDone => exact .inl (rreState_phase s)
  | sDgt => exact afterDgt_ustepAgrees hb

/-- Every command but a CVT ends when its body is completed. -/
theorem follow_of_not_cvt (h : ∀ f, i ≠ .cvt f) (u : UStep) (t : State) : follow i u t = t.finish := by
  cases i with
  | cvt f => exact absurd rfl (h f)
  | _ => rfl

theorem runs_congr (h : t.cw = s.cw) : t.runs i ↔ s.runs i := by rw [State.runs, State.runs, h]

theorem exec_keeps_controlInv (hi : s.runs i) (herr : s.err = .noError) (hinv : s.controlInv)
    (h : exec i s = .next t) : t.controlInv := by
  obtain ⟨e, -, rfl⟩ | ⟨u, hu, rfl⟩ | hw := exec_cases h
  · exact controlInv_of_idle rfl
  · by_cases hcvt : ∃ f, i = .cvt f
    · obtain ⟨f, rfl⟩ := hcvt
      have hne : bodyCommand (.cvt f) s.ustep ≠ .cle := subCommand_ne_cle f s.ustep
      have hcw : (follow (.cvt f) s.ustep u).cw = s.cw := (follow_cw ..).trans hu.done_cw
      exact fun hb => ⟨⟨_, (runs_congr hcw).mpr hi⟩, (follow_err ..).trans ((hu.done_err hne).trans herr),
        fun _ => follow_cvt_ustepAgrees hu hb⟩
    · rw [follow_of_not_cvt fun f hf => hcvt ⟨f, hf⟩]
      exact controlInv_of_idle rfl
  · rw [hw.waiting_frame]
    exact hinv

theorem efuStep_keeps_controlInv (hinv : s.controlInv) (h : efuStep s = .next t) : t.controlInv := by
  obtain ⟨-, rfl⟩ | ⟨hb, i, hi, -, hexec⟩ := efuStep_cases h
  · exact hinv
  · obtain ⟨⟨i', hruns⟩, herr, -⟩ := hinv hb
    obtain rfl : i' = i := Option.some.inj ((command?_of_runs hruns).symm.trans hi)
    exact exec_keeps_controlInv hruns herr hinv hexec

/-- The operation code in a command word tells a CVT (spec/30_encoding.md R102). -/
theorem opcode_cvt (h : i = .cvt f) : (encode i).extractLsb' 0 4 = 0xB#4 := by
  subst h
  cases f <;> rfl

/-- Taking over a legal word leaves a command latched, at its first sub-step if it is a CVT. -/
theorem accept_controlInv {w : Word} (hi : decode w = .command i) (herr : s.err = .noError) :
    (s.accept w).controlInv := by
  obtain ⟨hwf, rfl⟩ := encode_of_decode_command hi
  have hruns : (s.accept (encode i)).runs i := ⟨hwf, rfl⟩
  refine fun _ => ⟨⟨i, hruns⟩, herr, fun ⟨f, hf⟩ => ?_⟩
  have hu : (s.accept (encode i)).ustep = .sLdc := if_pos (opcode_cvt (runs_unique hruns hf))
  rw [State.ustepAgrees, hu]
  trivial

@[simp] theorem writeReg_busy (v : Word) (r : Reg) : (writeReg s v r).busy = s.busy := by
  rw [writeReg_frame]

theorem respond_controlInv (s : State) (x : Response) : (s.respond x).controlInv ↔ s.controlInv := Iff.rfl

theorem WriteOutcome.controlInv {a : Offset} {v : Word} (h : WriteOutcome s a v t) (hinv : s.controlInv) :
    t.controlInv := by
  cases h with
  | refused => exact hinv
  | cle => exact controlInv_of_idle rfl
  | word => exact controlInv_of_idle rfl
  | command i _ he _ hi =>
    rw [respond_controlInv]
    exact accept_controlInv hi he
  | data r hb => exact controlInv_of_idle ((writeReg_busy v r).trans hb)

end

/-- Settles O54: the EFU's own step leaves a CVT at the sub-step of the phase it enters, and a host write latches a legal
word of an EFU with no error recorded. -/
theorem everyStepKeepsTheControlInvariant : Obligations.EveryStepKeepsTheControlInvariant := by
  intro s t hinv h
  have hinv' : (s.withAgenda s.agenda.tail).controlInv := hinv
  cases step_outcome h with
  | efu h => exact efuStep_keeps_controlInv hinv' h
  | write a v _ hw => exact hw.controlInv hinv'
  | reset => exact controlInv_of_idle rfl
  | read | engine | sink => exact hinv'

/-! ### What the invariant rules out -/

/-- The EFU's own step always answers under the invariant, and a host write always does. -/
theorem efuStep_next {s : State} (hinv : s.controlInv) : ∃ t, efuStep s = .next t := by
  cases hb : s.busy with
  | false => exact ⟨s, efuStep_idle hb⟩
  | true =>
    obtain ⟨⟨i, hi⟩, -⟩ := hinv hb
    rw [efuStep_of_runs hb hi]
    exact exec_next i s

theorem writeEvent_next (s : State) (a : Offset) (v : Word) : ∃ t, writeEvent s a v = .next t := by
  obtain ⟨-, h⟩ | ⟨-, h⟩ := writeEvent_cases s a v <;> exact ⟨_, h⟩

/-- Settles O56: a busy EFU holds a command, which answers in every state, and every other event answers. -/
theorem noStepStopsTheMachine : Obligations.NoStepStopsTheMachine := by
  intro s hinv
  cases ha : s.agenda with
  | nil =>
    rw [step_of_agenda_nil ha]
    exact efuStep_next hinv
  | cons e es =>
    rw [step_of_agenda_cons ha]
    cases e with
    | efu => exact efuStep_next (s := s.withAgenda es) hinv
    | write a v => exact writeEvent_next _ a v
    | read | reset | engine | sink => exact ⟨_, rfl⟩

/-- The errors of a CVT's sub-step that fits its phase: the range check's in the first and the zero mantissa's in the
second. -/
theorem BodyOutcome.subCommand_raised {s : State} {f : Fmt} {u : UStep} {e : ErrCode}
    (h : BodyOutcome s (subCommand f u) (.raised e)) (hf : f.supported = true) (hp : listsPhase (subCommand f u) s.phase) :
    (e = .range ∧ u = .sLdc) ∨ (e = .precond ∧ u = .sMin) := by
  have hwf := subCommand_wellFormed f hf u
  generalize hj : subCommand f u = j at h hp hwf
  cases h with
  | noFormat hnf => exact absurd (hwf.symm.trans hnf) (by decide)
  | wrongPhase hnp => exact absurd hp hnp
  | kndRange => cases u <;> cases hj
  | ldcRange =>
    cases u with
    | sLdc => exact .inl ⟨rfl, rfl⟩
    | _ => cases hj
  | zeroMantissa =>
    cases u with
    | sMin => exact .inr ⟨rfl, rfl⟩
    | _ => cases hj

/-- A sub-step that agrees with its phase is one that the phase allows. -/
theorem listsPhase_of_ustepAgrees {s : State} (f : Fmt) (h : s.ustepAgrees) : listsPhase (subCommand f s.ustep) s.phase := by
  unfold State.ustepAgrees at h
  cases hu : s.ustep <;> rw [hu] at h <;> exact h

/-- Settles O22: the sub-step fits the phase and the format is supported, which leaves the range check of the first
sub-step and the zero mantissa of the second. -/
theorem cvtRaisesRangeOrPrecondOnly : Obligations.CvtRaisesRangeOrPrecondOnly := by
  intro f s t hinv hb hruns h
  obtain ⟨-, herr, hagree⟩ := hinv hb
  obtain ⟨e, hbody, rfl⟩ | ⟨u, hu, rfl⟩ | hw := exec_cases h
  · have hlisted := listsPhase_of_ustepAgrees f (hagree ⟨f, hruns⟩)
    exact .inr (hbody.subCommand_raised hruns.1 hlisted)
  · exact .inl ((follow_err ..).trans ((hu.done_err (subCommand_ne_cle f s.ustep)).trans herr))
  · rw [hw.waiting_frame]
    exact .inl herr

/-! ### The faulted state -/

section
variable {s t : State}

@[simp] theorem writeReg_err (v : Word) (r : Reg) : (writeReg s v r).err = s.err := by
  rw [writeReg_frame]

/-- In the faulted state a host write keeps the code, or is CLE's, which clears it (spec/60_exceptions.md R267). -/
theorem WriteOutcome.faulted_err {a : Offset} {v : Word} (h : WriteOutcome s a v t) (hf : s.err ≠ .noError) :
    t.err = s.err ∨ (t.err = .noError ∧ a = 0x10 ∧ v = cleWord) := by
  cases h with
  | refused => exact .inl rfl
  | cle _ ha hv => exact .inr ⟨rfl, ha, hv⟩
  | word _ _ he => exact absurd he hf
  | command _ _ he => exact absurd he hf
  | data r => exact .inl (writeReg_err v r)

/-- An EFU that is not busy is faulted no more and no less after any event, but after CLE's write or a reset. -/
theorem faulted_step_err (hb : s.busy = false) (hf : s.err ≠ .noError) (h : step s = .next t) :
    t.err = s.err ∨
      (t.err = .noError ∧ (s.agenda.head? = some (.write 0x10 cleWord) ∨ s.agenda.head? = some .reset)) := by
  cases step_outcome h with
  | efu h =>
    obtain rfl := Host.Outcome.next.inj ((efuStep_idle (s := s.withAgenda s.agenda.tail) hb).symm.trans h)
    exact .inl rfl
  | write a v he hw =>
    obtain hsame | ⟨hclear, rfl, rfl⟩ := hw.faulted_err hf
    · exact .inl hsame
    · exact .inr ⟨hclear, .inl he⟩
  | reset he => exact .inr ⟨rfl, .inr he⟩
  | read | engine | sink => exact .inl rfl

/-- In the faulted state no event makes the EFU busy. -/
theorem faulted_step_busy (hb : s.busy = false) (hf : s.err ≠ .noError) (h : step s = .next t) : t.busy = false := by
  cases step_outcome h with
  | efu h =>
    obtain rfl := Host.Outcome.next.inj ((efuStep_idle (s := s.withAgenda s.agenda.tail) hb).symm.trans h)
    exact hb
  | write a v he hw =>
    cases hw with
    | refused => exact hb
    | cle => rfl
    | word => rfl
    | command i _ he => exact absurd he hf
    | data r => exact (writeReg_busy v r).trans hb
  | reset => rfl
  | read | engine | sink => exact hb

end

/-- Settles O57: under the invariant a faulted EFU is not busy. -/
theorem firstErrorStaysUntilCleared : Obligations.FirstErrorStaysUntilCleared := by
  intro s t hinv h hf hne
  have hb : s.busy = false := by
    cases hb : s.busy with
    | false => rfl
    | true => exact absurd (hinv hb).2.1 hf
  exact (faulted_step_err hb hf h).resolve_left hne

/-- `ERR` shows in STATUS alone. -/
theorem readReg_withErr (s : State) (e : ErrCode) {r : Reg} (h : r ≠ .status) :
    readReg { s with err := e } r = readReg s r := by
  cases r with
  | status => exact absurd rfl h
  | _ => rfl

theorem wordAt_withErr (s : State) (e : ErrCode) {a : Offset} (h : a ≠ 0x14) :
    State.wordAt { s with err := e } a = s.wordAt a :=
  wordAt_congr fun _ hl => readReg_withErr s e fun hr => h (locate_inj (hr ▸ hl) locate_status)

theorem writeReg_withErr (s : State) (e : ErrCode) (v : Word) (r : Reg) :
    writeReg { s with err := e } v r = { writeReg s v r with err := e } := by
  cases r <;> rfl

/-- Away from CMD a write is refused or stored whatever `ERR` is (spec/20_memory.md R75). -/
theorem portWrite_withErr (s : State) (e : ErrCode) {a : Offset} (v : Word) (ha : a ≠ 0x10) :
    portWrite { s with err := e } a v = { portWrite s a v with err := e } := by
  have htarget : writeTarget { s with err := e } a v = writeTarget s a v := by
    unfold writeTarget
    cases hl : locate a with
    | error c => rfl
    | ok r =>
      have hcmd : r ≠ .cmd := fun hr => ha (locate_cmd_iff.mp (hr ▸ hl))
      simp [hcmd]
  unfold portWrite
  rw [htarget]
  cases hok : writeTarget s a v with
  | error c => rfl
  | ok r =>
    have hcmd : r ≠ .cmd := fun hr => ha (locate_cmd_iff.mp (hr ▸ (writeTarget_ok hok).1))
    simp only [performWrite, if_neg hcmd, writeReg_withErr]
    rfl

/-- Settles O25: reads and data writes do not look at `ERR`, and of the words only CLE's is taken. -/
theorem faultedStateAdmitsOnlyCle : Obligations.FaultedStateAdmitsOnlyCle := by
  intro s a v es hb hf
  refine ⟨?read, fun ha => ?answer, fun ha => ⟨?code, ?write⟩, fun hv => ?refused, ?cle, fun e t h => ⟨?busy, ?err⟩⟩
  case read => rw [portRead_eq_respond, State.respond_err]
  case answer =>
    rw [portRead_eq_respond, portRead_eq_respond, wordAt_withErr s .noError ha]
    rfl
  case code => rw [portWrite_frame s v ha]
  case write => exact (portWrite_withErr s .noError v ha).symm
  case refused => exact (commandWriteIsHandledInOrder s v).2.1 hb hf hv
  case cle =>
    have hcle := writeEvent_cle (s := { s with agenda := es }) hb
    rw [← hb] at hcle ⊢
    exact hcle
  case busy => exact faulted_step_busy (s := { s with agenda := e :: es }) hb hf h
  case err =>
    obtain hsame | ⟨-, hhead⟩ := faulted_step_err (s := { s with agenda := e :: es }) hb hf h
    · exact .inl hsame
    · exact .inr (hhead.imp Option.some.inj Option.some.inj)

end Sys2Proof.Machine

/-! What is in flight between the EFU, its engine and its sink (spec/10_state.md R53, spec/20_memory.md R87 to R89): what
a step does to a request and to a beat, and the hangs of a silent engine and a silent sink. -/

namespace Sys2Proof.Machine

section
variable {s t : State} {i j : Instr}

/-! ### What the invariant says of the current command -/

theorem inFlightInv_of_none (hr : t.engReq = none) (hb : t.beat = none) : t.inFlightInv :=
  ⟨fun _ h => absurd (hr.symm.trans h) (by simp), fun _ h => absurd (hb.symm.trans h) (by simp)⟩

theorem inFlight_none_of_idle (hinv : s.inFlightInv) (hb : s.busy = false) : s.engReq = none ∧ s.beat = none := by
  refine ⟨Option.eq_none_iff_forall_ne_some.mpr fun r hr => ?_, Option.eq_none_iff_forall_ne_some.mpr fun b hb' => ?_⟩
  · exact absurd ((hinv.1 r hr).1.symm.trans hb) (by decide)
  · exact absurd ((hinv.2 b hb').1.symm.trans hb) (by decide)

/-- A request in flight is the one that RFR, RRE or DGT waits for, in a phase listed for it. -/
theorem engReq_cases (hinv : s.inFlightInv) (hcur : s.currentCommand? = some j) {r : EngineRequest}
    (hr : s.engReq = some r) :
    (j = .rfr ∧ s.phase = .minimized ∧ r = .load s.cmant) ∨
    (j = .rre ∧ s.phase = .defracted ∧ 0 < s.binExp ∧ r = .shl (shiftAmount s)) ∨
    (j = .dgt ∧ (s.phase = .reduced ∨ s.phase = .digits) ∧ s.beat = none ∧ r = .divmod10) := by
  obtain ⟨-, hmay⟩ := hinv.1 r hr
  have hj {k : Instr} (hk : s.currentCommand? = some k) : j = k := Option.some.inj (hcur.symm.trans hk)
  cases r with
  | load v =>
    obtain ⟨hk, hp, rfl⟩ := hmay
    exact .inl ⟨hj hk, hp, rfl⟩
  | mulp5 n => exact hmay.elim
  | shl n =>
    obtain ⟨hk, hp, hb, rfl⟩ := hmay
    exact .inr (.inl ⟨hj hk, hp, hb, rfl⟩)
  | divmod10 =>
    obtain ⟨hk, hp, hb⟩ := hmay
    exact .inr (.inr ⟨hj hk, hp, hb, rfl⟩)

/-- A beat in flight is the next one of a digit step. -/
theorem beat_cases (hinv : s.inFlightInv) (hcur : s.currentCommand? = some j) {b : Beat} (hb : s.beat = some b) :
    j = .dgt ∧ (s.phase = .reduced ∨ s.phase = .digits) ∧ b = nextBeat s := by
  obtain ⟨-, hk, hp, hnext, -⟩ := hinv.2 b hb
  exact ⟨Option.some.inj (hcur.symm.trans hk), hp, hnext⟩

/-- Something is in flight of a well-formed step command only, in a phase listed for it. -/
theorem inFlight_none_or (hinv : s.inFlightInv) (hcur : s.currentCommand? = some j) :
    (s.engReq = none ∧ s.beat = none) ∨ (j ∈ [Instr.rfr, .rre, .dgt] ∧ listsPhase j s.phase) := by
  cases hr : s.engReq with
  | some r =>
    obtain ⟨rfl, hp, -⟩ | ⟨rfl, hp, -⟩ | ⟨rfl, hp, -⟩ := engReq_cases hinv hcur hr <;> exact .inr ⟨by decide, hp⟩
  | none =>
    cases hb : s.beat with
    | none => exact .inl ⟨rfl, rfl⟩
    | some b =>
      obtain ⟨rfl, hp, -⟩ := beat_cases hinv hcur hb
      exact .inr ⟨by decide, hp⟩

/-! ### A step of the current command -/

/-- What a step does to the beat and the request in flight: a held beat is held on or taken, a request stands or is
answered (spec/20_memory.md R87, R89). -/
structure FlightStep (s t : State) : Prop where
  inv : t.inFlightInv
  beat : ∀ b, s.beat = some b →
    (t.beat = some b ∧ t.dstream = s.dstream) ∨ (t.beat = none ∧ t.dstream = s.dstream ++ [b])
  request : ∀ r, s.engReq = some r → t.engReq = some r ∨ (t.engReq = none ∧ s.engineReady = true)

theorem flightStep_of_none (hs : s.engReq = none ∧ s.beat = none) (ht : t.engReq = none ∧ t.beat = none) :
    FlightStep s t where
  inv := inFlightInv_of_none ht.1 ht.2
  beat b hb := by rw [hs.2] at hb; cases hb
  request r hr := by rw [hs.1] at hr; cases hr

/-- Only a command of which nothing is in flight raises an error. -/
theorem BodyOutcome.raised_flight {e : ErrCode} (h : BodyOutcome s j (.raised e)) (hinv : s.inFlightInv)
    (hcur : s.currentCommand? = some j) : s.engReq = none ∧ s.beat = none := by
  obtain hnone | ⟨hj, hlisted⟩ := inFlight_none_or hinv hcur
  · exact hnone
  · cases h with
    | wrongPhase hnot => exact absurd hlisted hnot
    | noFormat hwf =>
      simp only [List.mem_cons, List.not_mem_nil, or_false] at hj
      obtain rfl | rfl | rfl := hj <;> cases hwf
    | kndRange | ldcRange | zeroMantissa => simp at hj

@[simp] theorem ldcState_engReq (d : Descriptor) (k : Kind) (s : State) : (ldcState d k s).engReq = s.engReq := by
  unfold ldcState
  split <;> simp

@[simp] theorem ldcState_beat (d : Descriptor) (k : Kind) (s : State) : (ldcState d k s).beat = s.beat := by
  unfold ldcState
  split <;> simp

@[simp] theorem rfrState_engReq (s : State) : (rfrState s).engReq = none := by
  unfold rfrState
  split <;> simp

@[simp] theorem rfrState_beat (s : State) : (rfrState s).beat = s.beat := by
  unfold rfrState
  split <;> simp

theorem rreState_engReq (s : State) : (rreState s).engReq = if 0 < s.binExp then none else s.engReq := by
  unfold rreState
  split <;> simp

@[simp] theorem rreState_beat (s : State) : (rreState s).beat = s.beat := by
  unfold rreState
  split <;> simp

@[simp] theorem dgtState_engReq (s : State) : (dgtState s).engReq = none := by simp [dgtState]
@[simp] theorem dgtState_beat (s : State) : (dgtState s).beat = none := by simp [dgtState]

/-- A completed body leaves nothing in flight: its request was answered, its beat joined the stream. -/
theorem BodyOutcome.done_flight (h : BodyOutcome s j (.done t)) (hinv : s.inFlightInv)
    (hcur : s.currentCommand? = some j) :
    (t.engReq = none ∧ t.beat = none) ∧ (∀ b, s.beat = some b → t.dstream = s.dstream ++ [b]) ∧
      (∀ r, s.engReq = some r → s.engineReady = true) := by
  have hreq {r : EngineRequest} (hr : s.engReq = some r) := engReq_cases hinv hcur hr
  have hbeat {b : Beat} (hb : s.beat = some b) := beat_cases hinv hcur hb
  have hnobeat (hne : j ≠ .dgt) : s.beat = none :=
    Option.eq_none_iff_forall_ne_some.mpr fun b hb => hne (hbeat hb).1
  have hidle (ht : t.engReq = s.engReq ∧ t.beat = s.beat) (hs : s.engReq = none ∧ s.beat = none) :
      (t.engReq = none ∧ t.beat = none) ∧ (∀ b, s.beat = some b → t.dstream = s.dstream ++ [b]) ∧
        (∀ r, s.engReq = some r → s.engineReady = true) := by
    rw [ht.1, ht.2, hs.1, hs.2]
    simp
  cases h with
  | classified hi =>
    refine hidle ⟨rfl, rfl⟩ ((inFlight_none_or hinv hcur).resolve_right fun ⟨hj, _⟩ => ?_)
    simp only [List.mem_cons, List.not_mem_nil, or_false] at hj
    obtain rfl | rfl | rfl := hj <;> exact hi
  | cleared => exact hidle ⟨rfl, rfl⟩ ((inFlight_none_or hinv hcur).resolve_right (by simp))
  | loaded =>
    exact hidle ⟨ldcState_engReq .., ldcState_beat ..⟩ ((inFlight_none_or hinv hcur).resolve_right (by simp))
  | minimized =>
    exact hidle ⟨by simp [minState], by simp [minState]⟩ ((inFlight_none_or hinv hcur).resolve_right (by simp))
  | rfrDone _ he =>
    have hnone := hnobeat (by decide)
    exact ⟨⟨rfrState_engReq s, (rfrState_beat s).trans hnone⟩, by simp [hnone], fun _ _ => he⟩
  | rreDone _ he =>
    have hnone := hnobeat (by decide)
    have hpos : ∀ r, s.engReq = some r → 0 < s.binExp := fun r hr => by
      obtain ⟨hj, -⟩ | ⟨-, -, hb, -⟩ | ⟨hj, -⟩ := hreq hr
      · cases hj
      · exact hb
      · cases hj
    refine ⟨⟨?_, (rreState_beat s).trans hnone⟩, by simp [hnone], fun r hr => he.resolve_left (not_le.mpr (hpos r hr))⟩
    rw [rreState_engReq]
    split
    · rfl
    · next hnp => exact Option.eq_none_iff_forall_ne_some.mpr fun r hr => hnp (hpos r hr)
  | dgtDone _ he =>
    refine ⟨⟨dgtState_engReq s, dgtState_beat s⟩, fun b hb => ?_, fun r hr => ?_⟩
    · rw [dgtState_dstream, (hbeat hb).2.2]
    · obtain ⟨hj, -⟩ | ⟨hj, -⟩ | ⟨-, -, hnone, -⟩ := hreq hr
      · cases hj
      · cases hj
      · exact he.resolve_left fun hne => hne hnone

/-- A request that the current command may show, with no beat held, and no other request shown before. -/
theorem flightStep_awaitEngine {r : EngineRequest} (hb : s.busy = true) (hnone : s.beat = none)
    (hmay : (s.awaitEngine r).mayAwait r) (hsame : ∀ r', s.engReq = some r' → r' = r) :
    FlightStep s (s.awaitEngine r) where
  inv := ⟨fun r' hr' => Option.some.inj hr' ▸ ⟨hb, hmay⟩, fun b hb' => absurd (hnone.symm.trans hb') (by simp)⟩
  beat b hb' := absurd (hnone.symm.trans hb') (by simp)
  request r' hr' := .inl (congrArg some (hsame r' hr').symm)

/-- A body that waits shows the request or the beat of its own step, the one that was in flight if there was one. -/
theorem BodyOutcome.waiting_flight (h : BodyOutcome s j (.waiting t)) (hinv : s.inFlightInv)
    (hb : s.busy = true) (hcur : s.currentCommand? = some j) : FlightStep s t := by
  have hreq {r : EngineRequest} (hr : s.engReq = some r) := engReq_cases hinv hcur hr
  have hbeat {b : Beat} (hb : s.beat = some b) := beat_cases hinv hcur hb
  have hnobeat (hne : j ≠ .dgt) : s.beat = none :=
    Option.eq_none_iff_forall_ne_some.mpr fun b hb => hne (hbeat hb).1
  cases h with
  | rfrWaits hp =>
    refine flightStep_awaitEngine hb (hnobeat (by decide)) ⟨hcur, hp, rfl⟩ fun r hr => ?_
    obtain ⟨-, -, hr⟩ | ⟨hj, -⟩ | ⟨hj, -⟩ := hreq hr
    · exact hr
    · cases hj
    · cases hj
  | rreWaits hp hpos =>
    refine flightStep_awaitEngine hb (hnobeat (by decide)) ⟨hcur, hp, hpos, rfl⟩ fun r hr => ?_
    obtain ⟨hj, -⟩ | ⟨-, -, -, hr⟩ | ⟨hj, -⟩ := hreq hr
    · cases hj
    · exact hr
    · cases hj
  | dgtWaitsEngine hp hnone =>
    refine flightStep_awaitEngine hb hnone ⟨hcur, hp, hnone⟩ fun r hr => ?_
    obtain ⟨hj, -⟩ | ⟨hj, -⟩ | ⟨-, -, -, hr⟩ := hreq hr
    · cases hj
    · cases hj
    · exact hr
  | dgtWaitsSink hp he =>
    refine ⟨⟨fun r hr => (nomatch hr), fun b hb' => ?_⟩, fun b hb' => ?_, fun r hr => ?_⟩
    · obtain rfl := Option.some.inj hb'
      exact ⟨hb, hcur, hp, rfl, rfl⟩
    · obtain ⟨-, -, rfl⟩ := hbeat hb'
      exact .inl ⟨rfl, rfl⟩
    · obtain ⟨hj, -⟩ | ⟨hj, -⟩ | ⟨-, -, hnone, -⟩ := hreq hr
      · cases hj
      · cases hj
      · exact .inr ⟨rfl, he.resolve_left fun hne => hne hnone⟩

theorem exec_flightStep (hinv : s.inFlightInv) (hb : s.busy = true)
    (hcur : s.currentCommand? = some (bodyCommand i s.ustep)) (h : exec i s = .next t) : FlightStep s t := by
  obtain ⟨e, he, rfl⟩ | ⟨u, hu, rfl⟩ | hw := exec_cases h
  · have hnone := he.raised_flight hinv hcur
    exact flightStep_of_none hnone hnone
  · obtain ⟨⟨hr, hbt⟩, hbeat, hready⟩ := hu.done_flight hinv hcur
    have hr' : (follow i s.ustep u).engReq = none := (follow_engReq ..).trans hr
    have hbt' : (follow i s.ustep u).beat = none := (follow_beat ..).trans hbt
    exact ⟨inFlightInv_of_none hr' hbt', fun b hb => .inr ⟨hbt', (follow_dstream ..).trans (hbeat b hb)⟩,
      fun r hr => .inr ⟨hr', hready r hr⟩⟩
  · exact hw.waiting_flight hinv hb hcur

theorem flightStep_refl (hinv : s.inFlightInv) : FlightStep s s :=
  ⟨hinv, fun _ hb => .inl ⟨hb, rfl⟩, fun _ hr => .inl hr⟩

theorem efuStep_flightStep (hinv : s.inFlightInv) (h : efuStep s = .next t) : FlightStep s t := by
  obtain ⟨-, rfl⟩ | ⟨hb, i, -, hcur, hexec⟩ := efuStep_cases h
  · exact flightStep_refl hinv
  · exact exec_flightStep hinv hb hcur hexec

@[simp] theorem writeReg_engReq (v : Word) (r : Reg) : (writeReg s v r).engReq = s.engReq := by
  rw [writeReg_frame]

@[simp] theorem writeReg_beat (v : Word) (r : Reg) : (writeReg s v r).beat = s.beat := by
  rw [writeReg_frame]

/-- A host write is refused, or finds nothing in flight and leaves nothing there. -/
theorem WriteOutcome.flightStep {a : Offset} {v : Word} (h : WriteOutcome s a v t) (hinv : s.inFlightInv) :
    FlightStep s t := by
  cases h with
  | refused =>
    obtain ⟨hi, hb, hr⟩ := flightStep_refl hinv
    exact ⟨hi, hb, hr⟩
  | cle hb | word _ hb | command _ hb =>
    have hnone := inFlight_none_of_idle hinv hb
    exact flightStep_of_none hnone hnone
  | data r hb =>
    have hnone := inFlight_none_of_idle hinv hb
    exact flightStep_of_none hnone ⟨(writeReg_engReq v r).trans hnone.1, (writeReg_beat v r).trans hnone.2⟩

end

/-- Settles O55: every event but a reset holds on to what is in flight until it is answered or taken. -/
theorem everyStepKeepsWhatIsInFlight : Obligations.EveryStepKeepsWhatIsInFlight := by
  intro s t hinv h
  have of_flightStep {t : State} (hstep : FlightStep (s.withAgenda s.agenda.tail) t) :
      t.inFlightInv ∧
      (∀ b, s.beat = some b → (t.beat = some b ∧ t.dstream = s.dstream) ∨
        (t.beat = none ∧ (t.dstream = s.dstream ++ [b] ∨ s.agenda.head? = some .reset))) ∧
      (∀ r, s.engReq = some r → t.engReq = some r ∨ (t.engReq = none ∧ (s.engineReady = true ∨
        s.agenda.head? = some .reset))) :=
    ⟨hstep.inv, fun b hb => (hstep.beat b hb).imp_right fun ⟨hn, hd⟩ => ⟨hn, .inl hd⟩,
      fun r hr => (hstep.request r hr).imp_right fun ⟨hn, he⟩ => ⟨hn, .inl he⟩⟩
  have hinv' : (s.withAgenda s.agenda.tail).inFlightInv := hinv
  have hrefl := flightStep_refl hinv'
  cases step_outcome h with
  | efu h => exact of_flightStep (efuStep_flightStep hinv' h)
  | write a v _ hw => exact of_flightStep (hw.flightStep hinv')
  | read | engine | sink => exact of_flightStep ⟨hrefl.inv, hrefl.beat, hrefl.request⟩
  | reset he =>
    exact ⟨inFlightInv_of_none rfl rfl, fun _ _ => .inr ⟨rfl, .inr he⟩, fun _ _ => .inr ⟨rfl, .inr he⟩⟩

/-! ### Hangs -/

/-- A state that steps to itself is the end of every longer run that steps into it. -/
theorem run_of_stuck {s t : State} (h : step s = .next t) (ht : step t = .next t) (n : Nat) :
    core.run (n + 1) s = .next t := by
  induction n generalizing s with
  | zero => rw [run_succ_of_step 0 h, run_zero]
  | succ n ih => rw [run_succ_of_step (n + 1) h, ih ht]

section
variable {s : State}

/-- With nothing on the agenda, a step at the body of `i` that waits leaves what the body waits in, whether the command
is `i` itself or a CVT. -/
theorem step_of_waiting {i : Instr} {u : UStep} {r : SubStep} {t : State} (hb : s.busy = true)
    (ha : s.agenda = []) (hrun : s.runsStep i u) (hi : exec i s = runSingle s r)
    (hcvt : ∀ f, s.ustep = u → exec (.cvt f) s = settle s (follow (.cvt f) u) r) (hr : r = .waiting t) :
    step s = .next t := by
  subst hr
  rw [step_of_agenda_nil ha]
  obtain hexec | ⟨f, hu, hexec⟩ := efuStep_of_runsStep hb hrun
  · rw [hexec, hi, runSingle_waiting]
  · rw [hexec, hcvt f hu, settle_waiting]

theorem step_rfr_silent (hb : s.busy = true) (ha : s.agenda = []) (he : s.engineReady = false)
    (hrun : s.runsStep .rfr .sRfr) (hp : s.phase = .minimized) :
    step s = .next (s.awaitEngine (.load s.cmant)) :=
  step_of_waiting hb ha hrun rfl exec_cvt_rfr (by simp [rfrBody, hp, he])

theorem step_rre_silent (hb : s.busy = true) (ha : s.agenda = []) (he : s.engineReady = false)
    (hrun : s.runsStep .rre .sRre) (hp : s.phase = .defracted) (hpos : 0 < s.binExp) :
    step s = .next (s.awaitEngine (.shl (shiftAmount s))) :=
  step_of_waiting hb ha hrun rfl exec_cvt_rre (by simp [rreBody, hp, he, hpos])

theorem step_dgt_silent (hb : s.busy = true) (ha : s.agenda = []) (he : s.engineReady = false) (hbeat : s.beat = none)
    (hrun : s.runsStep .dgt .sDgt) (hp : s.phase = .reduced ∨ s.phase = .digits) :
    step s = .next (s.awaitEngine .divmod10) := by
  have hph : ¬(s.phase ≠ .reduced ∧ s.phase ≠ .digits) := by tauto
  exact step_of_waiting hb ha hrun rfl exec_cvt_dgt (by simp [dgtBody, if_neg hph, hbeat, he])

theorem step_dgt_held (hb : s.busy = true) (ha : s.agenda = []) (he : s.engineReady = true ∨ s.beat ≠ none)
    (hk : s.sinkReady = false) (hrun : s.runsStep .dgt .sDgt) (hp : s.phase = .reduced ∨ s.phase = .digits) :
    step s = .next (s.awaitSink (nextBeat s)) := by
  have hph : ¬(s.phase ≠ .reduced ∧ s.phase ≠ .digits) := by tauto
  have heng : ¬(s.beat = none ∧ s.engineReady = false) := by
    rintro ⟨hnone, hsilent⟩
    exact he.elim (fun h => absurd (h.symm.trans hsilent) (by decide)) fun h => h hnone
  exact step_of_waiting hb ha hrun rfl exec_cvt_dgt (by simp [dgtBody, if_neg hph, if_neg heng, hk])

end

/-- Settles O37: the waiting step shows its request and changes nothing else, so it is the same step again. -/
theorem silentEngineHangsTheCommand : Obligations.SilentEngineHangsTheCommand := by
  intro s r hb ha he hbeat hcase n
  obtain ⟨hrun, hp, rfl⟩ | ⟨hrun, hp, hpos, rfl⟩ | ⟨hrun, hp, rfl⟩ := hcase
  · exact run_of_stuck (step_rfr_silent hb ha he hrun hp)
      (step_rfr_silent (s := s.awaitEngine _) hb ha he hrun hp) n
  · exact run_of_stuck (step_rre_silent hb ha he hrun hp hpos)
      (step_rre_silent (s := s.awaitEngine _) hb ha he hrun hp hpos) n
  · exact run_of_stuck (step_dgt_silent hb ha he hbeat hrun hp)
      (step_dgt_silent (s := s.awaitEngine _) hb ha he hbeat hrun hp) n

/-- Settles O38: the waiting step holds the next beat and changes nothing that the beat is made of. -/
theorem silentSinkHoldsTheBeat : Obligations.SilentSinkHoldsTheBeat := by
  intro s hb ha he hk hrun hp
  refine ⟨nextBeat s, nextBeat_digit s, nextBeat_frac s, nextBeat_last s, fun n => ?_⟩
  exact run_of_stuck (step_dgt_held hb ha he hk hrun hp)
    (step_dgt_held (s := s.awaitSink (nextBeat s)) hb ha (.inr (Option.some_ne_none _)) hk hrun hp) n

end Sys2Proof.Machine

/-! No command reads KIND or LASTOP (spec/10_state.md R29, R51): a step begun with other values there is the same step. -/

namespace Sys2Proof.Machine

/-- `s` with other values in KIND and LASTOP. -/
def State.withLabels (s : State) (k : Kind) (x : BitVec 4) : State := { s with kind := k, lastop := x }

/-- The second body is the first one begun with `k` and `x` in KIND and LASTOP: it ends in the same way, and KIND holds
what the body wrote there, or `k` where it wrote nothing. -/
inductive SameBut (s : State) (k : Kind) (x : BitVec 4) : SubStep → SubStep → Prop where
  | wrote (t : State) : SameBut s k x (.done t) (.done (t.withLabels t.kind x))
  | kept (t : State) (h : t.kind = s.kind) : SameBut s k x (.done t) (.done (t.withLabels k x))
  | raised (e : ErrCode) : SameBut s k x (.raised e) (.raised e)
  | waiting (t : State) (h : t.kind = s.kind) : SameBut s k x (.waiting t) (.waiting (t.withLabels k x))

section
variable {s t : State} {k : Kind} {x : BitVec 4}

/-! ### The bodies -/

theorem withFormat_sameBut {b b' : Descriptor → SubStep} (f : Fmt) (h : ∀ d, SameBut s k x (b d) (b' d)) :
    SameBut s k x (withFormat f b) (withFormat f b') := by
  cases f with
  | reserved => exact .raised .format
  | single => exact h descSingle
  | double => exact h descDouble
  | extended => exact h descExtended

theorem knd_sameBut (d : Descriptor) : SameBut s k x
    (if fieldsInRange d s.expf s.manf then .done (kndState d s) else .raised .range)
    (if fieldsInRange d (s.withLabels k x).expf (s.withLabels k x).manf then .done (kndState d (s.withLabels k x))
      else .raised .range) := by
  show SameBut s k x _ (if fieldsInRange d s.expf s.manf then _ else _)
  split
  · exact .wrote (kndState d s)
  · exact .raised .range

theorem ldcState_withLabels (d : Descriptor) (k' : Kind) :
    ldcState d k' (s.withLabels k x) = (ldcState d k' s).withLabels (ldcState d k' s).kind x := by
  unfold ldcState
  split <;> rfl

theorem ldcBody_sameBut (d : Descriptor) : SameBut s k x (ldcBody d s) (ldcBody d (s.withLabels k x)) := by
  have hfields : (s.withLabels k x).expf = s.expf ∧ (s.withLabels k x).manf = s.manf := ⟨rfl, rfl⟩
  rw [ldcBody, ldcBody, hfields.1, hfields.2]
  split
  · rw [ldcState_withLabels]
    exact .wrote _
  · exact .raised .range

theorem minBody_sameBut : SameBut s k x (minBody s) (minBody (s.withLabels k x)) := by
  show SameBut s k x (minBody s) (if s.phase ≠ .loaded then _ else if s.cmant = 0 then _ else _)
  unfold minBody
  split
  · exact .raised .seq
  · split
    · exact .raised .precond
    · exact .kept (minState s) rfl

theorem rfrState_withLabels : rfrState (s.withLabels k x) = (rfrState s).withLabels k x := by
  show (if s.binExp < 0 then _ else _) = _
  unfold rfrState
  split <;> rfl

@[simp] theorem rfrState_kind (s : State) : (rfrState s).kind = s.kind := by
  unfold rfrState
  split <;> simp

theorem rfrBody_sameBut : SameBut s k x (rfrBody s) (rfrBody (s.withLabels k x)) := by
  show SameBut s k x (rfrBody s) (if s.phase ≠ .minimized then _ else if s.engineReady = false then _ else _)
  unfold rfrBody
  split
  · exact .raised .seq
  · split
    · exact .waiting (s.awaitEngine _) rfl
    · rw [rfrState_withLabels]
      exact .kept (rfrState s) (rfrState_kind s)

theorem rreState_withLabels : rreState (s.withLabels k x) = (rreState s).withLabels k x := by
  show (if 0 < s.binExp then _ else _) = _
  unfold rreState
  split <;> rfl

@[simp] theorem rreState_kind (s : State) : (rreState s).kind = s.kind := by
  unfold rreState
  split <;> simp

theorem rreBody_sameBut : SameBut s k x (rreBody s) (rreBody (s.withLabels k x)) := by
  show SameBut s k x (rreBody s)
    (if s.phase ≠ .defracted then _ else if 0 < s.binExp ∧ s.engineReady = false then _ else _)
  unfold rreBody
  split
  · exact .raised .seq
  · split
    · exact .waiting (s.awaitEngine _) rfl
    · rw [rreState_withLabels]
      exact .kept (rreState s) (rreState_kind s)

theorem dgtBody_sameBut : SameBut s k x (dgtBody s) (dgtBody (s.withLabels k x)) := by
  show SameBut s k x (dgtBody s) (if s.phase ≠ .reduced ∧ s.phase ≠ .digits then _
    else if s.beat = none ∧ s.engineReady = false then _ else if s.sinkReady = false then _ else _)
  unfold dgtBody
  split
  · exact .raised .seq
  · split
    · exact .waiting (s.awaitEngine _) rfl
    · split
      · exact .waiting (s.awaitSink _) rfl
      · exact .kept (dgtState s) (by simp [dgtState])

/-! ### The step -/

theorem follow_withLabels (i : Instr) (u : UStep) (t : State) :
    follow i u (t.withLabels k x) = (follow i u t).withLabels k x := by
  unfold follow
  split
  · show (if t.phase = .bypass then _ else _) = _
    unfold afterLdc
    split <;> rfl
  · rfl
  · rfl
  · rfl
  · show (if t.phase = .digits then _ else _) = _
    unfold afterDgt
    split <;> rfl
  · rfl

@[simp] theorem follow_kind (i : Instr) (u : UStep) (t : State) : (follow i u t).kind = t.kind := by
  obtain ⟨_, _, h⟩ := follow_frame i u t
  rw [h]

/-- The claim of R29 and R51 of one step: begun in `s`, it leaves `t`, and with other values it leaves `t` with these,
but for a KIND that it wrote. -/
def IgnoresLabels (s t : State) (k : Kind) (x : BitVec 4) (r : Host.Outcome State Fault Refusal) : Prop :=
  ∃ t' : State, r = .next t' ∧ t' = { t with kind := t'.kind, lastop := x } ∧
    (t'.kind = t.kind ∨ (t'.kind = k ∧ t.kind = s.kind))

theorem settle_ignoresLabels {i : Instr} {u : UStep} {r r' : SubStep} (hr : SameBut s k x r r')
    (h : settle s (follow i u) r = .next t) : IgnoresLabels s t k x (settle (s.withLabels k x) (follow i u) r') := by
  cases hr with
  | wrote v =>
    obtain rfl := Host.Outcome.next.inj h
    exact ⟨_, rfl, by rw [follow_withLabels]; rfl, .inl (by rw [follow_kind, follow_kind]; rfl)⟩
  | kept v hk =>
    obtain rfl := Host.Outcome.next.inj h
    exact ⟨_, rfl, by rw [follow_withLabels]; rfl, .inr ⟨by rw [follow_kind]; rfl, by rw [follow_kind, hk]⟩⟩
  | raised e =>
    obtain rfl := Host.Outcome.next.inj h
    exact ⟨_, rfl, rfl, .inr ⟨rfl, rfl⟩⟩
  | waiting v hk =>
    obtain rfl := Host.Outcome.next.inj h
    exact ⟨_, rfl, rfl, .inr ⟨rfl, hk⟩⟩

theorem execCvt_ignoresLabels {f : Fmt} (h : execCvt f s = .next t) :
    IgnoresLabels s t k x (execCvt f (s.withLabels k x)) := by
  have hu : (s.withLabels k x).ustep = s.ustep := rfl
  unfold execCvt at h ⊢
  rw [hu]
  generalize s.ustep = u at h ⊢
  cases u with
  | sLdc => exact settle_ignoresLabels (i := .cvt f) (u := .sLdc) (withFormat_sameBut f fun d => ldcBody_sameBut d) h
  | sMin => exact settle_ignoresLabels (i := .cvt f) (u := .sMin) minBody_sameBut h
  | sRfr => exact settle_ignoresLabels (i := .cvt f) (u := .sRfr) rfrBody_sameBut h
  | sRre => exact settle_ignoresLabels (i := .cvt f) (u := .sRre) rreBody_sameBut h
  | sDgt => exact settle_ignoresLabels (i := .cvt f) (u := .sDgt) dgtBody_sameBut h

end

/-- Settles O23: no body looks at KIND or LASTOP, and what follows a body does not either. -/
theorem noCommandReadsKindOrLastop : Obligations.NoCommandReadsKindOrLastop := by
  intro i s t k x h
  have single {r r' : SubStep} (hr : SameBut s k x r r') (h : runSingle s r = .next t) :
      IgnoresLabels s t k x (runSingle (s.withLabels k x) r') := settle_ignoresLabels (i := .cle) (u := .sLdc) hr h
  show IgnoresLabels s t k x (exec i (s.withLabels k x))
  cases i with
  | xtr f o => exact single (withFormat_sameBut f fun d => .kept (xtrState d o s) rfl) h
  | spl f => exact single (withFormat_sameBut f fun d => .kept (splState d s) rfl) h
  | knd f => exact single (withFormat_sameBut f fun d => knd_sameBut d) h
  | cls f => exact single (withFormat_sameBut f fun d => .wrote (clsState d s)) h
  | cln f o => exact single (withFormat_sameBut f fun d => .wrote (clsState d (xtrState d o s))) h
  | ldc f => exact single (withFormat_sameBut f fun d => ldcBody_sameBut d) h
  | min => exact single minBody_sameBut h
  | rfr => exact single rfrBody_sameBut h
  | rre => exact single rreBody_sameBut h
  | dgt => exact single dgtBody_sameBut h
  | cvt f => exact execCvt_ignoresLabels h
  | cle => exact single (.kept s.clearErr rfl) h

end Sys2Proof.Machine

/-! How a command comes to run: events, the hand-over of a word, reset; and the steps that only raise an error
(spec/20_memory.md section 1, spec/30_encoding.md section 5, spec/70_reset_and_hazards.md section 1). -/

namespace Sys2Proof.Machine

/-! ### Events -/

theorem step_cons (s : State) (e : Event) (es : List Event) :
    step { s with agenda := e :: es } = perform { s with agenda := es } e := step_of_agenda_cons rfl

theorem step_nil (s : State) : step { s with agenda := [] } = efuStep { s with agenda := [] } := step_of_agenda_nil rfl

/-- Settles O5: the step takes the first event, and a write is the port's unless it is CLE's to an EFU that is not
busy. -/
theorem stepPerformsTheNextEvent : Obligations.StepPerformsTheNextEvent := by
  intro s es
  refine ⟨fun a => step_cons .., fun a v h => ?write, fun hb => ?cle, step_cons .., fun b => step_cons ..,
    fun b => step_cons .., fun hb => ?efu, fun hb => ?idle⟩
  case write =>
    have hncle : ¬(s.busy = false ∧ a = 0x10 ∧ v = cleWord) := by
      rintro ⟨hb, ha, hv⟩
      obtain hbusy | hne | hne := h
      · exact absurd (hb.symm.trans hbusy) (by decide)
      · exact hne ha
      · exact hne hv
    rw [step_cons]
    exact if_neg hncle
  case cle =>
    rw [step_cons]
    exact if_pos ⟨hb, rfl, rfl⟩
  case efu =>
    rw [step_cons]
    exact efuStep_idle (s := { s with agenda := es }) hb
  case idle =>
    rw [step_nil]
    exact efuStep_idle (s := { s with agenda := [] }) hb

/-- Settles O6: the EFU's own step reads the latched command back from CW. -/
theorem stepRunsTheLatchedCommand : Obligations.StepRunsTheLatchedCommand := by
  intro s i es hwf hb hcw
  refine ⟨?_, ?_⟩
  · rw [step_nil]
    exact efuStep_of_runs (s := { s with agenda := [] }) hb ⟨hwf, hcw⟩
  · rw [step_cons]
    exact efuStep_of_runs (s := { s with agenda := es }) hb ⟨hwf, hcw⟩

/-! ### The hand-over of a word -/

theorem withFetchWord_encode (s : State) (n : Nat) (i : Instr) :
    s.withFetchWord n (encode i).toNat = s.presentCommand (encode i) := by
  rw [State.withFetchWord, BitVec.ofNat_toNat, BitVec.setWidth_eq]

theorem presentCommand_of_ne_cle {i : Instr} {w : Word} (hd : decode w = .command i) (hne : i ≠ .cle) (s : State) :
    s.presentCommand w = ((s.clearErr.take w).accept w).withAgenda (.efu :: s.agenda) := by
  rw [State.presentCommand, hd]
  cases i with
  | cle => exact absurd rfl hne
  | _ => rfl

/-- An accepted word of a command is run by the EFU's next turn. -/
theorem step_of_accepted {i : Instr} (hwf : i.wellFormed = true) (s : State) (es : List Event) :
    step ((s.accept (encode i)).withAgenda (.efu :: es)) = exec i ((s.accept (encode i)).withAgenda es) := by
  have hruns : State.runs ((s.accept (encode i)).withAgenda es) i := ⟨hwf, rfl⟩
  rw [step_of_agenda_cons (s := (s.accept (encode i)).withAgenda (.efu :: es)) rfl]
  exact efuStep_of_runs rfl hruns

/-- CLE's CMD write to an EFU that is not busy is CLE's step in the state in which the word is latched. -/
theorem writeEvent_cle_eq_exec {s : State} (hb : s.busy = false) : writeEvent s 0x10 cleWord =
    exec .cle { s with lastop := 0xF, cw := 0x0F, busy := true, rsp := some ⟨0, false⟩ } := by
  rw [writeEvent_cle hb, exec_cle]
  rfl

/-- Settles O7: a word other than CLE's is latched with the EFU's turn first, and CLE's waits at the port. -/
theorem placedCommandRunsNext : Obligations.PlacedCommandRunsNext := by
  intro s n
  refine ⟨fun i hwf hne => ?latched, ?cle⟩
  case latched =>
    rw [withFetchWord_encode, presentCommand_of_ne_cle (decode_encode_wellFormed hwf) hne]
    exact step_of_accepted hwf (s.clearErr.take (encode i)) s.agenda
  case cle =>
    have hpresent : s.presentCommand (encode .cle) = s.finish.withAgenda (.write 0x10 cleWord :: s.agenda) := rfl
    rw [withFetchWord_encode, hpresent, step_of_agenda_cons (s := s.finish.withAgenda _) rfl]
    exact writeEvent_cle_eq_exec (s := s.finish.withAgenda s.agenda) rfl

/-! ### Reset -/

/-- Settles O51: a reset is performed as it stands on the agenda, whatever the EFU is doing. -/
theorem resetAbandonsTheCommand : Obligations.ResetAbandonsTheCommand := by
  intro s es h
  rw [step_of_agenda_cons h]
  rfl

/-- Settles O52: in IDLE no phase asks for anything, and an EFU that is not busy has nothing in flight. -/
theorem invariantsHoldAtReset : Obligations.InvariantsHoldAtReset :=
  ⟨⟨trivial, rfl, fun _ hb => absurd hb List.not_mem_nil⟩, controlInv_of_idle rfl, inFlightInv_of_none rfl rfl⟩

/-! ### Steps that only raise an error -/

/-- Settles O18: every command that takes a format looks for its descriptor first. -/
theorem reservedFormatRaisesFormat : Obligations.ReservedFormatRaisesFormat := by
  intro o s
  have hraise (body : Descriptor → SubStep) :
      runSingle s (withFormat .reserved body) = .next { s with err := .format, busy := false } := by
    rw [withFormat_reserved, runSingle_raised, State.raise]
  refine ⟨?xtr, ?spl, ?knd, ?cls, ?cln, ?ldc, fun hu => ?cvt⟩
  case xtr => rw [exec, execXtr, hraise]
  case spl => rw [exec, execSpl, hraise]
  case knd => rw [exec, execKnd, hraise]
  case cls => rw [exec, execCls, hraise]
  case cln => rw [exec, execCln, hraise]
  case ldc => rw [exec, execLdc, hraise]
  case cvt =>
    simp only [exec, execCvt, hu, withFormat_reserved, settle_raised, State.raise]

/-- Settles O19: every step command looks at the phase first. -/
theorem wrongPhaseRaisesSeq : Obligations.WrongPhaseRaisesSeq := by
  intro s
  refine ⟨fun hp => ?_, fun hp => ?_, fun hp => ?_, fun hr hd => ?_⟩
  · rw [exec, execMin, minBody, if_pos hp, runSingle_raised, State.raise]
  · rw [exec, execRfr, rfrBody, if_pos hp, runSingle_raised, State.raise]
  · rw [exec, execRre, rreBody, if_pos hp, runSingle_raised, State.raise]
  · rw [exec, execDgt, dgtBody, if_pos ⟨hr, hd⟩, runSingle_raised, State.raise]

/-! ### The engine's requests beyond the rules -/

/-- Settles O40: a count of 16 bits is sent without loss, and the product and the shift are exact for all of them. -/
theorem engineRequestChoicesBeyondTheRules : Obligations.EngineRequestChoicesBeyondTheRules := by
  intro a n
  have hcount : (n.setWidth 64).toNat = n.toNat := BitVec.toNat_setWidth_of_le (by decide)
  exact ⟨hcount, hcount, rfl, run_mulp5_acc a n, run_shl_acc a n⟩

end Sys2Proof.Machine

/-! The Bit Extractor and the Classifier: XTR, SPL, KND, CLS and CLN (spec/41_bit_extractor.md, spec/42_classifier.md). -/

namespace Sys2Proof.Machine

/-! ### What the commands leave -/

theorem exists_desc {f : Fmt} (h : f ≠ .reserved) : ∃ d, descOf f = some d := by
  cases f with
  | reserved => exact absurd rfl h
  | _ => exact ⟨_, rfl⟩

section
variable {f : Fmt} {d : Descriptor}

theorem exec_xtr (hd : descOf f = some d) (o : ByteOrder) (s : State) :
    exec (.xtr f o) s = .next (xtrState d o s).finish := by
  rw [exec, execXtr, withFormat_of_desc hd, runSingle_done]

theorem exec_spl (hd : descOf f = some d) (s : State) : exec (.spl f) s = .next (splState d s).finish := by
  rw [exec, execSpl, withFormat_of_desc hd, runSingle_done]

theorem exec_cls (hd : descOf f = some d) (s : State) : exec (.cls f) s = .next (clsState d s).finish := by
  rw [exec, execCls, withFormat_of_desc hd, runSingle_done]

theorem exec_cln (hd : descOf f = some d) (o : ByteOrder) (s : State) :
    exec (.cln f o) s = .next (clsState d (xtrState d o s)).finish := by
  rw [exec, execCln, withFormat_of_desc hd, runSingle_done]

/-- The fields that SPL leaves are in range, so KND completes on them. -/
theorem exec_knd_of_split (hd : descOf f = some d) (s : State) :
    exec (.knd f) (splState d s).finish = .next (clsState d s).finish := by
  have hexpf : (splState d s).finish.expf = exponentOf d s.bits := packSexp_expf ..
  have hin : fieldsInRange d (splState d s).finish.expf (splState d s).finish.manf = true := by
    rw [hexpf]
    exact fieldsInRange_split d s.bits
  rw [exec_knd_inRange hd hin]
  rfl

end

/-- Settles O13: the kind is that of the fields just split, which are in range. -/
theorem clsIsSplThenKnd : Obligations.ClsIsSplThenKnd := by
  intro f s hf
  obtain ⟨d, hd⟩ := exists_desc hf
  exact ⟨_, _, exec_spl hd s, exec_knd_of_split hd s, exec_cls hd s, rfl⟩

/-- Settles O14: CLN is CLS on the record that XTR has just written. -/
theorem clnIsXtrThenSplThenKnd : Obligations.ClnIsXtrThenSplThenKnd := by
  intro f o s hf
  obtain ⟨d, hd⟩ := exists_desc hf
  exact ⟨_, _, _, exec_xtr hd o s, exec_spl hd _, exec_knd_of_split hd _, exec_cln hd o s, rfl⟩

/-! ### XTR -/

theorem exists_desc_of_imageBytes {f : Fmt} {n : Nat}
    (hf : (f, n) ∈ [(Fmt.single, 4), (.double, 8), (.extended, 10)]) :
    ∃ d, descOf f = some d ∧ d.imageBytes = n ∧ n ≤ 10 := by
  simp only [List.mem_cons, Prod.mk.injEq, List.not_mem_nil, or_false] at hf
  obtain ⟨rfl, rfl⟩ | ⟨rfl, rfl⟩ | ⟨rfl, rfl⟩ := hf <;> exact ⟨_, rfl, rfl, by decide⟩

/-- Settles O9: the record has the image's bytes in the named order and nothing above them. -/
theorem xtrWritesTheRecord : Obligations.XtrWritesTheRecord := by
  intro f n o s hf
  obtain ⟨d, hd, rfl, h10⟩ := exists_desc_of_imageBytes hf
  refine ⟨extractRecord d o s.opb, exec_xtr hd o s, fun j hj => ?_, extractRecord_toNat_lt d o s.opb h10⟩
  rw [extractRecord_byte d o s.opb h10 hj]
  cases o <;> rfl

/-- An image and its reversal give the same record in the two orders. -/
theorem extractRecord_reversed {d : Descriptor} {x y : BitVec 128}
    (h : ∀ j, j < d.imageBytes → opbByte y (d.imageBytes - 1 - j) = opbByte x j) :
    extractRecord d .big y = extractRecord d .little x :=
  congrArg recordOfBytes (List.map_congr_left fun j hj => h j (List.mem_range.mp hj))

/-- Settles O10: byte `j` of both records is the same byte. -/
theorem xtrIsIndependentOfByteOrder : Obligations.XtrIsIndependentOfByteOrder := by
  intro f n s s' hf hbytes
  obtain ⟨d, hd, rfl, -⟩ := exists_desc_of_imageBytes hf
  refine ⟨extractRecord d .little s.opb, exec_xtr hd .little s, ?_⟩
  rw [exec_xtr hd, xtrState, extractRecord_reversed hbytes]
  rfl

/-- The record of a little-endian image is the image, cut to the format's bytes. -/
theorem extractRecord_little_getLsbD (d : Descriptor) (opb : BitVec 128) {i : Nat} (hi : i < 80) :
    (extractRecord d .little opb).getLsbD i = (decide (i < 8 * d.imageBytes) && opb.getLsbD i) := by
  rw [extractRecord, recordOfBytes_getLsbD _ _ hi, List.getElem?_map]
  by_cases hb : i < 8 * d.imageBytes
  · have hdiv : i / 8 < d.imageBytes := by omega
    have hsum : 8 * (i / 8) + i % 8 = i := by omega
    have hmod : i % 8 < 8 := Nat.mod_lt i (by decide)
    simp [List.getElem?_range hdiv, imageIndex, opbByte, hmod, hsum, hb]
  · have hdiv : d.imageBytes ≤ i / 8 := by omega
    simp [List.getElem?_eq_none (l := List.range d.imageBytes) (by simpa using hdiv), hb]

/-- A word of the record that lies in the image is the operand's word. -/
theorem wordOf_extractRecord_little (d : Descriptor) (opb : BitVec 128) {k : Nat}
    (hk : 32 * k + 32 ≤ 8 * d.imageBytes) (h80 : 32 * k + 32 ≤ 80) :
    wordOf (extractRecord d .little opb) k = wordOf opb k := by
  apply BitVec.eq_of_getLsbD_eq
  intro i hi
  have hin : 32 * k + i < 8 * d.imageBytes := by omega
  rw [wordOf, wordOf, BitVec.getLsbD_extractLsb', BitVec.getLsbD_extractLsb',
    extractRecord_little_getLsbD d opb (by omega)]
  simp [hin]

/-- The top word of the extended record is the operand's word cut to 16 bits. -/
theorem wordOf_extractRecord_extended (opb : BitVec 128) :
    wordOf (extractRecord descExtended .little opb) 2 = wordOf opb 2 &&& 0x0000FFFF := by
  apply BitVec.eq_of_getLsbD_eq
  intro i hi
  have hmask : (0x0000FFFF#32).getLsbD i = decide (i < 16) := lowMask_getLsbD 16 hi
  have hbytes : descExtended.imageBytes = 10 := rfl
  rw [BitVec.getLsbD_and, BitVec.ofNat_eq_ofNat, hmask, wordOf, wordOf, BitVec.getLsbD_extractLsb',
    BitVec.getLsbD_extractLsb']
  by_cases h16 : i < 16
  · rw [extractRecord_little_getLsbD _ _ (by omega), hbytes]
    have h80 : 32 * 2 + i < 8 * 10 := by omega
    simp [h16, h80]
  · simp [h16, BitVec.getLsbD_of_ge (extractRecord descExtended .little opb) (32 * 2 + i) (by omega)]

/-- Settles O49: the words read at BITS are those of the record, the words read at OPB those of the image. -/
theorem littleEndianRecordsAreTheOperandWords : Obligations.LittleEndianRecordsAreTheOperandWords := by
  intro s t
  refine ⟨fun h => ?single, fun h => ?double, fun h => ?extended⟩
  case single =>
    obtain rfl := Host.Outcome.next.inj ((exec_xtr rfl .little s).symm.trans h)
    exact congrArg some (wordOf_extractRecord_little descSingle s.opb (k := 0) (by decide) (by decide))
  case double =>
    obtain rfl := Host.Outcome.next.inj ((exec_xtr rfl .little s).symm.trans h)
    exact ⟨congrArg some (wordOf_extractRecord_little descDouble s.opb (k := 0) (by decide) (by decide)),
      congrArg some (wordOf_extractRecord_little descDouble s.opb (k := 1) (by decide) (by decide))⟩
  case extended =>
    obtain rfl := Host.Outcome.next.inj ((exec_xtr rfl .little s).symm.trans h)
    exact ⟨congrArg some (wordOf_extractRecord_little descExtended s.opb (k := 0) (by decide) (by decide)),
      congrArg some (wordOf_extractRecord_little descExtended s.opb (k := 1) (by decide) (by decide)),
      congrArg some (wordOf_extractRecord_extended s.opb)⟩

/-! ### SPL -/

/-- A number cut to `M + E + 1` bits is its top bit, its field of `E` bits and its field of `M` bits. -/
theorem mod_eq_fields (x M E : Nat) : x % 2 ^ (M + E + 1) =
    x / 2 ^ (M + E) % 2 * 2 ^ (M + E) + x / 2 ^ M % 2 ^ E * 2 ^ M + x % 2 ^ M := by
  rw [pow_succ, Nat.mod_mul, pow_add, Nat.mod_mul]
  ring

theorem signOf_eq (d : Descriptor) (bits : BitVec 80) :
    (if signOf d bits then 1 else 0) = bits.toNat / 2 ^ (d.totalBits - 1) % 2 := by
  rw [signOf, ← BitVec.testBit_toNat, Nat.testBit_eq_decide_div_mod_eq]
  have hlt := Nat.mod_lt (bits.toNat / 2 ^ (d.totalBits - 1)) (show 2 > 0 by decide)
  simp only [decide_eq_true_eq]
  split <;> omega

theorem exponentOf_toNat {d : Descriptor} (hE : d.exponentBits ≤ 15) (bits : BitVec 80) :
    (exponentOf d bits).toNat = bits.toNat / 2 ^ d.mantissaBits % 2 ^ d.exponentBits := by
  rw [exponentOf, BitVec.toNat_setWidth_of_le hE, BitVec.extractLsb'_toNat, Nat.shiftRight_eq_div_pow]

theorem mantissaOf_toNat {d : Descriptor} (hM : d.mantissaBits ≤ 64) (bits : BitVec 80) :
    (mantissaOf d bits).toNat = bits.toNat % 2 ^ d.mantissaBits := by
  rw [mantissaOf, BitVec.toNat_setWidth_of_le hM, BitVec.extractLsb'_toNat, Nat.shiftRight_zero]

theorem packSexp_toNat_mod (n : Bool) (e : BitVec 15) : (packSexp n e).toNat % 2 ^ 15 = e.toNat := by
  rw [packSexp, toNat_append_eq_add, Nat.mul_add_mod]
  exact Nat.mod_eq_of_lt e.isLt

theorem exists_desc_of_fields {f : Fmt} {T M E : Nat}
    (hf : (f, T, M, E) ∈ [(Fmt.single, 32, 23, 8), (.double, 64, 52, 11), (.extended, 80, 64, 15)]) :
    ∃ d, descOf f = some d ∧ d.totalBits = T ∧ d.mantissaBits = M ∧ d.exponentBits = E ∧ T = M + E + 1 ∧ M ≤ 64
      ∧ E ≤ 15 := by
  simp only [List.mem_cons, Prod.mk.injEq, List.not_mem_nil, or_false] at hf
  obtain ⟨rfl, rfl, rfl, rfl⟩ | ⟨rfl, rfl, rfl, rfl⟩ | ⟨rfl, rfl, rfl, rfl⟩ := hf <;>
    exact ⟨_, rfl, rfl, rfl, rfl, by decide, by decide, by decide⟩

/-- Settles O11: each field is a run of the record's bits, and the three runs lie side by side. -/
theorem splSplitsTheRecord : Obligations.SplSplitsTheRecord := by
  intro f T M E s hf
  obtain ⟨d, hd, rfl, rfl, rfl, hT, hM, hE⟩ := exists_desc_of_fields hf
  have hneg : (splState d s).finish.sexp.getLsbD 15 = signOf d s.bits := packSexp_neg ..
  have hexp : (splState d s).finish.sexp.toNat % 2 ^ 15 = s.bits.toNat / 2 ^ d.mantissaBits % 2 ^ d.exponentBits :=
    (packSexp_toNat_mod ..).trans (exponentOf_toNat hE s.bits)
  have hman : (splState d s).finish.manf.toNat = s.bits.toNat % 2 ^ d.mantissaBits := mantissaOf_toNat hM s.bits
  refine ⟨_, exec_spl hd s, rfl, ?_, ?_, ?_⟩
  · rw [hneg, hexp, hman, signOf_eq, hT, Nat.add_sub_cancel]
    exact mod_eq_fields ..
  · rw [hexp]
    exact Nat.mod_lt _ (by positivity)
  · rw [hman]
    exact Nat.mod_lt _ (by positivity)

/-! ### KND -/

/-- The top bit of a number of `k + 1` bits. -/
theorem getLsbD_top {m : BitVec 64} {k : Nat} (h : m.toNat < 2 ^ (k + 1)) :
    m.getLsbD k = decide (2 ^ k ≤ m.toNat) := by
  rw [← BitVec.testBit_toNat, Nat.testBit_eq_decide_div_mod_eq]
  have hdiv : m.toNat / 2 ^ k < 2 := Nat.div_lt_of_lt_mul (by rwa [pow_succ] at h)
  have hone : 1 ≤ m.toNat / 2 ^ k ↔ 2 ^ k ≤ m.toNat := by
    rw [Nat.le_div_iff_mul_le (by positivity), Nat.one_mul]
  rw [decide_eq_decide, ← hone]
  generalize m.toNat / 2 ^ k = q at hdiv
  omega

/-- The decision table for a format with an implied one (spec/42_classifier.md R134). -/
theorem kindOf_implied {d : Descriptor} {e : BitVec 15} {m : BitVec 64} {M : Nat} (hd : d.impliedOne = true)
    (hM : d.mantissaBits = M + 1) (hm : m.toNat < 2 ^ d.mantissaBits) : kindOf d e m =
      if e = 0 then (if m = 0 then .zero else .denormal)
      else if e.toNat = 2 ^ d.exponentBits - 1 then
        (if m = 0 then .infinity else if 2 ^ M ≤ m.toNat then .quietNaN else .signalingNaN)
      else .normal := by
  have htop : m.getLsbD (d.mantissaBits - 1) = decide (2 ^ M ≤ m.toNat) := by
    rw [hM] at hm ⊢
    exact getLsbD_top hm
  simp only [kindOf, hd, if_true, kindImplied, Descriptor.allOnes, htop, decide_eq_true_eq]

/-- The decision table for the extended format (spec/42_classifier.md R135). -/
theorem kindOf_extended (e : BitVec 15) (m : BitVec 64) : kindOf descExtended e m =
    if e = 0 then (if m = 0 then .zero else .denormal)
    else if e.toNat = 0x7FFF then
      (if m.toNat < 0x8000000000000000 then .signalingNaN
      else if m.toNat = 0x8000000000000000 then .infinity
      else if m.toNat < 0xC000000000000000 then .signalingNaN
      else if m.toNat = 0xC000000000000000 then .indefinite
      else .quietNaN)
    else if m.toNat < 0x8000000000000000 then .denormal
    else .normal := by
  have hlt := m.isLt
  have htop : m.getLsbD (descExtended.mantissaBits - 1) = decide (0x8000000000000000 ≤ m.toNat) :=
    getLsbD_top (k := 63) hlt
  have hnext : m.getLsbD (descExtended.mantissaBits - 2) = decide (m.toNat / 0x4000000000000000 % 2 = 1) :=
    (BitVec.testBit_toNat m).symm.trans Nat.testBit_eq_decide_div_mod_eq
  have hlow : m.extractLsb' 0 (descExtended.mantissaBits - 2) = 0 ↔ m.toNat % 0x4000000000000000 = 0 := by
    rw [← BitVec.toNat_inj, BitVec.extractLsb'_toNat, Nat.shiftRight_zero]
    rfl
  have hones : descExtended.allOnes = 0x7FFF := rfl
  have himp : descExtended.impliedOne = false := rfl
  simp only [kindOf, kindExplicit, hones, himp, htop, hnext, hlow, decide_eq_false_iff_not, Bool.false_eq_true,
    if_false]
  split_ifs <;> first | rfl | omega

/-- Settles O12: KND writes the kind of the decision tables, once the range check holds. -/
theorem kndDecidesByTheTables : Obligations.KndDecidesByTheTables := by
  refine ⟨fun f M E s hf hm he => ?implied, fun s => ?extended⟩
  case implied =>
    obtain ⟨d, hd, himp, rfl, rfl, hpos⟩ : ∃ d, descOf f = some d ∧ d.impliedOne = true ∧ d.mantissaBits = M ∧
        d.exponentBits = E ∧ 0 < M := by
      simp only [List.mem_cons, Prod.mk.injEq, List.not_mem_nil, or_false] at hf
      obtain ⟨rfl, rfl, rfl⟩ | ⟨rfl, rfl, rfl⟩ := hf <;> exact ⟨_, rfl, rfl, rfl, rfl, by decide⟩
    have hin : fieldsInRange d s.expf s.manf = true := by simp [fieldsInRange, hm, he]
    rw [exec_knd_inRange hd hin, kndState, kindOf_implied himp (Nat.sub_add_cancel hpos).symm hm]
    rfl
  case extended =>
    rw [exec_knd_inRange (d := descExtended) rfl (fieldsInRange_extended _ _), kndState, kindOf_extended]
    rfl

/-- Fields of each kind, for each format that has it: `SEXP` and `MANF`. -/
def sampleFields : Fmt → Kind → BitVec 15 × BitVec 64
  | _, .zero => (0, 0)
  | _, .denormal => (0, 1)
  | .extended, .normal => (1, 0x8000000000000000)
  | _, .normal => (1, 0)
  | .extended, .infinity => (0x7FFF, 0x8000000000000000)
  | .double, .infinity => (0x7FF, 0)
  | _, .infinity => (0xFF, 0)
  | .extended, .quietNaN => (0x7FFF, 0xC000000000000001)
  | .double, .quietNaN => (0x7FF, 0x8000000000000)
  | _, .quietNaN => (0xFF, 0x400000)
  | .extended, .signalingNaN => (0x7FFF, 1)
  | .double, .signalingNaN => (0x7FF, 1)
  | _, .signalingNaN => (0xFF, 1)
  | _, .indefinite => (0x7FFF, 0xC000000000000000)

theorem kindOf_sampleFields {f : Fmt} {d : Descriptor} {k : Kind} (hd : descOf f = some d)
    (hk : k = .indefinite → f = .extended) :
    fieldsInRange d (sampleFields f k).1 (sampleFields f k).2 = true ∧
      kindOf d (sampleFields f k).1 (sampleFields f k).2 = k := by
  cases f with
  | reserved => cases hd
  | extended =>
    obtain rfl := Option.some.inj hd
    cases k <;> decide
  | single | double =>
    obtain rfl := Option.some.inj hd
    cases k with
    | indefinite => cases hk rfl
    | _ => decide

theorem kindOf_implied_ne_indefinite {d : Descriptor} (hd : d.impliedOne = true) (e : BitVec 15) (m : BitVec 64) :
    kindOf d e m ≠ .indefinite := by
  simp only [kindOf, hd, if_true, kindImplied]
  split_ifs <;> exact Kind.noConfusion

/-- Settles O16: sample fields reach every kind but Indefinite of single and double, which the table for an implied one
does not give. -/
theorem indefiniteArisesForExtendedOnly : Obligations.IndefiniteArisesForExtendedOnly := by
  intro f k hf
  obtain ⟨d, hd⟩ := exists_desc hf
  constructor
  · rintro ⟨s, t, h, herr, rfl⟩ hind
    by_contra hne
    have himp : d.impliedOne = true := by
      cases f with
      | extended => exact absurd rfl hne
      | reserved => cases hd
      | single | double => obtain rfl := Option.some.inj hd; rfl
    cases hin : fieldsInRange d s.expf s.manf with
    | false =>
      obtain rfl := Host.Outcome.next.inj ((exec_knd_outOfRange hd hin).symm.trans h)
      cases herr
    | true =>
      obtain rfl := Host.Outcome.next.inj ((exec_knd_inRange hd hin).symm.trans h)
      exact kindOf_implied_ne_indefinite himp _ _ hind
  · intro hk
    obtain ⟨hin, hkind⟩ := kindOf_sampleFields hd hk
    let s : State := { State.reset with sexp := packSexp false (sampleFields f k).1, manf := (sampleFields f k).2 }
    have hexpf : s.expf = (sampleFields f k).1 := packSexp_expf ..
    rw [← hexpf] at hin hkind
    exact ⟨s, _, exec_knd_inRange hd hin, rfl, hkind⟩

/-! ### What the host sees of a classification command -/

/-- An offset that is none of some registers' holds none of them. -/
theorem not_mem_of_offset {a : Offset} {r : Reg} {l : List (Offset × Reg)} (hl : ∀ p ∈ l, locate p.1 = .ok p.2)
    (ha : a ∉ l.map Prod.fst) (hr : locate a = .ok r) : r ∉ l.map Prod.snd := by
  intro hmem
  obtain ⟨p, hp, rfl⟩ := List.mem_map.mp hmem
  exact ha (List.mem_map.mpr ⟨p, hp, (locate_inj hr (hl p hp)).symm⟩)

section
variable {f : Fmt} {s t : State}

/-- A step that checks the format alone completes, or raises. -/
theorem formatOnly_cases {w : Descriptor → State} (h : runSingle s (withFormat f fun d => .done (w d)) = .next t) :
    (∃ d, t = (w d).finish) ∨ t = s.raise .format := by
  obtain ⟨d, -, hd⟩ | ⟨-, hr⟩ := withFormat_cases f fun d => .done (w d)
  · exact .inl ⟨d, (Host.Outcome.next.inj (by rw [hd] at h; exact h)).symm⟩
  · exact .inr (Host.Outcome.next.inj (by rw [hr] at h; exact h)).symm

theorem execKnd_cases (h : execKnd f s = .next t) : (∃ k, t = (s.writeKind k).finish) ∨ ∃ e, t = s.raise e := by
  unfold execKnd at h
  obtain ⟨d, -, hd⟩ | ⟨-, hr⟩ := withFormat_cases f fun d =>
    if fieldsInRange d s.expf s.manf then .done (kndState d s) else .raised .range
  · rw [hd] at h
    split at h
    · exact .inl ⟨_, (Host.Outcome.next.inj h).symm⟩
    · exact .inr ⟨.range, (Host.Outcome.next.inj h).symm⟩
  · rw [hr] at h
    exact .inr ⟨.format, (Host.Outcome.next.inj h).symm⟩

theorem readReg_finish (s : State) {r : Reg} (h : r ≠ .status) : readReg s.finish r = readReg s r := by
  cases r with
  | status => exact absurd rfl h
  | _ => rfl

theorem readReg_raise (s : State) (e : ErrCode) {r : Reg} (h : r ≠ .status) :
    readReg (s.raise e) r = readReg s r := by
  cases r with
  | status => exact absurd rfl h
  | _ => rfl

theorem readReg_writeBits (s : State) (b : BitVec 80) {r : Reg} (h : r ∉ [Reg.bits0, .bits1, .bits2]) :
    readReg (s.writeBits b) r = readReg s r := by
  cases r with
  | bits0 | bits1 | bits2 => simp at h
  | _ => rfl

theorem readReg_writeFields (s : State) (x : BitVec 16) (m : BitVec 64) {r : Reg}
    (h : r ∉ [Reg.manf0, .manf1, .sexp]) : readReg (s.writeFields x m) r = readReg s r := by
  cases r with
  | manf0 | manf1 | sexp => simp at h
  | _ => rfl

theorem readReg_writeKind (s : State) (k : Kind) {r : Reg} (h : r ≠ .kind) :
    readReg (s.writeKind k) r = readReg s r := by
  cases r with
  | kind => exact absurd rfl h
  | _ => rfl

end

/-- Settles O15: XTR writes BITS, SPL the three fields, KND KIND, CLS and CLN what their parts write, and an error shows
in STATUS. -/
theorem classificationCommandsLeaveOtherOffsets : Obligations.ClassificationCommandsLeaveOtherOffsets := by
  intro f o s t a
  refine ⟨fun h ha => wordAt_congr fun r hl => ?xtr, fun h ha => wordAt_congr fun r hl => ?spl,
    fun h ha => wordAt_congr fun r hl => ?knd, fun h ha => wordAt_congr fun r hl => ?cls,
    fun h ha => wordAt_congr fun r hl => ?cln⟩
  case xtr =>
    have hr := not_mem_of_offset (l := [(0x14, .status), (0x18, .bits0), (0x1C, .bits1), (0x20, .bits2)])
      (by decide) ha hl
    simp only [List.map, List.mem_cons, not_or] at hr
    obtain ⟨hst, hbits⟩ := hr
    obtain ⟨d, rfl⟩ | rfl := formatOnly_cases h
    · rw [readReg_finish _ hst, xtrState, readReg_writeBits _ _ (by simpa using hbits)]
    · exact readReg_raise s _ hst
  case spl =>
    have hr := not_mem_of_offset (l := [(0x14, .status), (0x24, .manf0), (0x28, .manf1), (0x2C, .sexp)])
      (by decide) ha hl
    simp only [List.map, List.mem_cons, not_or] at hr
    obtain ⟨hst, hfields⟩ := hr
    obtain ⟨d, rfl⟩ | rfl := formatOnly_cases h
    · rw [readReg_finish _ hst, splState, readReg_writeFields _ _ _ (by simpa using hfields)]
    · exact readReg_raise s _ hst
  case knd =>
    have hr := not_mem_of_offset (l := [(0x14, .status), (0x30, .kind)]) (by decide) ha hl
    simp only [List.map, List.mem_cons, not_or] at hr
    obtain ⟨hst, hkind, -⟩ := hr
    obtain ⟨k, rfl⟩ | ⟨e, rfl⟩ := execKnd_cases h
    · rw [readReg_finish _ hst, readReg_writeKind _ _ hkind]
    · exact readReg_raise s _ hst
  case cls =>
    have hr := not_mem_of_offset
      (l := [(0x14, .status), (0x24, .manf0), (0x28, .manf1), (0x2C, .sexp), (0x30, .kind)]) (by decide) ha hl
    simp only [List.map, List.mem_cons, not_or] at hr
    obtain ⟨hst, hm0, hm1, hsexp, hkind, -⟩ := hr
    obtain ⟨d, rfl⟩ | rfl := formatOnly_cases h
    · rw [readReg_finish _ hst, clsState, kndState, readReg_writeKind _ _ hkind, splState,
        readReg_writeFields _ _ _ (by simp [hm0, hm1, hsexp])]
    · exact readReg_raise s _ hst
  case cln =>
    have hr := not_mem_of_offset
      (l := [(0x14, .status), (0x18, .bits0), (0x1C, .bits1), (0x20, .bits2), (0x24, .manf0), (0x28, .manf1),
        (0x2C, .sexp), (0x30, .kind)]) (by decide) ha hl
    simp only [List.map, List.mem_cons, not_or] at hr
    obtain ⟨hst, hb0, hb1, hb2, hm0, hm1, hsexp, hkind, -⟩ := hr
    obtain ⟨d, rfl⟩ | rfl := formatOnly_cases h
    · rw [readReg_finish _ hst, clsState, kndState, readReg_writeKind _ _ hkind, splState,
        readReg_writeFields _ _ _ (by simp [hm0, hm1, hsexp]), xtrState,
        readReg_writeBits _ _ (by simp [hb0, hb1, hb2])]
    · exact readReg_raise s _ hst

end Sys2Proof.Machine

/-! What the registers read (spec/10_state.md R25 to R38, R56, spec/20_memory.md R80, R81), and the grouping of the host
formatter (spec/46_host_formatter.md R233). -/

namespace Sys2Proof.Machine

/-! ### Words and numbers -/

theorem wordOf_toNat {n : Nat} (x : BitVec n) (k : Nat) : (wordOf x k).toNat = x.toNat / 2 ^ (32 * k) % 2 ^ 32 := by
  rw [wordOf, BitVec.extractLsb'_toNat, Nat.shiftRight_eq_div_pow]

/-- The words of OPB, the least significant first, form its number (spec/20_memory.md R80). -/
theorem toNat_eq_four_words (x : BitVec 128) : x.toNat = (wordOf x 0).toNat + 2 ^ 32 * (wordOf x 1).toNat
    + 2 ^ 64 * (wordOf x 2).toNat + 2 ^ 96 * (wordOf x 3).toNat := by
  have hlt := x.isLt
  simp only [wordOf_toNat, Nat.reduceMul, Nat.reducePow] at hlt ⊢
  omega

theorem toNat_eq_three_words (x : BitVec 80) : x.toNat = (wordOf x 0).toNat + 2 ^ 32 * (wordOf x 1).toNat
    + 2 ^ 64 * (wordOf x 2).toNat := by
  have hlt := x.isLt
  simp only [wordOf_toNat, Nat.reduceMul, Nat.reducePow] at hlt ⊢
  omega

theorem toNat_eq_two_words (x : BitVec 64) : x.toNat = (wordOf x 0).toNat + 2 ^ 32 * (wordOf x 1).toNat := by
  have hlt := x.isLt
  simp only [wordOf_toNat, Nat.reduceMul, Nat.reducePow] at hlt ⊢
  omega

/-- Byte `j` of word `k` is byte `4k + j` of the register (spec/20_memory.md R81). -/
theorem byte_of_wordOf {n : Nat} (x : BitVec n) (k : Nat) {j : Nat} (hj : j < 4) :
    (wordOf x k).extractLsb' (8 * j) 8 = x.extractLsb' (8 * (4 * k + j)) 8 := by
  apply BitVec.eq_of_getLsbD_eq
  intro i hi
  have hin : 8 * j + i < 32 := by omega
  have hsum : 32 * k + (8 * j + i) = 8 * (4 * k + j) + i := by omega
  simp [wordOf, hi, hin, hsum]

/-- SEXP is the exponent field with the sign above it (spec/10_state.md R28). -/
theorem sexp_toNat (s : State) : s.sexp.toNat = s.expf.toNat + if s.neg then 2 ^ 15 else 0 := by
  have hexpf : s.expf.toNat = s.sexp.toNat % 2 ^ 15 := by
    rw [State.expf, BitVec.extractLsb'_toNat, Nat.shiftRight_zero]
  have hneg : s.neg = decide (s.sexp.toNat / 2 ^ 15 % 2 = 1) :=
    (BitVec.testBit_toNat s.sexp).symm.trans Nat.testBit_eq_decide_div_mod_eq
  have hlt := s.sexp.isLt
  rw [hexpf, hneg]
  split
  · next h => rw [decide_eq_true_eq] at h; omega
  · next h => rw [decide_eq_true_eq] at h; omega

theorem Kind.code_le (k : Kind) : k.code.toNat ≤ 6 := by cases k <;> decide

/-! ### The register map, word by word -/

/-- Every word of the map but CMD's is answered with its register's value. -/
theorem read_word (s : State) {k : Nat} (hk : k < 23) (h4 : k ≠ 4) :
    ∃ w, s.wordAt (BitVec.ofNat 8 (4 * k)) = some w ∧
      portRead s (BitVec.ofNat 8 (4 * k)) = { s with rsp := some ⟨w, false⟩ } := by
  have hk' : k < registerMap.length := hk
  have hidx : registerMap[k].index ≠ 4 := (index_registerMap hk').symm ▸ h4
  have hword := wordAt_of_locate (s := s) (locate_word hk') (access_ne_writeOnly hidx)
  exact ⟨_, hword, portRead_answered hword⟩

/-- The first four words of the map are those of OPB. -/
theorem wordAt_opb (s : State) {k : Nat} (hk : k < 4) : s.wordAt (BitVec.ofNat 8 (4 * k)) = some (wordOf s.opb k) := by
  match k with
  | 0 => rfl
  | 1 => rfl
  | 2 => rfl
  | 3 => rfl

/-- A register no wider than a word reads its value. -/
theorem toNat_setWidth_word {n : Nat} (x : BitVec n) (h : n ≤ 32) : (x.setWidth 32).toNat = x.toNat :=
  BitVec.toNat_setWidth_of_le h

/-- Settles O48: each offset reads its register, a wide register's words recombine, and a narrow register's value is
extended by zeros, or by its sign. -/
theorem resultRegistersReadTheirValues : Obligations.ResultRegistersReadTheirValues := by
  refine ⟨fun s => ⟨fun k => read_word s, ?opb, ?bytes, ?bits, ?manf, ?sexpFields, ?sexp, ?cmant, ?kind, ?binexp, ?cneg,
    ?decexp, ?adj, ?p5n, ?lshn, ?digit, ?ndig⟩, rfl, Kind.code_le⟩
  case opb => exact ⟨_, _, _, _, rfl, rfl, rfl, rfl, toNat_eq_four_words s.opb⟩
  case bytes =>
    intro k j hk hj
    rw [wordAt_opb s hk, Option.map_some, byte_of_wordOf s.opb k hj]
  case bits => exact ⟨_, _, _, rfl, rfl, rfl, toNat_eq_three_words s.bits⟩
  case manf => exact ⟨_, _, rfl, rfl, toNat_eq_two_words s.manf⟩
  case sexpFields =>
    exact congrArg some ((toNat_setWidth_word s.sexp (by decide)).trans (sexp_toNat s))
  case sexp => exact congrArg some (toNat_setWidth_word s.sexp (by decide))
  case cmant => exact ⟨_, _, rfl, rfl, toNat_eq_two_words s.cmant⟩
  case kind => exact congrArg some (toNat_setWidth_word s.kind.code (by decide))
  case binexp => exact congrArg some (BitVec.toInt_signExtend_of_le (by decide))
  case cneg =>
    refine congrArg some ((toNat_setWidth_word (BitVec.ofBool s.cneg) (by decide)).trans ?_)
    cases s.cneg <;> rfl
  case decexp => exact congrArg some (BitVec.toInt_signExtend_of_le (by decide))
  case adj => exact congrArg some (toNat_setWidth_word s.adj (by decide))
  case p5n => exact congrArg some (toNat_setWidth_word s.p5n (by decide))
  case lshn => exact congrArg some (toNat_setWidth_word s.lshn (by decide))
  case digit => exact congrArg some (toNat_setWidth_word s.digit (by decide))
  case ndig => exact congrArg some (toNat_setWidth_word s.ndig (by decide))

/-! ### Grouping -/

/-- Settles O60, by induction on the digits: each is kept, and what is put before one is the separator. -/
theorem groupingOnlyInsertsSeparators : Obligations.GroupingOnlyInsertsSeparators := by
  intro stop sep sizes used ds hsep
  induction ds generalizing sizes used with
  | nil => cases sizes <;> rfl
  | cons d ds ih =>
    have hd : d ≠ sep := fun h => hsep (h ▸ List.mem_cons_self)
    have hds : sep ∉ ds := fun h => hsep (List.mem_cons_of_mem d h)
    have hall : (d :: ds).filter (· ≠ sep) = d :: ds :=
      List.filter_eq_self.mpr fun c hc => decide_eq_true fun h : c = sep => hsep (h ▸ hc)
    cases sizes with
    | nil => exact hall
    | cons g gs =>
      unfold groupDigits
      split
      · exact hall
      · split
        · rw [List.filter_cons_of_pos (by simpa using hd), ih _ _ hds]
        · rw [List.filter_cons_of_neg (by simp), List.filter_cons_of_pos (by simpa using hd), ih _ _ hds]

end Sys2Proof.Machine

/-! LDC's table, the value being converted, and the sub-steps of a CVT (spec/44_exact_converter.md R180 to R182, R191). -/

namespace Sys2Proof.Machine

/-! ### LDC -/

section
variable {d : Descriptor} {k : Kind} {s : State}

theorem ldcState_of_converts (hk : k.converts = true) (d : Descriptor) (s : State) : ldcState d k s =
    ((s.writeKind k).writeInput (BitVec.ofNat 64 (converterInput d k s.expf s.manf).1)
      (BitVec.ofInt 16 (converterInput d k s.expf s.manf).2) s.neg).setPhase .loaded := by
  rw [ldcState, if_pos hk]

/-- The mantissa that LDC loads, when it fits the register. -/
theorem ldcState_cmant (hk : k.converts = true) {m : Nat} (hm : (converterInput d k s.expf s.manf).1 = m)
    (hlt : m < 2 ^ 64) : (ldcState d k s).cmant.toNat = m := by
  rw [ldcState_of_converts hk, State.setPhase_cmant, State.writeInput_cmant, hm, BitVec.toNat_ofNat]
  exact Nat.mod_eq_of_lt hlt

/-- The exponent that LDC loads, when it fits the register. -/
theorem ldcState_binExp (hk : k.converts = true) {b : Int} (hb : (converterInput d k s.expf s.manf).2 = b)
    (hlo : -32768 ≤ b) (hhi : b ≤ 32767) : (ldcState d k s).binExp = b := by
  rw [ldcState_of_converts hk, State.binExp, State.setPhase_binexp, State.writeInput_binexp, hb]
  exact toInt_ofInt_16 hlo hhi

/-- A converting kind is loaded as three registers, the kind and the phase. -/
theorem ldcState_frame (hk : k.converts = true) : (ldcState d k s).finish = { s with
    kind := k, cmant := (ldcState d k s).cmant, binexp := (ldcState d k s).binexp, cneg := s.neg,
    phase := .loaded, busy := false } := by
  rw [ldcState_of_converts hk]
  rfl

theorem kindOf_implied_normal (hd : d.impliedOne = true) {e : BitVec 15} {m : BitVec 64} (h0 : 0 < e.toNat)
    (h1 : e.toNat < 2 ^ d.exponentBits - 1) : kindOf d e m = .normal := by
  have hne : e ≠ 0 := by
    rintro rfl
    exact absurd h0 (by decide)
  rw [kindOf, if_neg hne, if_pos hd, kindImplied, Descriptor.allOnes, if_neg h1.ne]

theorem kindOf_denormal {e : BitVec 15} {m : BitVec 64} (he : e = 0) (hm : m ≠ 0) : kindOf d e m = .denormal := by
  rw [kindOf, if_pos he, if_neg hm]

/-- An extended encoding whose exponent field is not all ones and that is not zero is Normal with its explicit bit and
Denormal without (spec/42_classifier.md R135). -/
theorem kindOf_extended_finite {e : BitVec 15} {m : BitVec 64} (he : e.toNat ≠ 0x7FFF) (hne : e ≠ 0 ∨ m ≠ 0) :
    kindOf descExtended e m = if e ≠ 0 ∧ 2 ^ 63 ≤ m.toNat then .normal else .denormal := by
  rw [kindOf_extended]
  by_cases h0 : e = 0
  · rw [if_pos h0, if_neg (hne.resolve_left (not_not_intro h0)), if_neg fun h => h.1 h0]
  · by_cases hm : m.toNat < 0x8000000000000000
    · rw [if_neg h0, if_neg he, if_pos hm, if_neg fun h => absurd h.2 (not_le.mpr hm)]
    · rw [if_neg h0, if_neg he, if_neg hm, if_pos ⟨h0, not_lt.mp hm⟩]

theorem exists_desc_of_bias {f : Fmt} {M E c : Nat}
    (hf : (f, M, E, c) ∈ [(Fmt.single, 23, 8, 150), (.double, 52, 11, 1075)]) :
    ∃ d, descOf f = some d ∧ d.impliedOne = true ∧ d.mantissaBits = M ∧ d.exponentBits = E ∧
      d.exponentBias + M = c ∧ M ≤ 52 ∧ E ≤ 11 ∧ c ≤ 1075 := by
  simp only [List.mem_cons, Prod.mk.injEq, List.not_mem_nil, or_false] at hf
  obtain ⟨rfl, rfl, rfl, rfl⟩ | ⟨rfl, rfl, rfl, rfl⟩ := hf <;>
    exact ⟨_, rfl, rfl, rfl, rfl, rfl, by decide, by decide, by decide⟩

end

/-- Settles O26: the kind is Normal or Denormal, and what the table gives for it fits CMANT and BINEXP. -/
theorem ldcLoadsTheConverterInput : Obligations.LdcLoadsTheConverterInput := by
  refine ⟨fun f M E c s hf hm => ⟨fun h0 h1 => ?normal, fun he hne => ?denormal⟩, fun s he hne => ?extended⟩
  case normal =>
    obtain ⟨d, hd, himp, rfl, rfl, hc, hM, hE, hc'⟩ := exists_desc_of_bias hf
    have hexp : s.expf.toNat < 2 ^ d.exponentBits := by omega
    have hin : fieldsInRange d s.expf s.manf = true := by simp [fieldsInRange, hm, hexp]
    have hpow : 2 ^ d.mantissaBits ≤ 2 ^ 52 := Nat.pow_le_pow_right (by decide) hM
    have hexp' : 2 ^ d.exponentBits ≤ 2 ^ 11 := Nat.pow_le_pow_right (by decide) hE
    have hinput : converterInput d .normal s.expf s.manf =
        (2 ^ d.mantissaBits + s.manf.toNat, (s.expf.toNat : ℤ) - d.exponentBias - d.mantissaBits) := by
      simp [converterInput, himp]
    have hexec := exec_ldc_inRange hd hin
    rw [kindOf_implied_normal himp h0 h1] at hexec
    refine ⟨_, hexec, ldcState_frame rfl, ?_, ?_⟩
    · exact ldcState_cmant rfl (congrArg Prod.fst hinput) (by omega)
    · refine (ldcState_binExp rfl (congrArg Prod.snd hinput) ?_ ?_).trans ?_ <;> omega
  case denormal =>
    obtain ⟨d, hd, himp, rfl, rfl, hc, hM, hE, hc'⟩ := exists_desc_of_bias hf
    have hexp : s.expf.toNat < 2 ^ d.exponentBits := by rw [he]; exact Nat.two_pow_pos _
    have hin : fieldsInRange d s.expf s.manf = true := by simp [fieldsInRange, hm, hexp]
    have hinput : converterInput d .denormal s.expf s.manf =
        (s.manf.toNat, 1 - (d.exponentBias : ℤ) - d.mantissaBits) := by
      simp [converterInput, himp]
    have hcmant : (ldcState d .denormal s).cmant = s.manf :=
      BitVec.eq_of_toNat_eq (ldcState_cmant rfl (congrArg Prod.fst hinput) s.manf.isLt)
    have hframe := ldcState_frame (d := d) (s := s) (k := .denormal) rfl
    rw [hcmant] at hframe
    have hexec := exec_ldc_inRange hd hin
    rw [kindOf_denormal he hne] at hexec
    refine ⟨_, hexec, hframe, (ldcState_binExp rfl (congrArg Prod.snd hinput) ?_ ?_).trans ?_⟩ <;> omega
  case extended =>
    have hkind := kindOf_extended_finite he hne
    have hk : (kindOf descExtended s.expf s.manf).converts = true := by
      rw [hkind]
      split <;> rfl
    have hinput : converterInput descExtended (kindOf descExtended s.expf s.manf) s.expf s.manf =
        (s.manf.toNat, max (s.expf.toNat : ℤ) 1 - 16383 - 63) := rfl
    have hcmant : (ldcState descExtended (kindOf descExtended s.expf s.manf) s).cmant = s.manf :=
      BitVec.eq_of_toNat_eq (ldcState_cmant hk (congrArg Prod.fst hinput) s.manf.isLt)
    have hframe := ldcState_frame (d := descExtended) (s := s) hk
    rw [hcmant, hkind] at hframe
    have hexec := exec_ldc_inRange (f := .extended) (d := descExtended) rfl (fieldsInRange_extended s.expf s.manf)
    have hlt := s.expf.isLt
    rw [hkind] at hexec hinput
    refine ⟨_, hexec, hframe, (ldcState_binExp (hkind ▸ hk) (congrArg Prod.snd hinput) ?_ ?_).trans ?_⟩ <;> omega

/-! ### The value being converted (spec/44_exact_converter.md R180) -/

section
variable {s : State}

theorem minState_inputValue (hm : s.cmant ≠ 0) : (minState s).inputValue = s.inputValue := by
  rw [State.inputValue, State.inputValue, minState_binExp hm, minState_cmant_mul hm, zpow_add₀ (by norm_num),
    zpow_natCast]
  push_cast
  ring

/-- A negative exponent is a power of five and one of ten: `2^b = 5^(-b) x 10^b`. -/
theorem two_zpow_neg {b : ℤ} (hb : b < 0) : (2 : ℚ) ^ b = 5 ^ (-b).toNat * 10 ^ b := by
  have hcast : ((-b).toNat : ℤ) = -b := Int.toNat_of_nonneg (by omega)
  rw [show (10 : ℚ) = 5 * 2 by norm_num, mul_zpow, ← mul_assoc, ← zpow_natCast, hcast,
    zpow_neg, inv_mul_cancel₀ (zpow_ne_zero b (by norm_num)), one_mul]

theorem rfrState_accValue (s : State) : (rfrState s).accValue = s.inputValue := by
  rcases lt_or_ge s.binExp 0 with hneg | hnonneg
  · rw [rfrState_of_neg hneg]
    show ((s.cmant.toNat * 5 ^ (-s.binExp).toNat : ℕ) : ℚ) * 2 ^ (0 : ℤ) * 10 ^ s.binExp = s.inputValue
    rw [State.inputValue, two_zpow_neg hneg]
    push_cast
    ring
  · rw [rfrState_of_nonneg hnonneg]
    show (s.cmant.toNat : ℚ) * 2 ^ s.binExp * 10 ^ (0 : ℤ) = s.inputValue
    rw [zpow_zero, mul_one, State.inputValue]

theorem rreState_accValue (s : State) : (rreState s).accValue = s.accValue := by
  rcases lt_or_ge 0 s.binExp with hpos | hnonpos
  · have hcast : (2 : ℚ) ^ s.binExp = 2 ^ s.binExp.toNat := by
      rw [← zpow_natCast, Int.toNat_of_nonneg hpos.le]
    rw [rreState_of_pos hpos]
    show ((s.acc * 2 ^ s.binExp.toNat : ℕ) : ℚ) * 2 ^ (0 : ℤ) * 10 ^ s.decExp = s.accValue
    rw [State.accValue, hcast]
    push_cast
    ring
  · rw [rreState_of_nonpos hnonpos]
    rfl

/-- A digit step takes the digit out of the value at the place that DECEXP names. -/
theorem dgtState_accValue (hbin : s.binExp = 0) (hdec : s.decExp < 32767) :
    s.accValue = (dgtState s).accValue + ((nextBeat s).digit.toNat : ℚ) * 10 ^ s.decExp := by
  have hdiv : (s.acc : ℚ) = 10 * (s.acc / 10 : ℕ) + (s.acc % 10 : ℕ) := by exact_mod_cast (Nat.div_add_mod s.acc 10).symm
  rw [State.accValue, State.accValue, dgtState_acc, dgtState_binExp, dgtState_decExp hdec, hbin, nextBeat_digit, hdiv,
    zpow_add_one₀ (by norm_num)]
  ring

end

/-- Settles O32: the value equation of each state, which the end of the command does not touch. -/
theorem everyConverterStepKeepsTheValue : Obligations.EveryConverterStepKeepsTheValue := by
  intro s t
  refine ⟨fun h hp hm => ?min, fun h hp he => ?rfr, fun h hp he => ?rre, fun h hp he hk hbin hdec => ?dgt⟩
  case min =>
    obtain rfl := Host.Outcome.next.inj ((exec_min_done hp hm).symm.trans h)
    exact minState_inputValue hm
  case rfr =>
    obtain rfl := Host.Outcome.next.inj ((exec_rfr_done hp he).symm.trans h)
    exact rfrState_accValue s
  case rre =>
    obtain rfl := Host.Outcome.next.inj ((exec_rre_done hp he).symm.trans h)
    exact rreState_accValue s
  case dgt =>
    obtain rfl := Host.Outcome.next.inj ((exec_dgt_done hp he hk).symm.trans h)
    exact ⟨nextBeat s, dgtState_dstream s, dgtState_accValue hbin hdec⟩

/-! ### The sub-steps of a CVT -/

section
variable {s t : State} {f : Fmt}

/-- A CVT that goes on keeps BUSY where the single command ends. -/
theorem advance_eq (t : State) (u : UStep) : t.advance u = { t.finish with busy := t.busy, ustep := u } := rfl

theorem afterLdc_of_loaded (h : t.phase = .loaded) : afterLdc t = t.advance .sMin :=
  if_neg (by rw [h]; exact Phase.noConfusion)

theorem afterDgt_of_digits (h : t.phase = .digits) : afterDgt t = t.advance .sDgt := if_pos h

theorem afterDgt_of_finished (h : t.phase = .finished) : afterDgt t = t.finish :=
  if_neg (by rw [h]; exact Phase.noConfusion)

/-- A completed body leaves BUSY and USTEP to what follows it. -/
theorem ldcState_busy (d : Descriptor) (k : Kind) (s : State) : (ldcState d k s).busy = s.busy := by
  unfold ldcState
  split <;> simp

theorem minState_busy (s : State) : (minState s).busy = s.busy := by simp [minState]

theorem rfrState_busy (s : State) : (rfrState s).busy = s.busy := by
  unfold rfrState
  split <;> simp

theorem rreState_busy (s : State) : (rreState s).busy = s.busy := by
  unfold rreState
  split <;> simp

theorem dgtState_busy (s : State) : (dgtState s).busy = s.busy := by simp [dgtState]

theorem dgtState_ustep (s : State) : (dgtState s).ustep = s.ustep := by simp [dgtState]

end

/-- Settles O33: both run the same body, and a CVT goes on where the command ends. -/
theorem cvtSubStepsAreTheCommands : Obligations.CvtSubStepsAreTheCommands := by
  intro f d s hd
  refine ⟨fun hu hin => ?ldc, fun hu hp hm => ?min, fun hu hp he => ?rfr, fun hu hp he => ?rre,
    fun hu hp he hk => ?dgt⟩
  case ldc =>
    refine ⟨_, exec_ldc_inRange hd hin, ?_⟩
    rw [exec_cvt_inRange hd hin hu]
    have hphase := ldcState_phase d (kindOf d s.expf s.manf) s
    have hbusy := ldcState_busy d (kindOf d s.expf s.manf) s
    generalize ldcState d (kindOf d s.expf s.manf) s = u at hphase hbusy ⊢
    split at hphase
    · rw [afterLdc_of_loaded hphase, advance_eq, hbusy]
      exact .inr ⟨hphase, rfl⟩
    · rw [afterLdc_of_bypass hphase]
      exact .inl ⟨hphase, rfl⟩
  case min =>
    refine ⟨_, exec_min_done hp hm, ?_⟩
    rw [exec_cvt_min f hu, minBody_done hp hm, settle_done, ← minState_busy s]
    rfl
  case rfr =>
    refine ⟨_, exec_rfr_done hp he, ?_⟩
    rw [exec_cvt_rfr f hu, rfrBody_done hp he, settle_done, ← rfrState_busy s]
    rfl
  case rre =>
    refine ⟨_, exec_rre_done hp he, ?_⟩
    rw [exec_cvt_rre f hu, rreBody_done hp he, settle_done, ← rreState_busy s]
    rfl
  case dgt =>
    refine ⟨_, exec_dgt_done hp he hk, ?_⟩
    rw [exec_cvt_dgt f hu, dgtBody_done hp he hk, settle_done]
    show _ ∧ Host.Outcome.next (afterDgt (dgtState s)) = _ ∨ _ ∧ Host.Outcome.next (afterDgt (dgtState s)) = _
    have hphase := dgtState_phase s
    have hbusy := dgtState_busy s
    have hustep := (dgtState_ustep s).trans hu
    generalize dgtState s = u at hphase hbusy hustep ⊢
    split at hphase
    · rw [afterDgt_of_finished hphase]
      exact .inl ⟨hphase, rfl⟩
    · rw [afterDgt_of_digits hphase, advance_eq, hbusy, ← hustep]
      exact .inr ⟨hphase, rfl⟩

end Sys2Proof.Machine

/-! The digit steps from REDUCED to FINISHED (spec/44_exact_converter.md R188 to R190): how many there are, what they send
and what they leave. -/

namespace Sys2Proof.Machine

/-! ### The number of digits left (spec/44_exact_converter.md R190) -/

theorem len10_zero : len10 0 = 0 := rfl

theorem len10_of_ne_zero {a : Nat} (h : a ≠ 0) : len10 a = len10 (a / 10) + 1 := by
  rw [len10, Nat.digits_def' (by decide) (Nat.pos_of_ne_zero h), List.length_cons, len10]

/-- The digit steps that are left before FINISHED: R190's `N`, with DECEXP for the fraction digits still to come. -/
def digitsLeft (s : State) : Nat := max ((-s.decExp).toNat + 1) (len10 s.acc)

theorem digitsLeft_of_last {s : State} (h : (nextBeat s).last = true) : digitsLeft s = 1 := by
  obtain ⟨hdec, hacc⟩ := (nextBeat_last_iff s).mp h
  have hlen : len10 s.acc ≤ 1 := by
    by_cases h0 : s.acc = 0
    · rw [h0, len10_zero]; exact Nat.zero_le 1
    · rw [len10_of_ne_zero h0, hacc, len10_zero]
  unfold digitsLeft
  omega

theorem digitsLeft_of_more {s : State} (hdec : s.decExp < 32767) (h : (nextBeat s).last = false) :
    digitsLeft s = digitsLeft (dgtState s) + 1 := by
  have hmore : ¬(1 ≤ s.decExp + 1 ∧ s.acc / 10 = 0) := by rw [← nextBeat_last_iff, h]; decide
  unfold digitsLeft
  rw [dgtState_decExp hdec, dgtState_acc]
  by_cases h0 : s.acc = 0
  · rw [h0, Nat.zero_div, len10_zero]
    rw [h0] at hmore
    omega
  · rw [len10_of_ne_zero h0]
    by_cases h10 : s.acc / 10 = 0
    · rw [h10, len10_zero]
      omega
    · rw [len10_of_ne_zero h10]
      omega

/-! ### A run of digit steps -/

/-- The digit steps begun in `s` send `bs` and leave `t`, the first state in which no digit is left. -/
inductive Draws : State → List Beat → State → Prop where
  | last {s : State} (hp : s.phase = .reduced ∨ s.phase = .digits) (hl : (nextBeat s).last = true) :
      Draws s [nextBeat s] (dgtState s)
  | more {s t : State} {bs : List Beat} (hp : s.phase = .reduced ∨ s.phase = .digits)
      (hl : (nextBeat s).last = false) (h : Draws (dgtState s) bs t) : Draws s (nextBeat s :: bs) t

theorem dgtState_phase_of_more {s : State} (h : (nextBeat s).last = false) : (dgtState s).phase = .digits := by
  rw [dgtState_phase, h]; rfl

theorem dgtState_phase_of_last {s : State} (h : (nextBeat s).last = true) : (dgtState s).phase = .finished := by
  rw [dgtState_phase, h]; rfl

/-- Under the invariant of the phase the digits come to an end, after as many steps as there are digits left. -/
theorem exists_draws {n : Nat} {s : State} (hn : digitsLeft s = n) (hp : s.phase = .reduced ∨ s.phase = .digits)
    (h : s.phaseHolds) : ∃ bs t, Draws s bs t ∧ bs.length = n := by
  induction n generalizing s with
  | zero =>
    have hpos : 1 ≤ digitsLeft s := le_max_of_le_left (Nat.le_add_left 1 _)
    omega
  | succ n ih =>
    have hdec := (drawsDigits_of_phaseHolds hp h).counts_bounded.1
    cases hl : (nextBeat s).last with
    | true =>
      have hone := digitsLeft_of_last hl
      exact ⟨_, _, .last hp hl, by rw [List.length_singleton]; omega⟩
    | false =>
      have hleft := digitsLeft_of_more hdec hl
      obtain ⟨bs, t, hdraws, hlen⟩ := ih (by omega) (.inr (dgtState_phase_of_more hl)) (dgtState_phaseHolds hp h)
      exact ⟨_, _, .more hp hl hdraws, by rw [List.length_cons, hlen]⟩

/-- What the digit steps never touch. -/
theorem dgtState_frame (s : State) : dgtState s = { s with
    acc := (dgtState s).acc, accnz := (dgtState s).accnz, decexp := (dgtState s).decexp, ndig := (dgtState s).ndig,
    digit := (dgtState s).digit, dstream := (dgtState s).dstream, phase := (dgtState s).phase, engReq := none,
    beat := none } := by
  simp [dgtState, State.setPhase, State.emit, State.writeDigit, State.engineStep]

section
variable {s t : State} {bs : List Beat}

theorem Draws.frame (h : Draws s bs t) : t = { s with
    acc := t.acc, accnz := t.accnz, decexp := t.decexp, ndig := t.ndig, digit := t.digit, dstream := t.dstream,
    phase := t.phase, engReq := none, beat := none } := by
  induction h with
  | last => exact dgtState_frame _
  | more _ _ _ ih =>
    rw [dgtState_frame] at ih
    exact ih

/-- The digit steps end in FINISHED with nothing in the accumulator, and send all its digits in order. -/
theorem Draws.result (h : Draws s bs t) : t.phase = .finished ∧ t.acc = 0 ∧ t.dstream = s.dstream ++ bs ∧
    digitsNumber bs = s.acc := by
  induction h with
  | @last s _ hl =>
    obtain ⟨-, hacc⟩ := (nextBeat_last_iff s).mp hl
    refine ⟨dgtState_phase_of_last hl, hacc, dgtState_dstream s, ?_⟩
    show (nextBeat s).digit.toNat + 10 * 0 = s.acc
    rw [nextBeat_digit]
    omega
  | @more s t bs _ _ _ ih =>
    obtain ⟨hphase, hacc, hstream, hnumber⟩ := ih
    refine ⟨hphase, hacc, ?_, ?_⟩
    · rw [hstream, dgtState_dstream, List.append_assoc, List.singleton_append]
    · show (nextBeat s).digit.toNat + 10 * digitsNumber bs = s.acc
      rw [hnumber, nextBeat_digit, dgtState_acc]
      omega

/-- There is one fraction digit for every place that DECEXP lies below 0. -/
theorem Draws.fractionCount (h : Draws s bs t) (hs : s.phaseHolds) : fractionCount bs = (-s.decExp).toNat := by
  have first (s : State) (bs : List Beat) : Machine.fractionCount (nextBeat s :: bs)
      = (if s.decExp < 0 then 1 else 0) + Machine.fractionCount bs := by
    unfold Machine.fractionCount
    by_cases hneg : s.decExp < 0
    · rw [List.filter_cons_of_pos (by simpa using hneg), if_pos hneg, List.length_cons, Nat.add_comm]
    · rw [List.filter_cons_of_neg (by simpa using hneg), if_neg hneg, Nat.zero_add]
  induction h with
  | @last s _ hl =>
    have hnonneg := ((nextBeat_last_iff s).mp hl).1
    rw [first, if_neg (by omega)]
    show 0 + 0 = _
    omega
  | @more s t bs hp _ _ ih =>
    have hdec := dgtState_decExp (drawsDigits_of_phaseHolds hp hs).counts_bounded.1
    rw [first, ih (dgtState_phaseHolds hp hs), hdec]
    split <;> omega

/-- NDIG counts the digits sent. -/
theorem Draws.ndig (h : Draws s bs t) (hs : s.phaseHolds) : t.ndig.toNat = s.ndig.toNat + bs.length := by
  induction h with
  | last hp =>
    exact dgtState_ndig_toNat (drawsDigits_of_phaseHolds hp hs).counts_bounded.2
  | more hp _ _ ih =>
    rw [ih (dgtState_phaseHolds hp hs), dgtState_ndig_toNat (drawsDigits_of_phaseHolds hp hs).counts_bounded.2,
      List.length_cons]
    omega

/-- The beats one by one: decimal digits, fraction digits while DECEXP is negative, and only the last marked last. -/
theorem Draws.beats (h : Draws s bs t) (hs : s.phaseHolds) {k : Nat} {b : Beat} (hb : bs[k]? = some b) :
    b.digit.toNat < 10 ∧ (b.frac = true ↔ s.decExp + k < 0) ∧ (b.last = true ↔ k + 1 = bs.length) := by
  have first (s : State) : (nextBeat s).digit.toNat < 10 ∧ ((nextBeat s).frac = true ↔ s.decExp + (0 : ℕ) < 0) := by
    rw [nextBeat_digit, nextBeat_frac, decide_eq_true_iff, Nat.cast_zero, add_zero]
    exact ⟨Nat.mod_lt _ (by decide), Iff.rfl⟩
  induction h generalizing k with
  | @last s _ hl =>
    cases k with
    | zero =>
      obtain rfl := Option.some.inj hb
      exact ⟨(first s).1, (first s).2, iff_of_true hl rfl⟩
    | succ k => cases hb
  | @more s t bs hp hl hdraws ih =>
    cases k with
    | zero =>
      obtain rfl := Option.some.inj hb
      have hne : bs ≠ [] := by rintro rfl; cases hdraws
      have hlen : 0 < bs.length := List.length_pos_iff.mpr hne
      exact ⟨(first s).1, (first s).2, iff_of_false (by simp [hl]) (by rw [List.length_cons]; omega)⟩
    | succ k =>
      obtain ⟨hdigit, hfrac, hlast⟩ := ih (dgtState_phaseHolds hp hs) hb
      have hdec := (drawsDigits_of_phaseHolds hp hs).counts_bounded.1
      refine ⟨hdigit, hfrac.trans ?_, hlast.trans ?_⟩
      · rw [dgtState_decExp hdec]
        push_cast
        omega
      · rw [List.length_cons]
        omega

end

/-! ### A CVT's digit steps -/

/-- A CVT in progress at its digit steps, with nothing on the agenda and both other agents answering. -/
structure CvtDrawing (f : Fmt) (s : State) : Prop where
  busy : s.busy = true
  runs : s.runs (.cvt f)
  ustep : s.ustep = .sDgt
  agenda : s.agenda = []
  engine : s.engineReady = true
  sink : s.sinkReady = true

section
variable {f : Fmt} {s t : State} {bs : List Beat}

theorem CvtDrawing.dgtState (h : CvtDrawing f s) : CvtDrawing f (dgtState s) := by
  rw [dgtState_frame]
  exact ⟨h.busy, h.runs, h.ustep, h.agenda, h.engine, h.sink⟩

/-- Each step of the CVT is one digit step. -/
theorem CvtDrawing.step (h : CvtDrawing f s) (hp : s.phase = .reduced ∨ s.phase = .digits) :
    step s = .next (afterDgt (Machine.dgtState s)) := by
  rw [step_of_agenda_nil h.agenda, efuStep_of_runs h.busy h.runs, exec_cvt_dgt f h.ustep,
    dgtBody_done hp (.inl h.engine) h.sink, settle_done]
  rfl

theorem advance_self {u : UStep} (h : s.ustep = u) : s.advance u = s := by rw [State.advance, ← h]

/-- The digit steps of a CVT, to its end. -/
theorem CvtDrawing.run (h : CvtDrawing f s) (hdraws : Draws s bs t) : core.run bs.length s = .next t.finish := by
  induction hdraws with
  | last hp hl =>
    have hstep := h.step hp
    rw [afterDgt_of_finished (dgtState_phase_of_last hl)] at hstep
    rw [List.length_singleton, run_succ_of_step 0 hstep, run_zero]
  | more hp hl _ ih =>
    have hstep := h.step hp
    rw [afterDgt_of_digits (dgtState_phase_of_more hl), advance_self h.dgtState.ustep] at hstep
    rw [List.length_cons, run_succ_of_step _ hstep]
    exact ih h.dgtState

end

/-- Settles O34: the digit steps are as many as the digits left at REDUCED, and a CVT runs exactly them. -/
theorem digitStepsDrawTheAccumulator : Obligations.DigitStepsDrawTheAccumulator := by
  intro f s hinv hp hb hruns hu ha he hk
  obtain ⟨hphase, -, -⟩ := hinv
  have hfacts := hphase
  rw [State.phaseHolds, hp] at hfacts
  obtain ⟨-, hdec, -, -, -, hndig, -, -⟩ := hfacts
  have hleft : digitsLeft s = max (s.p5n.toNat + 1) (len10 s.acc) := by
    rw [digitsLeft, hdec, neg_neg, Int.toNat_natCast]
  obtain ⟨bs, t, hdraws, hlen⟩ := exists_draws hleft (.inl hp) hphase
  obtain ⟨hfin, hacc, hstream, hnumber⟩ := hdraws.result
  have hrun := CvtDrawing.run ⟨hb, hruns, hu, ha, he, hk⟩ hdraws
  rw [hlen] at hrun
  refine ⟨t.finish, bs, hrun, hfin, rfl, ?err, hacc, hstream, hlen, ?count, hnumber, fun k b hb => ?beat⟩
  case err => rw [State.finish_err, hdraws.frame]
  case count =>
    have hcount := hdraws.ndig hphase
    rw [hndig] at hcount
    exact hcount.trans (Nat.zero_add _)
  case beat =>
    obtain ⟨hdigit, hfrac, hlast⟩ := hdraws.beats hphase hb
    refine ⟨hdigit, hfrac.trans ?_, hlast⟩
    rw [hdec]
    omega

end Sys2Proof.Machine

/-! A command issued by the host and a CVT's sub-steps, run to their end (spec/44_exact_converter.md R191, R196): both
are the same completions of the same bodies, in states that differ in the record of the run alone. -/

namespace Sys2Proof.Machine

/-! ### The record of a run -/

/-- What a state records of the run of commands: no body of the converter reads it. -/
structure RunRecord where
  busy : Bool
  lastop : BitVec 4
  cw : BitVec 7
  ustep : UStep
  rsp : Option Response
  agenda : List Event

def State.setRecord (s : State) (r : RunRecord) : State :=
  { s with busy := r.busy, lastop := r.lastop, cw := r.cw, ustep := r.ustep, rsp := r.rsp, agenda := r.agenda }

def State.record (s : State) : RunRecord := ⟨s.busy, s.lastop, s.cw, s.ustep, s.rsp, s.agenda⟩

/-- States that agree but for LASTOP, CW and USTEP. -/
theorem sameButCommand_setRecord (t : State) {r r' : RunRecord} (hb : r.busy = r'.busy) (hr : r.rsp = r'.rsp)
    (ha : r.agenda = r'.agenda) : (t.setRecord r).sameButCommand (t.setRecord r') := by
  rw [State.sameButCommand, State.setRecord, hb, hr, ha]
  rfl

section
variable (s : State) (r : RunRecord)

@[simp] theorem setRecord_phase : (s.setRecord r).phase = s.phase := rfl
@[simp] theorem setRecord_expf : (s.setRecord r).expf = s.expf := rfl
@[simp] theorem setRecord_manf : (s.setRecord r).manf = s.manf := rfl
@[simp] theorem setRecord_err : (s.setRecord r).err = s.err := rfl
@[simp] theorem setRecord_kind : (s.setRecord r).kind = s.kind := rfl
@[simp] theorem setRecord_cneg : (s.setRecord r).cneg = s.cneg := rfl
@[simp] theorem setRecord_p5n : (s.setRecord r).p5n = s.p5n := rfl
@[simp] theorem setRecord_dstream : (s.setRecord r).dstream = s.dstream := rfl

theorem finish_setRecord : (s.setRecord r).finish = s.setRecord { r with busy := false } := rfl

theorem advance_setRecord (u : UStep) : (s.setRecord r).advance u = s.setRecord { r with ustep := u } := rfl

theorem ldcState_setRecord (d : Descriptor) (k : Kind) :
    ldcState d k (s.setRecord r) = (ldcState d k s).setRecord r := by
  unfold ldcState
  split <;> rfl

theorem rfrState_setRecord : rfrState (s.setRecord r) = (rfrState s).setRecord r := by
  show (if s.binExp < 0 then _ else _) = _
  unfold rfrState
  split <;> rfl

theorem rreState_setRecord : rreState (s.setRecord r) = (rreState s).setRecord r := by
  show (if 0 < s.binExp then _ else _) = _
  unfold rreState
  split <;> rfl

end

/-! ### Completions -/

/-- Begun in `s`, whatever the record, the command `i` ends and leaves `t`. -/
def Completes (i : Instr) (s t : State) : Prop :=
  ∀ r : RunRecord, exec i (s.setRecord r) = .next (t.setRecord { r with busy := false })

/-- Begun in `s` at the sub-step `u`, a CVT goes on at `u'` and leaves `t`. -/
def CvtContinues (f : Fmt) (u u' : UStep) (s t : State) : Prop :=
  ∀ r : RunRecord, r.ustep = u → exec (.cvt f) (s.setRecord r) = .next (t.setRecord { r with ustep := u' })

/-- Begun in `s` at the sub-step `u`, a CVT ends and leaves `t`. -/
def CvtEnds (f : Fmt) (u : UStep) (s t : State) : Prop :=
  ∀ r : RunRecord, r.ustep = u → exec (.cvt f) (s.setRecord r) = .next (t.setRecord { r with busy := false })

section
variable {f : Fmt} {d : Descriptor} {s : State}

theorem ldc_raises_range (hd : descOf f = some d) (h : fieldsInRange d s.expf s.manf = false) :
    Completes (.ldc f) s (s.raise .range) := fun r => exec_ldc_outOfRange (s := s.setRecord r) hd h

theorem cvt_raises_range (hd : descOf f = some d) (h : fieldsInRange d s.expf s.manf = false) :
    CvtEnds f .sLdc s (s.raise .range) := fun r hu => exec_cvt_outOfRange (s := s.setRecord r) hd h hu

theorem ldc_completes (hd : descOf f = some d) (h : fieldsInRange d s.expf s.manf = true) :
    Completes (.ldc f) s (ldcState d (kindOf d s.expf s.manf) s) := fun r => by
  refine (exec_ldc_inRange (s := s.setRecord r) hd h).trans ?_
  rw [setRecord_expf, setRecord_manf, ldcState_setRecord, finish_setRecord]

theorem cvt_bypasses (hd : descOf f = some d) (h : fieldsInRange d s.expf s.manf = true)
    (hk : (kindOf d s.expf s.manf).converts = false) :
    CvtEnds f .sLdc s (ldcState d (kindOf d s.expf s.manf) s) := fun r hu => by
  refine (exec_cvt_inRange (s := s.setRecord r) hd h hu).trans ?_
  have hphase : (ldcState d (kindOf d s.expf s.manf) s).phase = .bypass := by rw [ldcState_phase, hk]; rfl
  rw [setRecord_expf, setRecord_manf, ldcState_setRecord,
    afterLdc_of_bypass ((setRecord_phase _ r).trans hphase), finish_setRecord]

theorem cvt_loads (hd : descOf f = some d) (h : fieldsInRange d s.expf s.manf = true)
    (hk : (kindOf d s.expf s.manf).converts = true) :
    CvtContinues f .sLdc .sMin s (ldcState d (kindOf d s.expf s.manf) s) := fun r hu => by
  refine (exec_cvt_inRange (s := s.setRecord r) hd h hu).trans ?_
  have hphase : (ldcState d (kindOf d s.expf s.manf) s).phase = .loaded := by rw [ldcState_phase, if_pos hk]
  rw [setRecord_expf, setRecord_manf, ldcState_setRecord,
    afterLdc_of_loaded ((setRecord_phase _ r).trans hphase), advance_setRecord]

theorem min_raises_precond (hp : s.phase = .loaded) (hm : s.cmant = 0) : Completes .min s (s.raise .precond) :=
  fun r => (zeroMantissaRaisesPrecond .single (s.setRecord r) hp hm).1

theorem cvt_raises_precond (hp : s.phase = .loaded) (hm : s.cmant = 0) : CvtEnds f .sMin s (s.raise .precond) :=
  fun r hu => (zeroMantissaRaisesPrecond f (s.setRecord r) hp hm).2 hu

theorem min_completes (hp : s.phase = .loaded) (hm : s.cmant ≠ 0) : Completes .min s (minState s) :=
  fun r => exec_min_done (s := s.setRecord r) hp hm

theorem cvt_minimizes (hp : s.phase = .loaded) (hm : s.cmant ≠ 0) : CvtContinues f .sMin .sRfr s (minState s) :=
  fun r hu => by
    rw [exec_cvt_min (s := s.setRecord r) f hu, minBody_done (s := s.setRecord r) hp hm, settle_done]
    rfl

theorem rfr_completes (hp : s.phase = .minimized) (he : s.engineReady = true) : Completes .rfr s (rfrState s) :=
  fun r => by
    refine (exec_rfr_done (s := s.setRecord r) hp he).trans ?_
    rw [rfrState_setRecord, finish_setRecord]

theorem cvt_defracts (hp : s.phase = .minimized) (he : s.engineReady = true) :
    CvtContinues f .sRfr .sRre s (rfrState s) := fun r hu => by
  rw [exec_cvt_rfr (s := s.setRecord r) f hu, rfrBody_done (s := s.setRecord r) hp he, settle_done,
    rfrState_setRecord]
  exact congrArg _ (advance_setRecord _ _ _)

theorem rre_completes (hp : s.phase = .defracted) (he : s.engineReady = true) : Completes .rre s (rreState s) :=
  fun r => by
    refine (exec_rre_done (s := s.setRecord r) hp (.inl he)).trans ?_
    rw [rreState_setRecord, finish_setRecord]

theorem cvt_reduces (hp : s.phase = .defracted) (he : s.engineReady = true) :
    CvtContinues f .sRre .sDgt s (rreState s) := fun r hu => by
  rw [exec_cvt_rre (s := s.setRecord r) f hu, rreBody_done (s := s.setRecord r) hp (.inl he), settle_done,
    rreState_setRecord]
  exact congrArg _ (advance_setRecord _ _ _)

theorem dgt_completes (hp : s.phase = .reduced ∨ s.phase = .digits) (he : s.engineReady = true)
    (hk : s.sinkReady = true) : Completes .dgt s (dgtState s) :=
  fun r => exec_dgt_done (s := s.setRecord r) hp (.inl he) hk

theorem cvt_draws (hp : s.phase = .reduced ∨ s.phase = .digits) (he : s.engineReady = true)
    (hk : s.sinkReady = true) (hl : (nextBeat s).last = false) : CvtContinues f .sDgt .sDgt s (dgtState s) :=
  fun r hu => by
    rw [exec_cvt_dgt (s := s.setRecord r) f hu, dgtBody_done (s := s.setRecord r) hp (.inl he) hk, settle_done]
    exact congrArg _ (afterDgt_of_digits (dgtState_phase_of_more (s := s.setRecord r) hl))

theorem cvt_draws_last (hp : s.phase = .reduced ∨ s.phase = .digits) (he : s.engineReady = true)
    (hk : s.sinkReady = true) (hl : (nextBeat s).last = true) : CvtEnds f .sDgt s (dgtState s) :=
  fun r hu => by
    rw [exec_cvt_dgt (s := s.setRecord r) f hu, dgtBody_done (s := s.setRecord r) hp (.inl he) hk, settle_done]
    exact congrArg _ (afterDgt_of_finished (dgtState_phase_of_last (s := s.setRecord r) hl))

end

/-! ### Events -/

/-- The record after the CMD write of `i`, with `es` left on the agenda. -/
def acceptedRecord (i : Instr) (u : UStep) (es : List Event) : RunRecord where
  busy := true
  lastop := (encode i).extractLsb' 0 4
  cw := (encode i).setWidth 7
  ustep := if (encode i).extractLsb' 0 4 = 0xB#4 then .sLdc else u
  rsp := some ⟨0, false⟩
  agenda := es

/-- A well-formed command but CLE, written to CMD of an idle EFU with no error recorded, is latched. -/
theorem step_issue {i : Instr} {s : State} {es : List Event} (hwf : i.wellFormed = true) (hne : i ≠ .cle)
    (hb : s.busy = false) (he : s.err = .noError) (ha : s.agenda = .write 0x10 (encode i) :: es) :
    step s = .next (s.setRecord (acceptedRecord i s.ustep es)) := by
  have hd := decode_encode_wellFormed hwf
  have hncle : encode i ≠ cleWord := by
    intro h
    rw [h, show decode cleWord = .command .cle from decode_encode_wellFormed (i := .cle) rfl] at hd
    cases hd
    exact hne rfl
  rw [step_of_agenda_cons ha]
  show writeEvent (s.withAgenda es) 0x10 (encode i) = _
  rw [writeEvent, if_neg fun h => hncle h.2.2, portWrite_cmd_taken (s := s.withAgenda es) hb (.inl he),
    takeCommand_command hd]
  rfl

/-- At its turn, or with nothing on the agenda, a busy EFU runs the command that CW holds. -/
theorem step_turn {i : Instr} {s : State} {r : RunRecord} {es : List Event} (hwf : i.wellFormed = true)
    (hb : r.busy = true) (hcw : r.cw = (encode i).setWidth 7)
    (ha : r.agenda = .efu :: es ∨ (r.agenda = [] ∧ es = [])) :
    step (s.setRecord r) = exec i (s.setRecord { r with agenda := es }) := by
  have hruns : (s.setRecord { r with agenda := es }).runs i := ⟨hwf, hcw⟩
  obtain ha | ⟨ha, rfl⟩ := ha
  · rw [step_of_agenda_cons (s := s.setRecord r) ha]
    exact efuStep_of_runs (s := s.setRecord { r with agenda := es }) hb hruns
  · rw [step_of_agenda_nil (s := s.setRecord r) ha, ← ha]
    rw [← ha] at hruns
    exact efuStep_of_runs (s := s.setRecord r) hb hruns

/-! ### A command of the sequence -/

/-- A command issued to an idle EFU and given one step: two steps of the machine. -/
theorem Completes.run {i : Instr} {s t : State} {r : RunRecord} {es : List Event} (h : Completes i s t)
    (hwf : i.wellFormed = true) (hne : i ≠ .cle) (he : s.err = .noError) (hb : r.busy = false)
    (ha : r.agenda = issue i ++ es) :
    ∃ r' : RunRecord, r'.busy = false ∧ r'.agenda = es ∧ r'.rsp = some ⟨0, false⟩ ∧
      core.run 2 (s.setRecord r) = .next (t.setRecord r') := by
  have hissue : step (s.setRecord r) = .next (s.setRecord (acceptedRecord i r.ustep (.efu :: es))) :=
    step_issue (s := s.setRecord r) hwf hne hb he ha
  have hturn := step_turn (s := s) (r := acceptedRecord i r.ustep (.efu :: es)) hwf rfl rfl (.inl rfl)
  refine ⟨{ acceptedRecord i r.ustep es with busy := false }, rfl, rfl, rfl, ?_⟩
  exact (run_succ_of_step 1 hissue).trans (run_succ_of_step 0 (hturn.trans (h _)))

/-! ### A step of a CVT -/

/-- The record of a CVT in progress at `u`, with nothing but the EFU's turns on the agenda. -/
structure RunRecord.CvtAt (r : RunRecord) (f : Fmt) (u : UStep) (m : Nat) : Prop where
  busy : r.busy = true
  cw : r.cw = (encode (.cvt f)).setWidth 7
  ustep : r.ustep = u
  agenda : r.agenda = List.replicate m .efu

section
variable {f : Fmt} {u u' : UStep} {s t : State} {r : RunRecord} {m : Nat}

theorem RunRecord.CvtAt.turn (hr : r.CvtAt f u m) :
    r.agenda = .efu :: List.replicate (m - 1) .efu ∨ (r.agenda = [] ∧ List.replicate (m - 1) Event.efu = []) := by
  cases m with
  | zero => exact .inr ⟨hr.agenda, rfl⟩
  | succ m => exact .inl hr.agenda

theorem CvtContinues.step (h : CvtContinues f u u' s t) (hf : f.supported = true) (hr : r.CvtAt f u m) :
    ∃ r' : RunRecord, r'.CvtAt f u' (m - 1) ∧ r'.rsp = r.rsp ∧
      Machine.step (s.setRecord r) = .next (t.setRecord r') := by
  have hturn := step_turn (i := .cvt f) (s := s) hf hr.busy hr.cw hr.turn
  exact ⟨{ r with ustep := u', agenda := List.replicate (m - 1) .efu }, ⟨hr.busy, hr.cw, rfl, rfl⟩, rfl,
    hturn.trans (h _ hr.ustep)⟩

theorem CvtEnds.step (h : CvtEnds f u s t) (hf : f.supported = true) (hr : r.CvtAt f u m) :
    ∃ r' : RunRecord, r'.busy = false ∧ r'.agenda = List.replicate (m - 1) .efu ∧ r'.rsp = r.rsp ∧
      Machine.step (s.setRecord r) = .next (t.setRecord r') := by
  have hturn := step_turn (i := .cvt f) (s := s) hf hr.busy hr.cw hr.turn
  exact ⟨{ r with busy := false, agenda := List.replicate (m - 1) .efu }, rfl, rfl, rfl, hturn.trans (h _ hr.ustep)⟩

end

/-! ### Whole runs -/

/-- The engine and the sink answer. -/
structure State.Ready (s : State) : Prop where
  engine : s.engineReady = true
  sink : s.sinkReady = true

section
variable {s t : State} {bs : List Beat} {f : Fmt}

theorem ldcState_ready (d : Descriptor) (k : Kind) (h : s.Ready) : (ldcState d k s).Ready := by
  unfold ldcState
  split <;> exact ⟨by simpa using h.engine, by simpa using h.sink⟩

theorem minState_ready (h : s.Ready) : (minState s).Ready :=
  ⟨by simpa [minState] using h.engine, by simpa [minState] using h.sink⟩

theorem rfrState_ready (h : s.Ready) : (rfrState s).Ready := by
  unfold rfrState
  split <;> exact ⟨by simpa using h.engine, by simpa using h.sink⟩

theorem rreState_ready (h : s.Ready) : (rreState s).Ready := by
  unfold rreState
  split <;> exact ⟨by simpa using h.engine, by simpa using h.sink⟩

theorem dgtState_ready (h : s.Ready) : (dgtState s).Ready := by
  rw [dgtState_frame]
  exact ⟨h.engine, h.sink⟩

/-- The digit steps of a CVT end it. -/
theorem Draws.run_cvt {r : RunRecord} {m : Nat} (h : Draws s bs t) (hs : s.Ready) (hf : f.supported = true)
    (hr : r.CvtAt f .sDgt m) :
    ∃ r' : RunRecord, r'.busy = false ∧ r'.agenda = List.replicate (m - bs.length) .efu ∧ r'.rsp = r.rsp ∧
      core.run bs.length (s.setRecord r) = .next (t.setRecord r') := by
  induction h generalizing r m with
  | last hp hl =>
    obtain ⟨r', hb, ha, hrsp, hstep⟩ := (cvt_draws_last hp hs.engine hs.sink hl).step hf hr
    exact ⟨r', hb, ha, hrsp, (run_succ_of_step 0 hstep).trans (run_zero _)⟩
  | more hp hl _ ih =>
    obtain ⟨r₁, hr₁, hrsp₁, hstep⟩ := (cvt_draws hp hs.engine hs.sink hl).step hf hr
    obtain ⟨r', hb, ha, hrsp, hrun⟩ := ih (dgtState_ready hs) hr₁
    refine ⟨r', hb, ?_, hrsp.trans hrsp₁, (run_succ_of_step _ hstep).trans hrun⟩
    rw [ha, List.length_cons, Nat.sub_sub, Nat.add_comm 1]

/-- The same digit steps as commands, each issued and run. -/
theorem Draws.run_commands {r : RunRecord} (h : Draws s bs t) (hs : s.Ready) (he : s.err = .noError)
    (hb : r.busy = false) (ha : r.agenda = (List.replicate bs.length (issue .dgt)).flatten) :
    ∃ r' : RunRecord, r'.busy = false ∧ r'.agenda = [] ∧ r'.rsp = some ⟨0, false⟩ ∧
      core.run (2 * bs.length) (s.setRecord r) = .next (t.setRecord r') := by
  induction h generalizing r with
  | last hp hl => exact (dgt_completes hp hs.engine hs.sink).run rfl (by decide) he hb ha
  | @more s t bs hp hl _ ih =>
    rw [List.length_cons, List.replicate_succ, List.flatten_cons] at ha
    obtain ⟨r₁, hb₁, ha₁, -, hrun₁⟩ := (dgt_completes hp hs.engine hs.sink).run rfl (by decide) he hb ha
    obtain ⟨r', hb', ha', hrsp, hrun⟩ := ih (dgtState_ready hs) ((dgtState_err s).trans he) hb₁ ha₁
    refine ⟨r', hb', ha', hrsp, ?_⟩
    rw [List.length_cons, Nat.mul_add, Nat.add_comm, run_add 2 _ hrun₁, hrun]

end

end Sys2Proof.Machine

/-! A conversion from its encoding to its last digit (spec/44_exact_converter.md R182, R190, R191, R195, R196). -/

namespace Sys2Proof.Machine

/-! ### What LDC loads is the value of the encoding (spec/44_exact_converter.md R182) -/

section
variable {f : Fmt} {d : Descriptor} {e : BitVec 15} {m : BitVec 64} {k : Kind}

/-- CMANT and BINEXP hold the table's numbers without loss. -/
theorem converterInput_fits (hd : descOf f = some d) (h : fieldsInRange d e m = true) (k : Kind) :
    (converterInput d k e m).1 < 2 ^ 64 ∧ -32768 ≤ (converterInput d k e m).2 ∧
      (converterInput d k e m).2 ≤ 32767 := by
  have hm := m.isLt
  have he := e.isLt
  simp only [fieldsInRange, Bool.and_eq_true, decide_eq_true_eq] at h
  cases f with
  | reserved => cases hd
  | single | double =>
    obtain rfl := Option.some.inj hd
    simp only [descSingle, descDouble] at h
    by_cases hk : k = .normal
    · simp only [converterInput, descSingle, descDouble, hk, if_true]
      omega
    · simp only [converterInput, descSingle, descDouble, hk, if_true, if_false]
      omega
  | extended =>
    obtain rfl := Option.some.inj hd
    simp only [converterInput, descExtended, Bool.false_eq_true, if_false]
    omega

/-- With an implied one, Normal and Denormal are told by the exponent field. -/
theorem kindOf_implied_converts (hd : d.impliedOne = true) (hk : (kindOf d e m).converts = true) :
    (e ≠ 0 ∧ kindOf d e m = .normal) ∨ (e = 0 ∧ m ≠ 0 ∧ kindOf d e m = .denormal) := by
  by_cases he : e = 0
  · by_cases hm : m = 0
    · rw [kindOf, if_pos he, if_pos hm] at hk
      cases hk
    · exact .inr ⟨he, hm, kindOf_denormal he hm⟩
  · refine .inl ⟨he, ?_⟩
    rw [kindOf, if_neg he, if_pos hd, kindImplied] at hk ⊢
    split at hk
    · split_ifs at hk <;> cases hk
    · next hones => rw [if_neg hones]

/-- The mantissa that LDC loads is not 0, but for an extended encoding with a zero mantissa. -/
theorem converterInput_ne_zero (hk : (kindOf d e m).converts = true) (h : d.impliedOne = true ∨ m ≠ 0) :
    (converterInput d (kindOf d e m) e m).1 ≠ 0 := by
  have hm_toNat (hm : m ≠ 0) : m.toNat ≠ 0 := fun h0 => hm (BitVec.eq_of_toNat_eq (by simpa using h0))
  cases himp : d.impliedOne with
  | true =>
    obtain ⟨-, hkind⟩ | ⟨-, hm, hkind⟩ := kindOf_implied_converts himp hk
    · simp [converterInput, himp, hkind]
    · simpa [converterInput, himp, hkind] using hm_toNat hm
  | false =>
    have hm := h.resolve_left (by simp [himp])
    simpa [converterInput, himp] using hm_toNat hm

/-- The pair of R182 is the value of the format's own formula. -/
theorem converterInput_value (hk : (kindOf d e m).converts = true) :
    ((converterInput d (kindOf d e m) e m).1 : ℚ) * 2 ^ (converterInput d (kindOf d e m) e m).2 = encodedValue d e m := by
  have two_ne : (2 : ℚ) ≠ 0 := by norm_num
  cases himp : d.impliedOne with
  | true =>
    obtain ⟨he, hkind⟩ | ⟨he, -, hkind⟩ := kindOf_implied_converts himp hk
    · simp only [converterInput, encodedValue, himp, hkind, he, if_true, if_false]
      rw [zpow_sub₀ two_ne _ (d.mantissaBits : ℤ), zpow_natCast]
      push_cast
      field_simp
    · rw [hkind]
      simp only [converterInput, encodedValue, himp, he, if_true, reduceCtorEq, if_false]
      rw [zpow_sub₀ two_ne _ (d.mantissaBits : ℤ), zpow_natCast]
      field_simp
  | false =>
    simp only [converterInput, encodedValue, himp, Bool.false_eq_true, if_false]
    rw [zpow_sub₀ two_ne _ 63, show ((2 : ℚ) ^ (63 : ℤ)) = 2 ^ 63 by norm_cast]
    field_simp

end

section
variable {f : Fmt} {d : Descriptor} {s : State}

theorem ldcState_inputValue (hd : descOf f = some d) (h : fieldsInRange d s.expf s.manf = true)
    (hk : (kindOf d s.expf s.manf).converts = true) :
    (ldcState d (kindOf d s.expf s.manf) s).inputValue = encodedValue d s.expf s.manf := by
  obtain ⟨hm, hlo, hhi⟩ := converterInput_fits hd h (kindOf d s.expf s.manf)
  rw [State.inputValue, ldcState_cmant hk rfl hm, ldcState_binExp hk rfl hlo hhi, converterInput_value hk]

theorem ldcState_cmant_ne_zero (hd : descOf f = some d) (h : fieldsInRange d s.expf s.manf = true)
    (hk : (kindOf d s.expf s.manf).converts = true) (hnz : d.impliedOne = true ∨ s.manf ≠ 0) :
    (ldcState d (kindOf d s.expf s.manf) s).cmant ≠ 0 := by
  intro h0
  have hm := ldcState_cmant hk rfl (converterInput_fits hd h (kindOf d s.expf s.manf)).1
  rw [h0] at hm
  exact converterInput_ne_zero hk hnz hm.symm

/-- An extended encoding with a zero mantissa is loaded as the mantissa 0 (spec/44_exact_converter.md R198). -/
theorem ldcState_cmant_zero (himp : d.impliedOne = false) (hk : (kindOf d s.expf s.manf).converts = true)
    (hm : s.manf = 0) : (ldcState d (kindOf d s.expf s.manf) s).cmant = 0 := by
  have hinput : (converterInput d (kindOf d s.expf s.manf) s.expf s.manf).1 = 0 := by
    simp [converterInput, himp, hm]
  exact BitVec.eq_of_toNat_eq (ldcState_cmant hk hinput (by decide))

end

/-! ### From LDC to REDUCED -/

/-- What LDC, MIN, RFR and RRE leave one after the other. -/
def preparedState (d : Descriptor) (k : Kind) (s : State) : State := rreState (rfrState (minState (ldcState d k s)))

section
variable {d : Descriptor} {k : Kind} {s : State}

theorem preparedState_phase : (preparedState d k s).phase = .reduced := rreState_phase _

theorem preparedState_phaseHolds (hm : (ldcState d k s).cmant ≠ 0) : (preparedState d k s).phaseHolds :=
  rreState_phaseHolds (rfrState_phase _) (rfrState_phaseHolds minState_phase (minState_phaseHolds hm))

/-- The three phases preserve the value (spec/44_exact_converter.md R180). -/
theorem preparedState_accValue (hm : (ldcState d k s).cmant ≠ 0) :
    (preparedState d k s).accValue = (ldcState d k s).inputValue :=
  (rreState_accValue _).trans ((rfrState_accValue _).trans (minState_inputValue hm))

theorem preparedState_dstream : (preparedState d k s).dstream = s.dstream := by
  simp [preparedState]

theorem preparedState_err : (preparedState d k s).err = s.err := by
  simp [preparedState]

theorem ldcState_kind : (ldcState d k s).kind = k := by
  unfold ldcState
  split <;> simp

theorem preparedState_kind : (preparedState d k s).kind = k := by
  rw [preparedState, rreState_kind, rfrState_kind]
  exact ldcState_kind

theorem rfrState_cneg (s : State) : (rfrState s).cneg = s.cneg := by
  unfold rfrState
  split <;> simp

theorem rreState_cneg (s : State) : (rreState s).cneg = s.cneg := by
  unfold rreState
  split <;> simp

theorem preparedState_cneg (hk : k.converts = true) : (preparedState d k s).cneg = s.neg := by
  rw [preparedState, rreState_cneg, rfrState_cneg]
  exact (congrArg State.cneg (ldcState_of_converts hk d s)).trans (by simp)

theorem preparedState_ready (h : s.Ready) : (preparedState d k s).Ready :=
  rreState_ready (rfrState_ready (minState_ready (ldcState_ready d k h)))

end

/-! ### The two runs of a conversion -/

section
variable {f : Fmt} {d : Descriptor} {s t : State} {bs : List Beat} {r : RunRecord}

theorem supported_of_desc (hd : descOf f = some d) : f.supported = true := by
  cases f with
  | reserved => cases hd
  | _ => rfl

/-- A CVT's run from its first sub-step: four steps and the digit steps. -/
theorem run_cvt {m : Nat} (hd : descOf f = some d) (hs : s.Ready) (hr : r.CvtAt f .sLdc m)
    (hin : fieldsInRange d s.expf s.manf = true) (hk : (kindOf d s.expf s.manf).converts = true)
    (hm : (ldcState d (kindOf d s.expf s.manf) s).cmant ≠ 0)
    (hdraws : Draws (preparedState d (kindOf d s.expf s.manf) s) bs t) :
    ∃ r' : RunRecord, r'.busy = false ∧ r'.agenda = List.replicate (m - (4 + bs.length)) .efu ∧ r'.rsp = r.rsp ∧
      core.run (4 + bs.length) (s.setRecord r) = .next (t.setRecord r') := by
  have hf := supported_of_desc hd
  have hloaded : (ldcState d (kindOf d s.expf s.manf) s).phase = .loaded := by rw [ldcState_phase, if_pos hk]
  have hready₁ := ldcState_ready d (kindOf d s.expf s.manf) hs
  have hready₂ := minState_ready hready₁
  have hready₃ := rfrState_ready hready₂
  obtain ⟨r₁, hr₁, hrsp₁, hstep₁⟩ := (cvt_loads hd hin hk).step hf hr
  obtain ⟨r₂, hr₂, hrsp₂, hstep₂⟩ := (cvt_minimizes hloaded hm).step hf hr₁
  obtain ⟨r₃, hr₃, hrsp₃, hstep₃⟩ := (cvt_defracts minState_phase hready₂.engine).step hf hr₂
  obtain ⟨r₄, hr₄, hrsp₄, hstep₄⟩ := (cvt_reduces (rfrState_phase _) hready₃.engine).step hf hr₃
  obtain ⟨r', hb, ha, hrsp, hrun⟩ := hdraws.run_cvt (preparedState_ready hs) hf hr₄
  have hfirst : core.run 4 (s.setRecord r) = .next ((preparedState d (kindOf d s.expf s.manf) s).setRecord r₄) :=
    (run_succ_of_step 3 hstep₁).trans ((run_succ_of_step 2 hstep₂).trans ((run_succ_of_step 1 hstep₃).trans
      (run_succ_of_step 0 hstep₄)))
  refine ⟨r', hb, ?_, hrsp.trans (hrsp₄.trans (hrsp₃.trans (hrsp₂.trans hrsp₁))), (run_add 4 _ hfirst).trans hrun⟩
  rw [ha]
  exact congrArg (List.replicate · _) (by omega)

/-- The command sequence from an idle EFU: LDC, MIN, RFR, RRE and the digit steps, each issued and run. -/
theorem run_commands (hd : descOf f = some d) (hs : s.Ready) (he : s.err = .noError) (hb : r.busy = false)
    (ha : r.agenda = issue (.ldc f) ++ issue .min ++ issue .rfr ++ issue .rre
      ++ (List.replicate bs.length (issue .dgt)).flatten)
    (hin : fieldsInRange d s.expf s.manf = true) (hk : (kindOf d s.expf s.manf).converts = true)
    (hm : (ldcState d (kindOf d s.expf s.manf) s).cmant ≠ 0)
    (hdraws : Draws (preparedState d (kindOf d s.expf s.manf) s) bs t) :
    ∃ r' : RunRecord, r'.busy = false ∧ r'.agenda = [] ∧ r'.rsp = some ⟨0, false⟩ ∧
      core.run (8 + 2 * bs.length) (s.setRecord r) = .next (t.setRecord r') := by
  have hloaded : (ldcState d (kindOf d s.expf s.manf) s).phase = .loaded := by rw [ldcState_phase, if_pos hk]
  have hready₁ := ldcState_ready d (kindOf d s.expf s.manf) hs
  have hready₂ := minState_ready hready₁
  have hready₃ := rfrState_ready hready₂
  have herr₁ : (ldcState d (kindOf d s.expf s.manf) s).err = .noError := (ldcState_err ..).trans he
  have herr₂ := (minState_err _).trans herr₁
  have herr₃ := (rfrState_err _).trans herr₂
  simp only [List.append_assoc] at ha
  obtain ⟨r₁, hb₁, ha₁, -, hrun₁⟩ := (ldc_completes hd hin).run (supported_of_desc hd) Instr.noConfusion he hb ha
  obtain ⟨r₂, hb₂, ha₂, -, hrun₂⟩ := (min_completes hloaded hm).run rfl Instr.noConfusion herr₁ hb₁ ha₁
  obtain ⟨r₃, hb₃, ha₃, -, hrun₃⟩ :=
    (rfr_completes minState_phase hready₂.engine).run rfl Instr.noConfusion herr₂ hb₂ ha₂
  obtain ⟨r₄, hb₄, ha₄, -, hrun₄⟩ :=
    (rre_completes (rfrState_phase _) hready₃.engine).run rfl Instr.noConfusion herr₃ hb₃ ha₃
  obtain ⟨r', hb', ha', hrsp, hrun⟩ :=
    hdraws.run_commands (preparedState_ready hs) (preparedState_err.trans he) hb₄ ha₄
  have hfirst : core.run 8 (s.setRecord r) = .next ((preparedState d (kindOf d s.expf s.manf) s).setRecord r₄) :=
    (run_add 2 6 hrun₁).trans ((run_add 2 4 hrun₂).trans ((run_add 2 2 hrun₃).trans hrun₄))
  exact ⟨r', hb', ha', hrsp, (run_add 8 _ hfirst).trans hrun⟩

end

/-! ### The exact value -/

section
variable {s t : State} {bs : List Beat}

theorem Draws.p5n (h : Draws s bs t) : t.p5n = s.p5n := by
  rw [h.frame]

theorem Draws.kind (h : Draws s bs t) : t.kind = s.kind := by
  rw [h.frame]

theorem Draws.cneg (h : Draws s bs t) : t.cneg = s.cneg := by
  rw [h.frame]

theorem Draws.err (h : Draws s bs t) : t.err = s.err := by
  rw [h.frame]

end

/-- At REDUCED the value is the accumulator with `P5N` of its digits behind the point. -/
theorem accValue_of_reduced {s : State} (hp : s.phase = .reduced) (h : s.phaseHolds) :
    s.accValue = (s.acc : ℚ) * 10 ^ (-(s.p5n.toNat : ℤ)) ∧ (-s.decExp).toNat = s.p5n.toNat := by
  rw [State.phaseHolds, hp] at h
  obtain ⟨hbin, hdec, -⟩ := h
  rw [State.accValue, hbin, hdec, zpow_zero, mul_one, neg_neg, Int.toNat_natCast]
  exact ⟨rfl, rfl⟩

/-- Settles O35: LDC loads the encoding's value, the three phases preserve it, and the digits of the accumulator at
REDUCED are those sent. -/
theorem cvtConvertsTheExactValue : Obligations.CvtConvertsTheExactValue := by
  intro f d s hd hb hruns hu ha he hk hin hconv hnz
  have hm := ldcState_cmant_ne_zero hd hin hconv hnz
  have hphase := preparedState_phaseHolds hm
  have hvalue := (preparedState_accValue hm).trans (ldcState_inputValue hd hin hconv)
  obtain ⟨hacc, hplaces⟩ := accValue_of_reduced preparedState_phase hphase
  obtain ⟨bs, t, hdraws, hlen⟩ := exists_draws rfl (.inl preparedState_phase) hphase
  obtain ⟨hfin, -, hstream, hnumber⟩ := hdraws.result
  have hfrac := (hdraws.fractionCount hphase).trans hplaces
  have hcvt : s.record.CvtAt f .sLdc 0 := ⟨hb, hruns.2, hu, ha⟩
  obtain ⟨r', hb', -, -, hrun⟩ := run_cvt hd ⟨he, hk⟩ hcvt hin hconv hm hdraws
  have hp5n : (t.setRecord r').p5n = (preparedState d (kindOf d s.expf s.manf) s).p5n :=
    (setRecord_p5n t r').trans hdraws.p5n
  refine ⟨t.setRecord r', bs, hrun, hfin, hb', ?err, ?kind, ?cneg, ?stream, ?count, ?length, ?value,
    fun k b hb => ?beat⟩
  case err => exact (setRecord_err t r').trans (hdraws.err.trans preparedState_err)
  case kind => exact (setRecord_kind t r').trans (hdraws.kind.trans preparedState_kind)
  case cneg => exact (setRecord_cneg t r').trans (hdraws.cneg.trans (preparedState_cneg hconv))
  case stream => rw [setRecord_dstream, hstream, preparedState_dstream]
  case count => rw [hp5n, hfrac]
  case length => rw [hlen, digitsLeft, hplaces, hp5n, hnumber]
  case value => rw [hnumber, hfrac, ← hacc, hvalue]
  case beat =>
    obtain ⟨hdigit, -, hlast⟩ := hdraws.beats hphase hb
    exact ⟨hdigit, hlast⟩

/-! ### CVT and the command sequence -/

section
variable {f : Fmt} {d : Descriptor} {s t : State}

/-- The record of a state whose agenda has been replaced. -/
def State.recordWith (s : State) (es : List Event) : RunRecord := { s.record with agenda := es }

/-- A CVT issued to an idle EFU with no error recorded stands at its first sub-step. -/
theorem step_issue_cvt (hf : f.supported = true) (hb : s.busy = false) (he : s.err = .noError) (m : Nat) :
    ∃ r : RunRecord, r.CvtAt f .sLdc m ∧ r.rsp = some ⟨0, false⟩ ∧
      step { s with agenda := .write 0x10 (encode (.cvt f)) :: List.replicate m .efu } = .next (s.setRecord r) :=
  ⟨acceptedRecord (.cvt f) s.ustep (List.replicate m .efu), ⟨rfl, rfl, if_pos (opcode_cvt rfl), rfl⟩, rfl,
    step_issue (i := .cvt f)
      (s := { s with agenda := .write 0x10 (encode (.cvt f)) :: List.replicate m .efu }) hf Instr.noConfusion hb he rfl⟩

/-- Both runs end idle, with the same answer and nothing left on the agenda. -/
theorem sameButCommand_of_ended {r r' : RunRecord} (hb : r.busy = false) (hb' : r'.busy = false)
    (hr : r.rsp = some ⟨0, false⟩) (hr' : r'.rsp = some ⟨0, false⟩) (ha : r.agenda = []) (ha' : r'.agenda = []) :
    (t.setRecord r).sameButCommand (t.setRecord r') :=
  sameButCommand_setRecord t (hb.trans hb'.symm) (hr.trans hr'.symm) (ha.trans ha'.symm)

/-- A CVT that ends in its first sub-step leaves what LDC leaves. -/
theorem cvt_first_step_eq_ldc (hf : f.supported = true) (hb : s.busy = false) (he : s.err = .noError)
    (hcvt : CvtEnds f .sLdc s t) (hldc : Completes (.ldc f) s t) :
    ∃ r r' : RunRecord,
      core.run 2 { s with agenda := .write 0x10 (encode (.cvt f)) :: List.replicate 1 .efu } = .next (t.setRecord r) ∧
      core.run 2 { s with agenda := issue (.ldc f) } = .next (t.setRecord r') ∧
      (t.setRecord r).sameButCommand (t.setRecord r') ∧ r.busy = false := by
  obtain ⟨r₀, hr₀, hrsp₀, hissue⟩ := step_issue_cvt hf hb he 1
  obtain ⟨r, hbr, har, hrsp, hstep⟩ := hcvt.step hf hr₀
  obtain ⟨r', hbr', har', hrsp', hrun'⟩ := hldc.run (r := s.recordWith (issue (.ldc f))) (es := []) hf
    Instr.noConfusion he hb (List.append_nil _).symm
  exact ⟨r, r', (run_succ_of_step 1 hissue).trans (run_succ_of_step 0 hstep), hrun',
    sameButCommand_of_ended hbr hbr' (hrsp.trans hrsp₀) hrsp' har har', hbr⟩

end

/-- Settles O36: in each of the four cases both runs are made of the same completions. -/
theorem cvtEqualsTheCommandSequence : Obligations.CvtEqualsTheCommandSequence := by
  intro f d s hd hb he hreq hbeat heng hsink cvt k
  have hf := supported_of_desc hd
  refine ⟨fun hout => ?range, fun hin hk => ?bypass, fun hin hk himp hm => ?precond, fun hin hk hnz => ?converted⟩
  case range =>
    obtain ⟨r, r', hrun, hrun', hsame, hbr⟩ :=
      cvt_first_step_eq_ldc hf hb he (cvt_raises_range hd hout) (ldc_raises_range hd hout)
    exact ⟨_, _, hrun, hrun', hsame, rfl, hbr⟩
  case bypass =>
    obtain ⟨r, r', hrun, hrun', hsame, hbr⟩ :=
      cvt_first_step_eq_ldc hf hb he (cvt_bypasses hd hin hk) (ldc_completes hd hin)
    have hphase : (ldcState d k s).phase = .bypass := by rw [ldcState_phase, hk]; rfl
    exact ⟨_, _, hrun, hrun', hsame, hphase, hbr⟩
  case precond =>
    have hloaded : (ldcState d k s).phase = .loaded := by rw [ldcState_phase, if_pos hk]
    have hzero : (ldcState d k s).cmant = 0 := ldcState_cmant_zero himp hk hm
    obtain ⟨r₀, hr₀, hrsp₀, hissue⟩ := step_issue_cvt hf hb he 2
    obtain ⟨r₁, hr₁, hrsp₁, hstep₁⟩ := (cvt_loads hd hin hk).step hf hr₀
    obtain ⟨r, hbr, har, hrsp, hstep⟩ := (cvt_raises_precond hloaded hzero).step hf hr₁
    obtain ⟨r₁', hb₁', ha₁', -, hrun₁'⟩ := (ldc_completes hd hin).run (r := s.recordWith (issue (.ldc f) ++ issue .min))
      hf Instr.noConfusion he hb rfl
    obtain ⟨r', hbr', har', hrsp', hrun'⟩ := (min_raises_precond hloaded hzero).run (es := []) rfl Instr.noConfusion
      ((ldcState_err ..).trans he) hb₁' (ha₁'.trans (List.append_nil _).symm)
    exact ⟨_, _, (run_succ_of_step 2 hissue).trans ((run_succ_of_step 1 hstep₁).trans (run_succ_of_step 0 hstep)),
      (run_add 2 2 hrun₁').trans hrun',
      sameButCommand_of_ended hbr hbr' (hrsp.trans (hrsp₁.trans hrsp₀)) hrsp' har har', rfl, hbr⟩
  case converted =>
    have hm := ldcState_cmant_ne_zero hd hin hk hnz
    obtain ⟨bs, t, hdraws, -⟩ := exists_draws rfl (.inl preparedState_phase) (preparedState_phaseHolds hm)
    obtain ⟨r₀, hr₀, hrsp₀, hissue⟩ := step_issue_cvt hf hb he (4 + bs.length)
    obtain ⟨r, hbr, har, hrsp, hrun⟩ := run_cvt hd ⟨heng, hsink⟩ hr₀ hin hk hm hdraws
    obtain ⟨r', hbr', har', hrsp', hrun'⟩ := run_commands (r := s.recordWith _) hd ⟨heng, hsink⟩ he hb rfl hin hk hm
      hdraws
    rw [Nat.sub_self] at har
    refine ⟨bs.length, _, _, ?_, hrun', sameButCommand_of_ended hbr hbr' (hrsp.trans hrsp₀) hrsp' har har',
      hdraws.result.1, hbr⟩
    rw [show 5 + bs.length = 4 + bs.length + 1 by omega]
    exact (run_succ_of_step _ hissue).trans hrun

end Sys2Proof.Machine
